-- ==== Sys2Proof/Word.lean ====
section
/-! DEFINITION. The word types of the machine (spec 00 R11, R12; spec 10 R20).

`XLEN = ALEN = ILEN = 32`, a byte is 8 bits, and there are 32 general registers. `+`, `-` and `*` of
`BitVec` are the operations modulo 2^32 of rule R12; `toInt` is the rule's `signed`, `toNat` its `unsigned`. -/

namespace Sys2Proof

/-- A 32-bit word: a general register, the PC, HI, LO, a CP0 register, an instruction, an address (R11, R12). -/
abbrev Word := BitVec 32

/-- A byte, the unit the address space is numbered in (R60). -/
abbrev Byte := BitVec 8

/-- The number of a general register, or of a coprocessor-0 register in the `rd` field (R20, R29). -/
abbrev Reg := Fin 32

end Sys2Proof
end

