-- ==== Sys2Proof/Config.lean ====
section
/-! DEFINITION. The implementation parameters of spec 00 R11 and the model's free values.

A parameter the spec marks OPEN is a field of `Platform`, and the machine's `State` carries its platform, so a
statement about every state is a statement about every value of every parameter (log 1). A parameter with a fixed
value is a constant here. A free value has no body: nothing can be proved about which value it is (log 11). -/

namespace Sys2Proof

/-- The four kinds of region (R61). -/
inductive RegionKind where
  | ram
  | rom
  | consoleOut
  | consoleIn
deriving DecidableEq, Repr

/-- One entry `(name, base, size, kind)` of `REGIONS`: it covers addresses `base` to `base + size - 1` (R61). -/
structure Region where
  name : String
  base : Word
  size : Nat
  kind : RegionKind
deriving DecidableEq, Repr

/-- Which service a number of `SYSCALL_TABLE` is: the exit service, or another (R11, R324). Either ends as the host
answers on the port (R325; log 9). -/
inductive ServiceKind where
  | exit
  | external
deriving DecidableEq, Repr

/-- `INPUT_MODE`: what a load of the empty console-input data register does (R11, R329). -/
inductive InputMode where
  | block
  | marker
deriving DecidableEq, Repr

/-- `DIV0_POLICY`: what DIV and DIVU leave in HI and LO when the divisor is zero. `unchanged` is this hardware
(R11, R203); `arbitrary` is the instance spec 93 U1 recommends to a cautious model: two free values (log 10). -/
inductive Div0Policy where
  | unchanged
  | arbitrary
deriving DecidableEq, Repr

/-- The parameters of R11 that the spec leaves OPEN, and `DIV0_POLICY`. -/
structure Platform where
  regions : List Region
  excVector : Word
  syscallHosted : Bool
  syscallTable : List (Word × ServiceKind)
  inputMode : InputMode
  inputTimeout : Bool
  div0Policy : Div0Policy
deriving DecidableEq, Repr

namespace Config

/-- `SVC_REG`: the register that holds the service number (R11, R324). -/
def svcReg : Reg := 2

/-- `ARG_REGS`: the registers that hold a service's arguments, in order (R11, R324). -/
def argRegs : List Reg := [4, 5, 6, 7]

/-- `RET_REG`: the one general register the host may write during a service (R11, R325). -/
def retReg : Reg := 2

/-- The link register of JAL, BLTZAL and BGEZAL (R22, R239). -/
def linkReg : Reg := 31

/-- `INIT_GPR` (R11, R20). -/
def initGpr : Word := 0

/-- `INIT_HI` (R11, R27). -/
def initHi : Word := 0

/-- `INIT_LO` (R11, R27). -/
def initLo : Word := 0

/-- Free value: HI after a division by zero under `Div0Policy.arbitrary`, one for each use (U1, log 10, log 11). -/
opaque divByZeroHi : Nat → Word

/-- Free value: LO after a division by zero under `Div0Policy.arbitrary`, one for each use (U1, log 10, log 11). -/
opaque divByZeroLo : Nat → Word

/-- Free value: what a load reads from a word of a console-input region that holds neither of the two registers of
R328, one for each use (log 11, log 12). -/
opaque deviceWord : Nat → Word

/-- The test platform TP of spec 95, section 0: the defaults of R11 with the region map its vectors use (log 1). -/
def testPlatform : Platform where
  regions := [
    ⟨"text", 0x00400000, 0x00100000, .ram⟩,
    ⟨"data", 0x10010000, 0x00010000, .ram⟩,
    ⟨"ktext", 0x80000000, 0x00010000, .rom⟩,
    ⟨"cin", 0xFFFF0000, 8, .consoleIn⟩,
    ⟨"cout", 0xFFFF000C, 4, .consoleOut⟩]
  excVector := 0x80000180
  syscallHosted := true
  syscallTable := [(10, .exit), (11, .external)]
  inputMode := .block
  inputTimeout := false
  div0Policy := .unchanged

/-- The entry point of the model's reset image, the start address of spec 95's vectors (log 2). -/
def resetEntry : Word := 0x00400000

end Config

end Sys2Proof
end

