-- ==== Sys2Proof/Syntax.lean ====
section
/-! DEFINITION. Instructions and program images.

One constructor of `Instr` for each of the 57 rows of spec/opcode_table.json (R124), with the fields the row gives
it, in assembler order (R122). Every operand has the width of its field as its type, so every term of `Instr` is an
instruction the encoding admits. The reserved instruction is no constructor: it is the decoder's other answer (R105). -/

namespace Sys2Proof

/-- The operations of the instruction set. `brk` is BREAK (`break` is a word of Lean). -/
inductive Instr where
  -- Arithmetic and comparison (spec 40)
  | add (rd : Reg) (rs : Reg) (rt : Reg)
  | addu (rd : Reg) (rs : Reg) (rt : Reg)
  | sub (rd : Reg) (rs : Reg) (rt : Reg)
  | subu (rd : Reg) (rs : Reg) (rt : Reg)
  | addi (rt : Reg) (rs : Reg) (imm : BitVec 16)
  | addiu (rt : Reg) (rs : Reg) (imm : BitVec 16)
  | slt (rd : Reg) (rs : Reg) (rt : Reg)
  | sltu (rd : Reg) (rs : Reg) (rt : Reg)
  | slti (rt : Reg) (rs : Reg) (imm : BitVec 16)
  | sltiu (rt : Reg) (rs : Reg) (imm : BitVec 16)
  -- Logical (spec 41)
  | and (rd : Reg) (rs : Reg) (rt : Reg)
  | or (rd : Reg) (rs : Reg) (rt : Reg)
  | xor (rd : Reg) (rs : Reg) (rt : Reg)
  | nor (rd : Reg) (rs : Reg) (rt : Reg)
  | andi (rt : Reg) (rs : Reg) (imm : BitVec 16)
  | ori (rt : Reg) (rs : Reg) (imm : BitVec 16)
  | xori (rt : Reg) (rs : Reg) (imm : BitVec 16)
  | lui (rt : Reg) (imm : BitVec 16)
  -- Shifts (spec 42)
  | sll (rd : Reg) (rt : Reg) (shamt : BitVec 5)
  | srl (rd : Reg) (rt : Reg) (shamt : BitVec 5)
  | sra (rd : Reg) (rt : Reg) (shamt : BitVec 5)
  | sllv (rd : Reg) (rt : Reg) (rs : Reg)
  | srlv (rd : Reg) (rt : Reg) (rs : Reg)
  | srav (rd : Reg) (rt : Reg) (rs : Reg)
  -- Multiply, divide, HI and LO (spec 43)
  | mult (rs : Reg) (rt : Reg)
  | multu (rs : Reg) (rt : Reg)
  | div (rs : Reg) (rt : Reg)
  | divu (rs : Reg) (rt : Reg)
  | mfhi (rd : Reg)
  | mflo (rd : Reg)
  | mthi (rs : Reg)
  | mtlo (rs : Reg)
  -- Branches and jumps (spec 44)
  | beq (rs : Reg) (rt : Reg) (imm : BitVec 16)
  | bne (rs : Reg) (rt : Reg) (imm : BitVec 16)
  | blez (rs : Reg) (imm : BitVec 16)
  | bgtz (rs : Reg) (imm : BitVec 16)
  | bltz (rs : Reg) (imm : BitVec 16)
  | bgez (rs : Reg) (imm : BitVec 16)
  | bltzal (rs : Reg) (imm : BitVec 16)
  | bgezal (rs : Reg) (imm : BitVec 16)
  | j (index : BitVec 26)
  | jal (index : BitVec 26)
  | jr (rs : Reg)
  | jalr (rd : Reg) (rs : Reg)
  -- Loads and stores (spec 45)
  | lb (rt : Reg) (imm : BitVec 16) (rs : Reg)
  | lbu (rt : Reg) (imm : BitVec 16) (rs : Reg)
  | lh (rt : Reg) (imm : BitVec 16) (rs : Reg)
  | lhu (rt : Reg) (imm : BitVec 16) (rs : Reg)
  | lw (rt : Reg) (imm : BitVec 16) (rs : Reg)
  | sb (rt : Reg) (imm : BitVec 16) (rs : Reg)
  | sh (rt : Reg) (imm : BitVec 16) (rs : Reg)
  | sw (rt : Reg) (imm : BitVec 16) (rs : Reg)
  -- System and coprocessor 0 (spec 46)
  | syscall (code : BitVec 20)
  | brk (code : BitVec 20)
  | mfc0 (rt : Reg) (rd : Reg)
  | mtc0 (rt : Reg) (rd : Reg)
  | eret
deriving DecidableEq, Repr

/-- A program image (R360): entry point, text words in the sequence's order, and the data blob with its base address.
The symbol table never reaches the block and is left out (R360, log 22). -/
structure Image where
  entry : Word
  text : List (Word × Word)
  dataBase : Word
  data : List Byte
deriving DecidableEq, Repr

end Sys2Proof
end

