-- ==== Sys2Proof/Machine/Regions.lean ====
section
/-! DEFINITION. The region map: which region an address lies in and which accesses it allows (spec 20 R61 to R63,
R66, R70). -/

namespace Sys2Proof

/-- The region covers the byte address `a` (R61). -/
def Region.covers (r : Region) (a : Nat) : Bool :=
  decide (r.base.toNat ≤ a) && decide (a < r.base.toNat + r.size)

/-- Which word of its region holds the address: the device registers are selected by it (R328). -/
def Region.wordIndex (r : Region) (a : Nat) : Nat := (a - r.base.toNat) / 4

/-- The region that contains byte address `a`, if any. Entries are disjoint (R61), so at most one does in a
well-formed map; of an ill-formed map the first is taken (log 18). -/
def Platform.regionAt (p : Platform) (a : Nat) : Option Region :=
  p.regions.find? (·.covers a)

/-- `region(a)` of R61. -/
def Platform.kindAt (p : Platform) (a : Nat) : Option RegionKind :=
  (p.regionAt a).map (·.kind)

/-- `a` lies in a region that holds bytes, RAM or ROM (R40, R70). -/
def Platform.isStorage (p : Platform) (a : Nat) : Bool :=
  p.kindAt a == some .ram || p.kindAt a == some .rom

/-- The region check of a data read (R62). -/
def Platform.readable (p : Platform) (a : Nat) : Bool :=
  p.isStorage a || p.kindAt a == some .consoleIn

/-- The region check of a data write (R63). -/
def Platform.writable (p : Platform) (a : Nat) : Bool :=
  p.kindAt a == some .ram || p.kindAt a == some .consoleOut

/-- An instruction can be fetched at `pc` (R70). -/
def Platform.fetchable (p : Platform) (pc : Word) : Bool :=
  decide (pc.toNat % 4 = 0) && p.isStorage pc.toNat

/-- A handler is installed: `EXC_VECTOR` is word-aligned and lies in RAM or ROM (R313). -/
def Platform.handlerInstalled (p : Platform) : Bool :=
  p.fetchable p.excVector

end Sys2Proof
end

