-- ==== Sys2Proof/WellFormed.lean ====
section
/-! DEFINITION. What the loader checks before any step executes (spec 70 R361, spec 20 R61).

Every term of `Instr` is well formed, since its fields carry their widths in their types (Syntax.lean). What the spec
lets be malformed is the region map and the program image; each condition (a) to (d) of R361 is one check here. -/

namespace Sys2Proof

/-- Base and size are multiples of 4 (R61, R361 (b)). -/
def Region.wordSized (r : Region) : Bool :=
  decide (r.base.toNat % 4 = 0) && decide (r.size % 4 = 0)

/-- The entry does not wrap past 0xFFFF_FFFF (R61, R361 (b)). -/
def Region.inSpace (r : Region) : Bool :=
  decide (r.base.toNat + r.size ≤ 2 ^ 32)

/-- Two entries share no address (R61). An entry of size 0 covers none, so it overlaps nothing (log 33). -/
def Region.disjoint (r q : Region) : Bool :=
  decide (r.size = 0) || decide (q.size = 0) || decide (r.base.toNat + r.size ≤ q.base.toNat) || decide (q.base.toNat + q.size ≤ r.base.toNat)

/-- `REGIONS` is pairwise disjoint, in the address space and word-sized (R61, R361 (b)). -/
abbrev Platform.wellFormed (p : Platform) : Prop :=
  (∀ r ∈ p.regions, r.wordSized = true ∧ r.inSpace = true) ∧
    p.regions.Pairwise (fun r q => r.disjoint q = true)

/-- The entry point can be fetched (R361 (a)). -/
def Image.entryOk (p : Platform) (img : Image) : Bool :=
  p.fetchable img.entry

/-- Every text word stands at a word-aligned address in RAM or ROM (R361 (c)). -/
def Image.textOk (p : Platform) (img : Image) : Bool :=
  img.text.all fun c => p.fetchable c.1

/-- The address of byte `i` of the data blob, `base + i` modulo 2^32 (R360 (2), D45). -/
def Image.dataAddr (img : Image) (i : Nat) : Word := img.dataBase + BitVec.ofNat 32 i

/-- Every byte of the data blob lies in RAM or ROM (R361 (d)). -/
def Image.dataOk (p : Platform) (img : Image) : Bool :=
  (List.range img.data.length).all fun i => p.isStorage (img.dataAddr i).toNat

/-- The image is accepted on this platform (R361). -/
abbrev Image.accepted (p : Platform) (img : Image) : Prop :=
  img.entryOk p = true ∧ p.wellFormed ∧ img.textOk p = true ∧ img.dataOk p = true

end Sys2Proof
end

