-- ==== Sys2Proof/Decode.lean ====
section
/-! DEFINITION. The decoder and the encoder (spec 30).

`decode` selects in the order of R106 from the maps of R114 to R117 and is total: a word the maps mark RI decodes to
`Descriptor.reservedInstruction` (R105, R118). `encode` is written from the formats of R101 to R103; an unused field,
which the decoder ignores (R107), is encoded as zeros. `opcodeTable` is spec/opcode_table.json's match and mask of
each row, a second reading of the same encodings that statements compare the decoder with. -/

namespace Sys2Proof

/-- The operation descriptor a word decodes to (R105). -/
inductive Descriptor where
  | operation (i : Instr)
  | reservedInstruction
deriving DecidableEq, Repr

/-! Field extraction (R104). -/

/-- A 5-bit field as a register number. -/
def regField (v : BitVec 5) : Reg := ⟨v.toNat, v.isLt⟩

/-- A register number as a 5-bit field. -/
def regBits (r : Reg) : BitVec 5 := BitVec.ofNat 5 r.val

/-- `opcode = w[31:26]` -/
def opcodeOf (w : Word) : BitVec 6 := w.extractLsb' 26 6

/-- `w[25:21]` as bits, the COP0 selector of R117. -/
def rsBits (w : Word) : BitVec 5 := w.extractLsb' 21 5

/-- `w[20:16]` as bits, the REGIMM selector of R116. -/
def rtBits (w : Word) : BitVec 5 := w.extractLsb' 16 5

/-- `rs = w[25:21]` -/
def rsOf (w : Word) : Reg := regField (rsBits w)

/-- `rt = w[20:16]` -/
def rtOf (w : Word) : Reg := regField (rtBits w)

/-- `rd = w[15:11]` -/
def rdOf (w : Word) : Reg := regField (w.extractLsb' 11 5)

/-- `shamt = w[10:6]` -/
def shamtOf (w : Word) : BitVec 5 := w.extractLsb' 6 5

/-- `funct = w[5:0]` -/
def functOf (w : Word) : BitVec 6 := w.extractLsb' 0 6

/-- `imm = w[15:0]` -/
def immOf (w : Word) : BitVec 16 := w.extractLsb' 0 16

/-- `instr_index = w[25:0]` -/
def indexOf (w : Word) : BitVec 26 := w.extractLsb' 0 26

/-- `code = w[25:6]` of SYSCALL and BREAK -/
def codeOf (w : Word) : BitVec 20 := w.extractLsb' 6 20

/-! The decoder (R105, R106). -/

/-- The SPECIAL map, selected by `funct` (R115). -/
def decodeSpecial (w : Word) : Descriptor :=
  match functOf w with
  | 0x00#6 => .operation (.sll (rdOf w) (rtOf w) (shamtOf w))
  | 0x02#6 => .operation (.srl (rdOf w) (rtOf w) (shamtOf w))
  | 0x03#6 => .operation (.sra (rdOf w) (rtOf w) (shamtOf w))
  | 0x04#6 => .operation (.sllv (rdOf w) (rtOf w) (rsOf w))
  | 0x06#6 => .operation (.srlv (rdOf w) (rtOf w) (rsOf w))
  | 0x07#6 => .operation (.srav (rdOf w) (rtOf w) (rsOf w))
  | 0x08#6 => .operation (.jr (rsOf w))
  | 0x09#6 => .operation (.jalr (rdOf w) (rsOf w))
  | 0x0C#6 => .operation (.syscall (codeOf w))
  | 0x0D#6 => .operation (.brk (codeOf w))
  | 0x10#6 => .operation (.mfhi (rdOf w))
  | 0x11#6 => .operation (.mthi (rsOf w))
  | 0x12#6 => .operation (.mflo (rdOf w))
  | 0x13#6 => .operation (.mtlo (rsOf w))
  | 0x18#6 => .operation (.mult (rsOf w) (rtOf w))
  | 0x19#6 => .operation (.multu (rsOf w) (rtOf w))
  | 0x1A#6 => .operation (.div (rsOf w) (rtOf w))
  | 0x1B#6 => .operation (.divu (rsOf w) (rtOf w))
  | 0x20#6 => .operation (.add (rdOf w) (rsOf w) (rtOf w))
  | 0x21#6 => .operation (.addu (rdOf w) (rsOf w) (rtOf w))
  | 0x22#6 => .operation (.sub (rdOf w) (rsOf w) (rtOf w))
  | 0x23#6 => .operation (.subu (rdOf w) (rsOf w) (rtOf w))
  | 0x24#6 => .operation (.and (rdOf w) (rsOf w) (rtOf w))
  | 0x25#6 => .operation (.or (rdOf w) (rsOf w) (rtOf w))
  | 0x26#6 => .operation (.xor (rdOf w) (rsOf w) (rtOf w))
  | 0x27#6 => .operation (.nor (rdOf w) (rsOf w) (rtOf w))
  | 0x2A#6 => .operation (.slt (rdOf w) (rsOf w) (rtOf w))
  | 0x2B#6 => .operation (.sltu (rdOf w) (rsOf w) (rtOf w))
  | _ => .reservedInstruction

/-- The REGIMM map, selected by the `rt` field (R116). -/
def decodeRegimm (w : Word) : Descriptor :=
  match rtBits w with
  | 0x00#5 => .operation (.bltz (rsOf w) (immOf w))
  | 0x01#5 => .operation (.bgez (rsOf w) (immOf w))
  | 0x10#5 => .operation (.bltzal (rsOf w) (immOf w))
  | 0x11#5 => .operation (.bgezal (rsOf w) (immOf w))
  | _ => .reservedInstruction

/-- The COP0 map, selected by the `rs` field and, when bit 25 is set, by `funct` (R117). -/
def decodeCop0 (w : Word) : Descriptor :=
  match rsBits w with
  | 0x00#5 => .operation (.mfc0 (rtOf w) (rdOf w))
  | 0x04#5 => .operation (.mtc0 (rtOf w) (rdOf w))
  | rs =>
    if rs.msb then
      match functOf w with
      | 0x18#6 => .operation .eret
      | _ => .reservedInstruction
    else .reservedInstruction

/-- The primary map, selected by `opcode` (R106, R114). -/
def decode (w : Word) : Descriptor :=
  match opcodeOf w with
  | 0x00#6 => decodeSpecial w
  | 0x01#6 => decodeRegimm w
  | 0x10#6 => decodeCop0 w
  | 0x02#6 => .operation (.j (indexOf w))
  | 0x03#6 => .operation (.jal (indexOf w))
  | 0x04#6 => .operation (.beq (rsOf w) (rtOf w) (immOf w))
  | 0x05#6 => .operation (.bne (rsOf w) (rtOf w) (immOf w))
  | 0x06#6 => .operation (.blez (rsOf w) (immOf w))
  | 0x07#6 => .operation (.bgtz (rsOf w) (immOf w))
  | 0x08#6 => .operation (.addi (rtOf w) (rsOf w) (immOf w))
  | 0x09#6 => .operation (.addiu (rtOf w) (rsOf w) (immOf w))
  | 0x0A#6 => .operation (.slti (rtOf w) (rsOf w) (immOf w))
  | 0x0B#6 => .operation (.sltiu (rtOf w) (rsOf w) (immOf w))
  | 0x0C#6 => .operation (.andi (rtOf w) (rsOf w) (immOf w))
  | 0x0D#6 => .operation (.ori (rtOf w) (rsOf w) (immOf w))
  | 0x0E#6 => .operation (.xori (rtOf w) (rsOf w) (immOf w))
  | 0x0F#6 => .operation (.lui (rtOf w) (immOf w))
  | 0x20#6 => .operation (.lb (rtOf w) (immOf w) (rsOf w))
  | 0x21#6 => .operation (.lh (rtOf w) (immOf w) (rsOf w))
  | 0x23#6 => .operation (.lw (rtOf w) (immOf w) (rsOf w))
  | 0x24#6 => .operation (.lbu (rtOf w) (immOf w) (rsOf w))
  | 0x25#6 => .operation (.lhu (rtOf w) (immOf w) (rsOf w))
  | 0x28#6 => .operation (.sb (rtOf w) (immOf w) (rsOf w))
  | 0x29#6 => .operation (.sh (rtOf w) (immOf w) (rsOf w))
  | 0x2B#6 => .operation (.sw (rtOf w) (immOf w) (rsOf w))
  | _ => .reservedInstruction

/-! The encoder. -/

/-- The R format (R101). -/
def rWord (opcode : BitVec 6) (rs rt rd : Reg) (shamt : BitVec 5) (funct : BitVec 6) : Word :=
  opcode ++ regBits rs ++ regBits rt ++ regBits rd ++ shamt ++ funct

/-- The I format (R102). -/
def iWord (opcode : BitVec 6) (rs rt : Reg) (imm : BitVec 16) : Word :=
  opcode ++ regBits rs ++ regBits rt ++ imm

/-- The J format (R103). -/
def jWord (opcode : BitVec 6) (index : BitVec 26) : Word :=
  opcode ++ index

/-- SYSCALL and BREAK: opcode 0 and a 20-bit code field (R104, R271, R272). -/
def codeWord (code : BitVec 20) (funct : BitVec 6) : Word :=
  0x00#6 ++ code ++ funct

/-- The word of an instruction, unused fields zero. -/
def encode : Instr → Word
  | .add rd rs rt => rWord 0x00 rs rt rd 0 0x20
  | .addu rd rs rt => rWord 0x00 rs rt rd 0 0x21
  | .sub rd rs rt => rWord 0x00 rs rt rd 0 0x22
  | .subu rd rs rt => rWord 0x00 rs rt rd 0 0x23
  | .addi rt rs imm => iWord 0x08 rs rt imm
  | .addiu rt rs imm => iWord 0x09 rs rt imm
  | .slt rd rs rt => rWord 0x00 rs rt rd 0 0x2A
  | .sltu rd rs rt => rWord 0x00 rs rt rd 0 0x2B
  | .slti rt rs imm => iWord 0x0A rs rt imm
  | .sltiu rt rs imm => iWord 0x0B rs rt imm
  | .and rd rs rt => rWord 0x00 rs rt rd 0 0x24
  | .or rd rs rt => rWord 0x00 rs rt rd 0 0x25
  | .xor rd rs rt => rWord 0x00 rs rt rd 0 0x26
  | .nor rd rs rt => rWord 0x00 rs rt rd 0 0x27
  | .andi rt rs imm => iWord 0x0C rs rt imm
  | .ori rt rs imm => iWord 0x0D rs rt imm
  | .xori rt rs imm => iWord 0x0E rs rt imm
  | .lui rt imm => iWord 0x0F 0 rt imm
  | .sll rd rt shamt => rWord 0x00 0 rt rd shamt 0x00
  | .srl rd rt shamt => rWord 0x00 0 rt rd shamt 0x02
  | .sra rd rt shamt => rWord 0x00 0 rt rd shamt 0x03
  | .sllv rd rt rs => rWord 0x00 rs rt rd 0 0x04
  | .srlv rd rt rs => rWord 0x00 rs rt rd 0 0x06
  | .srav rd rt rs => rWord 0x00 rs rt rd 0 0x07
  | .mult rs rt => rWord 0x00 rs rt 0 0 0x18
  | .multu rs rt => rWord 0x00 rs rt 0 0 0x19
  | .div rs rt => rWord 0x00 rs rt 0 0 0x1A
  | .divu rs rt => rWord 0x00 rs rt 0 0 0x1B
  | .mfhi rd => rWord 0x00 0 0 rd 0 0x10
  | .mflo rd => rWord 0x00 0 0 rd 0 0x12
  | .mthi rs => rWord 0x00 rs 0 0 0 0x11
  | .mtlo rs => rWord 0x00 rs 0 0 0 0x13
  | .beq rs rt imm => iWord 0x04 rs rt imm
  | .bne rs rt imm => iWord 0x05 rs rt imm
  | .blez rs imm => iWord 0x06 rs 0 imm
  | .bgtz rs imm => iWord 0x07 rs 0 imm
  | .bltz rs imm => iWord 0x01 rs 0 imm
  | .bgez rs imm => iWord 0x01 rs 1 imm
  | .bltzal rs imm => iWord 0x01 rs 16 imm
  | .bgezal rs imm => iWord 0x01 rs 17 imm
  | .j index => jWord 0x02 index
  | .jal index => jWord 0x03 index
  | .jr rs => rWord 0x00 rs 0 0 0 0x08
  | .jalr rd rs => rWord 0x00 rs 0 rd 0 0x09
  | .lb rt imm rs => iWord 0x20 rs rt imm
  | .lbu rt imm rs => iWord 0x24 rs rt imm
  | .lh rt imm rs => iWord 0x21 rs rt imm
  | .lhu rt imm rs => iWord 0x25 rs rt imm
  | .lw rt imm rs => iWord 0x23 rs rt imm
  | .sb rt imm rs => iWord 0x28 rs rt imm
  | .sh rt imm rs => iWord 0x29 rs rt imm
  | .sw rt imm rs => iWord 0x2B rs rt imm
  | .syscall code => codeWord code 0x0C
  | .brk code => codeWord code 0x0D
  | .mfc0 rt rd => rWord 0x10 0x00 rt rd 0 0
  | .mtc0 rt rd => rWord 0x10 0x04 rt rd 0 0
  | .eret => rWord 0x10 0x10 0 0 0 0x18

/-! The opcode table. -/

/-- A row of spec/opcode_table.json: a word is the row's instruction when it agrees with `bits` on `mask`. -/
structure OpcodeRow where
  mnemonic : String
  bits : Word
  mask : Word
deriving DecidableEq, Repr

/-- The rows of spec 40. -/
def arithmeticRows : List OpcodeRow := [
    ⟨"ADD", 0x00000020, 0xFC00003F⟩,
    ⟨"ADDU", 0x00000021, 0xFC00003F⟩,
    ⟨"SUB", 0x00000022, 0xFC00003F⟩,
    ⟨"SUBU", 0x00000023, 0xFC00003F⟩,
    ⟨"ADDI", 0x20000000, 0xFC000000⟩,
    ⟨"ADDIU", 0x24000000, 0xFC000000⟩,
    ⟨"SLT", 0x0000002A, 0xFC00003F⟩,
    ⟨"SLTU", 0x0000002B, 0xFC00003F⟩,
    ⟨"SLTI", 0x28000000, 0xFC000000⟩,
    ⟨"SLTIU", 0x2C000000, 0xFC000000⟩]

/-- The rows of spec 41. -/
def logicalRows : List OpcodeRow := [
    ⟨"AND", 0x00000024, 0xFC00003F⟩,
    ⟨"OR", 0x00000025, 0xFC00003F⟩,
    ⟨"XOR", 0x00000026, 0xFC00003F⟩,
    ⟨"NOR", 0x00000027, 0xFC00003F⟩,
    ⟨"ANDI", 0x30000000, 0xFC000000⟩,
    ⟨"ORI", 0x34000000, 0xFC000000⟩,
    ⟨"XORI", 0x38000000, 0xFC000000⟩,
    ⟨"LUI", 0x3C000000, 0xFC000000⟩]

/-- The rows of spec 42. -/
def shiftRows : List OpcodeRow := [
    ⟨"SLL", 0x00000000, 0xFC00003F⟩,
    ⟨"SRL", 0x00000002, 0xFC00003F⟩,
    ⟨"SRA", 0x00000003, 0xFC00003F⟩,
    ⟨"SLLV", 0x00000004, 0xFC00003F⟩,
    ⟨"SRLV", 0x00000006, 0xFC00003F⟩,
    ⟨"SRAV", 0x00000007, 0xFC00003F⟩]

/-- The rows of spec 43. -/
def mulDivRows : List OpcodeRow := [
    ⟨"MULT", 0x00000018, 0xFC00003F⟩,
    ⟨"MULTU", 0x00000019, 0xFC00003F⟩,
    ⟨"DIV", 0x0000001A, 0xFC00003F⟩,
    ⟨"DIVU", 0x0000001B, 0xFC00003F⟩,
    ⟨"MFHI", 0x00000010, 0xFC00003F⟩,
    ⟨"MFLO", 0x00000012, 0xFC00003F⟩,
    ⟨"MTHI", 0x00000011, 0xFC00003F⟩,
    ⟨"MTLO", 0x00000013, 0xFC00003F⟩]

/-- The rows of spec 44. -/
def branchRows : List OpcodeRow := [
    ⟨"BEQ", 0x10000000, 0xFC000000⟩,
    ⟨"BNE", 0x14000000, 0xFC000000⟩,
    ⟨"BLEZ", 0x18000000, 0xFC000000⟩,
    ⟨"BGTZ", 0x1C000000, 0xFC000000⟩,
    ⟨"BLTZ", 0x04000000, 0xFC1F0000⟩,
    ⟨"BGEZ", 0x04010000, 0xFC1F0000⟩,
    ⟨"BLTZAL", 0x04100000, 0xFC1F0000⟩,
    ⟨"BGEZAL", 0x04110000, 0xFC1F0000⟩,
    ⟨"J", 0x08000000, 0xFC000000⟩,
    ⟨"JAL", 0x0C000000, 0xFC000000⟩,
    ⟨"JR", 0x00000008, 0xFC00003F⟩,
    ⟨"JALR", 0x00000009, 0xFC00003F⟩]

/-- The rows of spec 45. -/
def loadStoreRows : List OpcodeRow := [
    ⟨"LB", 0x80000000, 0xFC000000⟩,
    ⟨"LBU", 0x90000000, 0xFC000000⟩,
    ⟨"LH", 0x84000000, 0xFC000000⟩,
    ⟨"LHU", 0x94000000, 0xFC000000⟩,
    ⟨"LW", 0x8C000000, 0xFC000000⟩,
    ⟨"SB", 0xA0000000, 0xFC000000⟩,
    ⟨"SH", 0xA4000000, 0xFC000000⟩,
    ⟨"SW", 0xAC000000, 0xFC000000⟩]

/-- The rows of spec 46. -/
def systemRows : List OpcodeRow := [
    ⟨"SYSCALL", 0x0000000C, 0xFC00003F⟩,
    ⟨"BREAK", 0x0000000D, 0xFC00003F⟩,
    ⟨"MFC0", 0x40000000, 0xFFE00000⟩,
    ⟨"MTC0", 0x40800000, 0xFFE00000⟩,
    ⟨"ERET", 0x42000018, 0xFE00003F⟩]

/-- All 57 rows (R124). -/
def opcodeTable : List OpcodeRow :=
  arithmeticRows ++ logicalRows ++ shiftRows ++ mulDivRows ++ branchRows ++ loadStoreRows ++ systemRows

/-- The word is an instruction of the row. -/
def OpcodeRow.admits (row : OpcodeRow) (w : Word) : Bool := w &&& row.mask == row.bits

/-- The table row of an instruction. -/
def rowOf : Instr → OpcodeRow
  | .add _ _ _ => ⟨"ADD", 0x00000020, 0xFC00003F⟩
  | .addu _ _ _ => ⟨"ADDU", 0x00000021, 0xFC00003F⟩
  | .sub _ _ _ => ⟨"SUB", 0x00000022, 0xFC00003F⟩
  | .subu _ _ _ => ⟨"SUBU", 0x00000023, 0xFC00003F⟩
  | .addi _ _ _ => ⟨"ADDI", 0x20000000, 0xFC000000⟩
  | .addiu _ _ _ => ⟨"ADDIU", 0x24000000, 0xFC000000⟩
  | .slt _ _ _ => ⟨"SLT", 0x0000002A, 0xFC00003F⟩
  | .sltu _ _ _ => ⟨"SLTU", 0x0000002B, 0xFC00003F⟩
  | .slti _ _ _ => ⟨"SLTI", 0x28000000, 0xFC000000⟩
  | .sltiu _ _ _ => ⟨"SLTIU", 0x2C000000, 0xFC000000⟩
  | .and _ _ _ => ⟨"AND", 0x00000024, 0xFC00003F⟩
  | .or _ _ _ => ⟨"OR", 0x00000025, 0xFC00003F⟩
  | .xor _ _ _ => ⟨"XOR", 0x00000026, 0xFC00003F⟩
  | .nor _ _ _ => ⟨"NOR", 0x00000027, 0xFC00003F⟩
  | .andi _ _ _ => ⟨"ANDI", 0x30000000, 0xFC000000⟩
  | .ori _ _ _ => ⟨"ORI", 0x34000000, 0xFC000000⟩
  | .xori _ _ _ => ⟨"XORI", 0x38000000, 0xFC000000⟩
  | .lui _ _ => ⟨"LUI", 0x3C000000, 0xFC000000⟩
  | .sll _ _ _ => ⟨"SLL", 0x00000000, 0xFC00003F⟩
  | .srl _ _ _ => ⟨"SRL", 0x00000002, 0xFC00003F⟩
  | .sra _ _ _ => ⟨"SRA", 0x00000003, 0xFC00003F⟩
  | .sllv _ _ _ => ⟨"SLLV", 0x00000004, 0xFC00003F⟩
  | .srlv _ _ _ => ⟨"SRLV", 0x00000006, 0xFC00003F⟩
  | .srav _ _ _ => ⟨"SRAV", 0x00000007, 0xFC00003F⟩
  | .mult _ _ => ⟨"MULT", 0x00000018, 0xFC00003F⟩
  | .multu _ _ => ⟨"MULTU", 0x00000019, 0xFC00003F⟩
  | .div _ _ => ⟨"DIV", 0x0000001A, 0xFC00003F⟩
  | .divu _ _ => ⟨"DIVU", 0x0000001B, 0xFC00003F⟩
  | .mfhi _ => ⟨"MFHI", 0x00000010, 0xFC00003F⟩
  | .mflo _ => ⟨"MFLO", 0x00000012, 0xFC00003F⟩
  | .mthi _ => ⟨"MTHI", 0x00000011, 0xFC00003F⟩
  | .mtlo _ => ⟨"MTLO", 0x00000013, 0xFC00003F⟩
  | .beq _ _ _ => ⟨"BEQ", 0x10000000, 0xFC000000⟩
  | .bne _ _ _ => ⟨"BNE", 0x14000000, 0xFC000000⟩
  | .blez _ _ => ⟨"BLEZ", 0x18000000, 0xFC000000⟩
  | .bgtz _ _ => ⟨"BGTZ", 0x1C000000, 0xFC000000⟩
  | .bltz _ _ => ⟨"BLTZ", 0x04000000, 0xFC1F0000⟩
  | .bgez _ _ => ⟨"BGEZ", 0x04010000, 0xFC1F0000⟩
  | .bltzal _ _ => ⟨"BLTZAL", 0x04100000, 0xFC1F0000⟩
  | .bgezal _ _ => ⟨"BGEZAL", 0x04110000, 0xFC1F0000⟩
  | .j _ => ⟨"J", 0x08000000, 0xFC000000⟩
  | .jal _ => ⟨"JAL", 0x0C000000, 0xFC000000⟩
  | .jr _ => ⟨"JR", 0x00000008, 0xFC00003F⟩
  | .jalr _ _ => ⟨"JALR", 0x00000009, 0xFC00003F⟩
  | .lb _ _ _ => ⟨"LB", 0x80000000, 0xFC000000⟩
  | .lbu _ _ _ => ⟨"LBU", 0x90000000, 0xFC000000⟩
  | .lh _ _ _ => ⟨"LH", 0x84000000, 0xFC000000⟩
  | .lhu _ _ _ => ⟨"LHU", 0x94000000, 0xFC000000⟩
  | .lw _ _ _ => ⟨"LW", 0x8C000000, 0xFC000000⟩
  | .sb _ _ _ => ⟨"SB", 0xA0000000, 0xFC000000⟩
  | .sh _ _ _ => ⟨"SH", 0xA4000000, 0xFC000000⟩
  | .sw _ _ _ => ⟨"SW", 0xAC000000, 0xFC000000⟩
  | .syscall _ => ⟨"SYSCALL", 0x0000000C, 0xFC00003F⟩
  | .brk _ => ⟨"BREAK", 0x0000000D, 0xFC00003F⟩
  | .mfc0 _ _ => ⟨"MFC0", 0x40000000, 0xFFE00000⟩
  | .mtc0 _ _ => ⟨"MTC0", 0x40800000, 0xFFE00000⟩
  | .eret => ⟨"ERET", 0x42000018, 0xFE00003F⟩

/-- The bits of an instruction's word that its rule reads: the row's mask and its operand fields (R107). -/
def usedBits : Instr → Word
  | .add _ _ _ => 0xFFFFF83F
  | .addu _ _ _ => 0xFFFFF83F
  | .sub _ _ _ => 0xFFFFF83F
  | .subu _ _ _ => 0xFFFFF83F
  | .addi _ _ _ => 0xFFFFFFFF
  | .addiu _ _ _ => 0xFFFFFFFF
  | .slt _ _ _ => 0xFFFFF83F
  | .sltu _ _ _ => 0xFFFFF83F
  | .slti _ _ _ => 0xFFFFFFFF
  | .sltiu _ _ _ => 0xFFFFFFFF
  | .and _ _ _ => 0xFFFFF83F
  | .or _ _ _ => 0xFFFFF83F
  | .xor _ _ _ => 0xFFFFF83F
  | .nor _ _ _ => 0xFFFFF83F
  | .andi _ _ _ => 0xFFFFFFFF
  | .ori _ _ _ => 0xFFFFFFFF
  | .xori _ _ _ => 0xFFFFFFFF
  | .lui _ _ => 0xFC1FFFFF
  | .sll _ _ _ => 0xFC1FFFFF
  | .srl _ _ _ => 0xFC1FFFFF
  | .sra _ _ _ => 0xFC1FFFFF
  | .sllv _ _ _ => 0xFFFFF83F
  | .srlv _ _ _ => 0xFFFFF83F
  | .srav _ _ _ => 0xFFFFF83F
  | .mult _ _ => 0xFFFF003F
  | .multu _ _ => 0xFFFF003F
  | .div _ _ => 0xFFFF003F
  | .divu _ _ => 0xFFFF003F
  | .mfhi _ => 0xFC00F83F
  | .mflo _ => 0xFC00F83F
  | .mthi _ => 0xFFE0003F
  | .mtlo _ => 0xFFE0003F
  | .beq _ _ _ => 0xFFFFFFFF
  | .bne _ _ _ => 0xFFFFFFFF
  | .blez _ _ => 0xFFE0FFFF
  | .bgtz _ _ => 0xFFE0FFFF
  | .bltz _ _ => 0xFFFFFFFF
  | .bgez _ _ => 0xFFFFFFFF
  | .bltzal _ _ => 0xFFFFFFFF
  | .bgezal _ _ => 0xFFFFFFFF
  | .j _ => 0xFFFFFFFF
  | .jal _ => 0xFFFFFFFF
  | .jr _ => 0xFFE0003F
  | .jalr _ _ => 0xFFE0F83F
  | .lb _ _ _ => 0xFFFFFFFF
  | .lbu _ _ _ => 0xFFFFFFFF
  | .lh _ _ _ => 0xFFFFFFFF
  | .lhu _ _ _ => 0xFFFFFFFF
  | .lw _ _ _ => 0xFFFFFFFF
  | .sb _ _ _ => 0xFFFFFFFF
  | .sh _ _ _ => 0xFFFFFFFF
  | .sw _ _ _ => 0xFFFFFFFF
  | .syscall _ => 0xFFFFFFFF
  | .brk _ => 0xFFFFFFFF
  | .mfc0 _ _ => 0xFFFFF800
  | .mtc0 _ _ => 0xFFFFF800
  | .eret => 0xFE00003F

/-! Bytes. -/

/-- A word from its four bytes in the order of their addresses: big-endian (R64, R65). -/
def wordOfBytes (b0 b1 b2 b3 : Byte) : Word := b0 ++ b1 ++ b2 ++ b3

/-- The bytes of a word in the order of their addresses (R64). -/
def bytesOfWord (w : Word) : List Byte :=
  [w.extractLsb' 24 8, w.extractLsb' 16 8, w.extractLsb' 8 8, w.extractLsb' 0 8]

/-- Decode the first instruction of a list of bytes and return the rest. A list of fewer than four bytes holds no
instruction; four bytes always decode, to an operation or to the reserved instruction (R100, R105). -/
def decodeBytes : List Byte → Option (Descriptor × List Byte)
  | b0 :: b1 :: b2 :: b3 :: rest => some (decode (wordOfBytes b0 b1 b2 b3), rest)
  | _ => none

/-- The instruction the decoder reads from the table's numbering of a word: bit 0 is the least significant bit of
the one 32-bit word, bits at and above `nbits` are 0 (log 30). -/
def decodeTableWord (nbits w : Nat) : Option Instr :=
  match decodeBytes (bytesOfWord (BitVec.ofNat 32 (w % 2 ^ nbits))) with
  | some (.operation i, _) => some i
  | _ => none

end Sys2Proof
end

