-- ==== Sys2Proof/Machine/State.lean ====
section
/-! DEFINITION. The state of the machine as plain data (spec 10; INVENTORY.md, State).

Everything outside the block that a step depends on (R372) is data in the state too: the interrupt lines, the console
bytes, the host's answers, its breakpoints and pause request, and what the outside does at each coming step boundary. -/

namespace Sys2Proof.Machine

/-- The seven exception kinds of R301. The address errors carry the faulting address. -/
inductive ExcKind where
  | int
  | adel (addr : Word)
  | ades (addr : Word)
  | sys
  | bp
  | ri
  | ov
deriving DecidableEq, Repr

/-- An ExceptionEvent: its kind and the address of the step's instruction (R16, R36, R301). -/
structure Event where
  kind : ExcKind
  pc : Word
deriving DecidableEq, Repr

/-- `run_state` (R36). `trapped` exists only inside a step (spec 90 C12). -/
inductive RunState where
  | running
  | halted
  | trapped
deriving DecidableEq, Repr

/-- `stop_reason`: why the machine halted (R10, R36). -/
inductive StopReason where
  | programExit
  | fatal (e : Event)
  | noHandler (e : Event)
  | syscallFault
  | inputTimeout
deriving DecidableEq, Repr

/-- The stops reported to the host that are not errors and leave the machine running (R10, R331, R334). -/
inductive Report where
  | breakpointHit (addr : Word)
  | paused
deriving DecidableEq, Repr

/-- What a held step waits for (R300, R325, R329; log 6). -/
inductive Hold where
  | consoleInput
  | serviceAnswer
deriving DecidableEq, Repr

/-- How a service the host recognises ends (R325). The fourth answer, Unrecognized, is for a number outside
`SYSCALL_TABLE` and no answer to a recognised service (log 9). -/
inductive Verdict where
  | resume
  | exit
  | fault
deriving DecidableEq, Repr

/-- The host's answer to a recognised service: what it wrote and consumed, and how the service ended (R325). -/
structure ServiceReply where
  /-- the value written to `RET_REG`, if any -/
  result : Option Word
  /-- bytes written, in this order; only those in RAM regions land -/
  ramWrites : List (Word × Byte)
  /-- bytes emitted on the console -/
  emitted : List Byte
  /-- how many waiting input bytes were consumed -/
  consumed : Nat
  verdict : Verdict
deriving DecidableEq, Repr

/-- What the outside world can do between steps or to a held step (R7, R325, R328, R329, R331; log 5). -/
inductive OutsideEvent where
  /-- the lines `hw_irq[5:0]` take these levels -/
  | lines (level : BitVec 6)
  /-- the console front end supplies an input byte -/
  | input (b : Byte)
  /-- the timeout of a blocked console read expires -/
  | timeout
  /-- the host answers on the syscall service port -/
  | reply (r : ServiceReply)
  /-- the debug port's commands -/
  | setBreakpoint (addr : Word)
  | clearBreakpoint (addr : Word)
  | pause
deriving DecidableEq, Repr

/-- Status, CP0 register 12: the bits that exist (R30). -/
structure Status where
  ie : Bool
  exl : Bool
  im : BitVec 8
deriving DecidableEq, Repr

/-- Cause, CP0 register 13: the bits that exist (R31). -/
structure Cause where
  excCode : BitVec 5
  ip : BitVec 8
deriving DecidableEq, Repr

/-- Memory: the bytes that differ from what an unlisted address reads as, addresses strictly rising (R40, R84). -/
abbrev Memory := List Host.Cell

/-- The whole state. INVENTORY.md lists each field with its rule and its reset value. -/
structure State where
  /-- `x[0]` to `x[31]` (R20, R21) -/
  regs : Vector Word 32
  /-- the PC (R24) -/
  pc : Word
  /-- HI (R27) -/
  hi : Word
  /-- LO (R27) -/
  lo : Word
  /-- CP0 Status (R30) -/
  status : Status
  /-- CP0 Cause (R31) -/
  cause : Cause
  /-- CP0 EPC (R32) -/
  epc : Word
  /-- CP0 BadVAddr (R33) -/
  badVAddr : Word
  /-- DelaySlotState: the pending target, if any (R35) -/
  delay : Option Word
  /-- `run_state` (R36) -/
  runState : RunState
  /-- `last_event` (R36) -/
  lastEvent : Option Event
  /-- `stop_reason` (R36) -/
  stopReason : Option StopReason
  /-- RAM and ROM bytes (R40) -/
  mem : Memory
  /-- what the step in progress is held for, if it is held (R300, R329) -/
  hold : Option Hold
  /-- the present levels of `hw_irq[5:0]` (R7) -/
  hwIrq : BitVec 6
  /-- console input bytes waiting, oldest first (R328); one stream for every console-input region (log 34) -/
  consoleIn : List Byte
  /-- console bytes emitted, oldest first (R328); one stream for every console-output region (log 34) -/
  consoleOut : List Byte
  /-- service answers given and not yet taken, oldest first (R323) -/
  answers : List ServiceReply
  /-- the host's breakpoint set, no repeats (R37) -/
  breakpoints : List Word
  /-- the address at which the next step is exempt from the breakpoint check (R331) -/
  exempt : Option Word
  /-- the host has asked for a pause (R331) -/
  pauseRequest : Bool
  /-- the non-error stop last reported (R10, R331) -/
  report : Option Report
  /-- what the outside does at each coming step boundary, the next one first (R372) -/
  agenda : List (List OutsideEvent)
  /-- the parameters of R11; no step changes them -/
  platform : Platform
  /-- the model's own counter of free values used (log 11) -/
  freeCount : Nat
deriving DecidableEq, Repr

/-- Why a step can stop without a next state. -/
inductive Fault where
  /-- Raised by `step` alone, when `run_state` is Halted: "In `Halted` the block takes no step" (R36, R375). Safe. -/
  | halted
deriving DecidableEq, Repr

/-- What the model gives no meaning to. -/
inductive Refusal where
  /-- Raised by an arm of `exec` whose instruction has no meaning yet. No arm does. Safe. -/
  | notModelled (mnemonic : String)
  /-- Raised by `step` alone, when the state was installed with `run_state` Trapped, which exists only inside a
  step: spec 93 U19 says to refuse such a snapshot (log 13). Safe. -/
  | trappedSnapshot
deriving DecidableEq, Repr

/-- The outcome of an instruction or a step. -/
abbrev Result := Host.Outcome State Fault Refusal

/-- The machine right after the image load of an empty image with entry `Config.resetEntry` on the test platform
(R41, R360; log 1, log 2, log 3, log 4). -/
def State.reset : State where
  regs := (Vector.replicate 32 Config.initGpr).set 0 0
  pc := Config.resetEntry
  hi := Config.initHi
  lo := Config.initLo
  status := ⟨false, false, 0⟩
  cause := ⟨0, 0⟩
  epc := 0
  badVAddr := 0
  delay := none
  runState := .running
  lastEvent := none
  stopReason := none
  mem := []
  hold := none
  hwIrq := 0
  consoleIn := []
  consoleOut := []
  answers := []
  breakpoints := []
  exempt := none
  pauseRequest := false
  report := none
  agenda := []
  platform := Config.testPlatform
  freeCount := 0

end Sys2Proof.Machine
end

