-- ==== Sys2Proof/Machine/Memory.lean ====
section
/-! DEFINITION. Memory: bytes in canonical form, and the big-endian accesses of one, two and four bytes built from
them in one place (spec 20 R62 to R65). The region and alignment checks are the caller's (Ops.lean). -/

namespace Sys2Proof.Machine

/-- What an address with no entry reads as (R84: every RAM and ROM byte the image does not name is 0; log 4). -/
def Memory.unlisted : Byte := 0

/-- The canonical form: addresses strictly rising and inside the space, no entry equal to an unlisted byte. -/
abbrev Memory.wf (m : Memory) : Prop :=
  m.Pairwise (fun c d => c.1 < d.1) ∧ ∀ c ∈ m, c.1 < 2 ^ 32 ∧ c.2 ≠ Memory.unlisted

/-- The byte at address `a`. -/
def Memory.readByte : Memory → Nat → Byte
  | [], _ => Memory.unlisted
  | (k, b) :: rest, a => if k = a then b else Memory.readByte rest a

/-- Write the byte at address `a`, keeping the canonical form. -/
def Memory.writeByte : Memory → Nat → Byte → Memory
  | [], a, v => if v = Memory.unlisted then [] else [(a, v)]
  | (k, b) :: rest, a, v =>
    if a < k then (if v = Memory.unlisted then (k, b) :: rest else (a, v) :: (k, b) :: rest)
    else if a = k then (if v = Memory.unlisted then rest else (a, v) :: rest)
    else (k, b) :: Memory.writeByte rest a v

/-- Write bytes at consecutive addresses from `a`, in order. -/
def Memory.writeBytes : Memory → Nat → List Byte → Memory
  | m, _, [] => m
  | m, a, b :: bs => Memory.writeBytes (m.writeByte a b) (a + 1) bs

/-- Access widths: 1, 2 or 4 bytes (R62, R71). -/
inductive Width where
  | byte
  | half
  | word
deriving DecidableEq, Repr

/-- The width in bytes. -/
def Width.bytes : Width → Nat
  | .byte => 1
  | .half => 2
  | .word => 4

/-- The bytes at `a .. a+n-1` assembled big-endian, in the low `8n` bits of a word, zeros above (R62, R64). -/
def Memory.read (m : Memory) (a : Nat) : Width → Word
  | .byte => (m.readByte a).setWidth 32
  | .half => (m.readByte a ++ m.readByte (a + 1)).setWidth 32
  | .word => wordOfBytes (m.readByte a) (m.readByte (a + 1)) (m.readByte (a + 2)) (m.readByte (a + 3))

/-- The low `8n` bits of `v` as bytes in the order of their addresses (R63, R64). -/
def Width.split (v : Word) : Width → List Byte
  | .byte => [v.extractLsb' 0 8]
  | .half => [v.extractLsb' 8 8, v.extractLsb' 0 8]
  | .word => bytesOfWord v

/-- Store the low `8n` bits of `v` at `a .. a+n-1` and change no other byte (R63). -/
def Memory.write (m : Memory) (a : Nat) (w : Width) (v : Word) : Memory :=
  m.writeBytes a (w.split v)

end Sys2Proof.Machine
end

