-- ==== Sys2Proof/Machine/Operands.lean ====
section
/-! DEFINITION. Operand forms: immediates, addresses, targets, shift amounts and the extension of narrow loads
(spec 30 R108 to R113, spec 42 R180, spec 44 R224, spec 45 R250). -/

namespace Sys2Proof.Machine

/-- `sext_16(imm)` (R13, R108). -/
def sext16 (imm : BitVec 16) : Word := imm.signExtend 32

/-- `zext_16(imm)` (R13, R109). -/
def zext16 (imm : BitVec 16) : Word := imm.setWidth 32

/-- `imm : 0^16` of LUI (R110). -/
def upper16 (imm : BitVec 16) : Word := imm ++ 0#16

/-- The target of a conditional branch at `pc`: `pc + 4 + (sext_16(imm) << 2)` (R111, R224). -/
def branchTarget (pc : Word) (imm : BitVec 16) : Word := pc + 4 + (sext16 imm <<< 2)

/-- The target of J and JAL at `pc`: `(pc+4)[31:28] : instr_index : 0b00` (R112, R224). -/
def jumpTarget (pc : Word) (index : BitVec 26) : Word := (pc + 4).extractLsb' 28 4 ++ index ++ 0#2

/-- The link value of a branch or jump at `pc` (R224). -/
def linkValue (pc : Word) : Word := pc + 8

/-- The shift amount `x[rs][4:0]` of SLLV, SRLV, SRAV (R113, R180). -/
def low5 (v : Word) : Nat := (v.extractLsb' 0 5).toNat

/-- The effective address `x[rs] + sext_16(imm)`, modulo 2^32 (R250). -/
def effAddr (base : Word) (imm : BitVec 16) : Word := base + sext16 imm

/-- How a load extends what it read (R251 to R255). -/
inductive Extension where
  | signed
  | unsigned
deriving DecidableEq, Repr

/-- The value a load of width `w` writes, from the low `8n` bits of what was read (R250, R328). -/
def extend : Width → Extension → Word → Word
  | .byte, .signed, v => (v.extractLsb' 0 8).signExtend 32
  | .byte, .unsigned, v => (v.extractLsb' 0 8).setWidth 32
  | .half, .signed, v => (v.extractLsb' 0 16).signExtend 32
  | .half, .unsigned, v => (v.extractLsb' 0 16).setWidth 32
  | .word, _, v => v

end Sys2Proof.Machine
end

