-- ==== Sys2Proof/Machine/Flags.lean ====
section
/-! DEFINITION. The conditions instructions compute. The machine has no flags (spec 10 R28): overflow raises an
exception, comparisons write a register or decide a branch (spec 40 R140, R148 to R151; spec 44 R224). -/

namespace Sys2Proof.Machine

/-- Signed overflow of `a + b`: equal signs, and the sum's sign differs (R140). -/
def addOverflows (a b : Word) : Bool := a.msb == b.msb && (a + b).msb != a.msb

/-- Signed overflow of `a - b`: different signs, and the difference's sign differs from `a`'s (R140). -/
def subOverflows (a b : Word) : Bool := a.msb != b.msb && (a - b).msb != a.msb

/-- A comparison's result as a word, 1 or 0 (R148). -/
def boolWord (c : Bool) : Word := if c then 1 else 0

/-- `signed(a) < signed(b)` (R148, R150). -/
def lessSigned (a b : Word) : Bool := decide (a.toInt < b.toInt)

/-- `unsigned(a) < unsigned(b)` (R149, R151). -/
def lessUnsigned (a b : Word) : Bool := decide (a.toNat < b.toNat)

/-- `signed(a) < 0`, bit 31 (R224, R229). -/
def isNegative (a : Word) : Bool := a.msb

/-- `signed(a) ≤ 0`: bit 31 or the zero word (R227). -/
def isNonPositive (a : Word) : Bool := a.msb || a == 0

end Sys2Proof.Machine
end

