-- ==== Sys2Proof/Machine/Ops.lean ====
section
/-! DEFINITION. The named operations over the state: general registers, the sequencer, the memory port with its
console devices, coprocessor 0, taking an exception and returning from one, the syscall service port. -/

namespace Sys2Proof.Machine

/-! General registers (R14, R20, R21). -/

/-- `x[r]`: register 0 reads as zero (R21). -/
def State.reg (s : State) (r : Reg) : Word := if r = 0 then 0 else s.regs[r]

/-- `x[r] <- v`: a write to register 0 is accepted and discarded (R21). -/
def State.setReg (s : State) (r : Reg) (v : Word) : State :=
  { s with regs := if r = 0 then s.regs else s.regs.set r v }

/-- `HI <- hi; LO <- lo` (R27). -/
def State.setHiLo (s : State) (hi lo : Word) : State := { s with hi := hi, lo := lo }

/-! The sequencer (R220, R221). -/

/-- The PC after an instruction that commits: the pending target in a delay slot, else `pc + 4` (R221). -/
def State.nextPc (s : State) : Word :=
  match s.delay with
  | some t => t
  | none => s.pc + 4

/-- Commit with no new pending target: `delay` is consumed and the PC advances (R221). -/
def State.advance (s : State) : State := { s with pc := s.nextPc, delay := none }

/-- Commit a taken branch or a jump: the PC advances and `target` becomes pending (R220, R221). -/
def State.jumpTo (s : State) (target : Word) : State := { s with pc := s.nextPc, delay := some target }

/-- Commit a conditional branch at `pc` (R220). -/
def State.branch (s : State) (taken : Bool) (imm : BitVec 16) : State :=
  if taken then s.jumpTo (branchTarget s.pc imm) else s.advance

/-- The step is held, uncommitted (R300, R325, R329; log 6). -/
def State.holdFor (s : State) (h : Hold) : State := { s with hold := some h }

/-! The memory port (spec 20) and the console devices (R328, R329). -/

/-- `addr mod n = 0` (R66). -/
def aligned (w : Width) (a : Word) : Bool := decide (a.toNat % w.bytes = 0)

/-- The load check of R250: misaligned, or the region check of R62 fails. -/
def State.loadFaults (s : State) (w : Width) (a : Word) : Bool :=
  !(aligned w a && s.platform.readable a.toNat)

/-- The store check of R250: misaligned, or the region check of R63 fails. -/
def State.storeFaults (s : State) (w : Width) (a : Word) : Bool :=
  !(aligned w a && s.platform.writable a.toNat)

/-- The read action of the console-input device at word `index` of its region (R328, R329). `none`: the data register
is empty and the device has not answered. A word with no register of R328 reads as a free value (log 12). All
console-input regions of a map are one device with one stream (log 34). -/
def State.consoleRead (s : State) (index : Nat) : Option (Word × State) :=
  match index with
  | 0 => some (boolWord (!s.consoleIn.isEmpty), s)
  | 1 =>
    match s.consoleIn with
    | b :: rest => some (b.setWidth 32, { s with consoleIn := rest })
    | [] =>
      match s.platform.inputMode with
      | .marker => some (0xFFFFFFFF, s)
      | .block => none
  | _ => some (Config.deviceWord s.freeCount, { s with freeCount := s.freeCount + 1 })

/-- `MemRead` after a passed check: a storage region gives its bytes, a console-input region acts (R62, R73). -/
def State.memRead (s : State) (w : Width) (a : Word) : Option (Word × State) :=
  match s.platform.regionAt a.toNat with
  | some r =>
    match r.kind with
    | .consoleIn => s.consoleRead (r.wordIndex a.toNat)
    | _ => some (s.mem.read a.toNat w, s)
  | none => some (s.mem.read a.toNat w, s)

/-- `MemWrite` after a passed check: RAM keeps the bytes, a console-output region emits the low byte, at any of its
words and on the one output stream (R63, R328; log 12, log 34). -/
def State.memWrite (s : State) (w : Width) (a v : Word) : State :=
  match s.platform.kindAt a.toNat with
  | some .ram => { s with mem := s.mem.write a.toNat w v }
  | some .consoleOut => { s with consoleOut := s.consoleOut ++ [v.extractLsb' 0 8] }
  | _ => s

/-! Coprocessor 0 (R29 to R33, R273 to R275). -/

/-- Status as the word MFC0 reads (R30). -/
def Status.toWord (st : Status) : Word :=
  0#16 ++ st.im ++ 0#6 ++ BitVec.ofBool st.exl ++ BitVec.ofBool st.ie

/-- Status after MTC0 of `v`: IE, EXL and IM are written, the other bits ignored (R30, R275). -/
def Status.ofWord (v : Word) : Status where
  ie := v.getLsbD 0
  exl := v.getLsbD 1
  im := v.extractLsb' 8 8

/-- Cause as the word MFC0 reads (R31). -/
def Cause.toWord (c : Cause) : Word :=
  0#16 ++ c.ip ++ 0#1 ++ c.excCode ++ 0#2

/-- Cause after MTC0 of `v`: only IP[1:0] are written (R31, R275). -/
def Cause.write (c : Cause) (v : Word) : Cause :=
  { c with ip := c.ip.extractLsb' 2 6 ++ v.extractLsb' 8 2 }

/-- Cause after the lines are sampled: `IP[7:2] <- hw_irq[5:0]` (R320). -/
def Cause.sample (c : Cause) (lines : BitVec 6) : Cause :=
  { c with ip := lines ++ c.ip.extractLsb' 0 2 }

/-- The implemented coprocessor-0 registers (R29). -/
inductive Cp0Reg where
  | badVAddr
  | status
  | cause
  | epc
deriving DecidableEq, Repr

/-- The register a number names, if it is implemented (R29, R273). -/
def cp0Reg (n : Reg) : Option Cp0Reg :=
  if n = 8 then some .badVAddr
  else if n = 12 then some .status
  else if n = 13 then some .cause
  else if n = 14 then some .epc
  else none

/-- The value MFC0 reads (R274). -/
def State.readCp0 (s : State) : Cp0Reg → Word
  | .badVAddr => s.badVAddr
  | .status => s.status.toWord
  | .cause => s.cause.toWord
  | .epc => s.epc

/-- The effect of MTC0 (R275): BadVAddr is read-only, and ignores the write (R33). -/
def State.writeCp0 (s : State) (r : Cp0Reg) (v : Word) : State :=
  match r with
  | .badVAddr => s
  | .status => { s with status := Status.ofWord v }
  | .cause => { s with cause := s.cause.write v }
  | .epc => { s with epc := v }

/-! Taking an exception (R301, R311 to R315) and returning from one (R276, R317). -/

/-- The code written to `Cause.ExcCode` (R301). -/
def ExcKind.code : ExcKind → BitVec 5
  | .int => 0
  | .adel _ => 4
  | .ades _ => 5
  | .sys => 8
  | .bp => 9
  | .ri => 10
  | .ov => 12

/-- The address an address error records in BadVAddr (R302, R303). -/
def ExcKind.badAddr : ExcKind → Option Word
  | .adel a => some a
  | .ades a => some a
  | _ => none

/-- The machine halts with this stop reason (R36, R375). -/
def State.halt (s : State) (r : StopReason) : State := { s with runState := .halted, stopReason := some r }

/-- Trap entry, `enter(ev)` of R312: reason and PC recorded, EXL set, the pending target lost, control to
`EXC_VECTOR`; with no handler installed the machine halts instead, `pc` unchanged (R313). -/
def State.enter (s : State) (ev : Event) : State :=
  let t := { s with
    cause := { s.cause with excCode := ev.kind.code }
    epc := s.pc
    badVAddr := ev.kind.badAddr.getD s.badVAddr
    status := { s.status with exl := true }
    delay := none }
  if s.platform.handlerInstalled then { t with pc := s.platform.excVector, runState := .running }
  else t.halt (.noHandler ev)

/-- Host writes to memory during a service: only bytes of RAM regions land (R325; log 8). -/
def hostWrites (p : Platform) : Memory → List (Word × Byte) → Memory
  | m, [] => m
  | m, (a, b) :: rest =>
    hostWrites p (if p.kindAt a.toNat == some .ram then m.writeByte a.toNat b else m) rest

/-- What the host did during a service: r2, RAM bytes and the console streams, nothing else (R325). -/
def State.applyReply (s : State) (r : ServiceReply) : State :=
  let t := match r.result with
    | some v => s.setReg Config.retReg v
    | none => s
  { t with
    mem := hostWrites s.platform s.mem r.ramWrites
    consoleOut := s.consoleOut ++ r.emitted
    consoleIn := s.consoleIn.drop r.consumed }

/-- The request the port presents: the service number and the arguments (R8, R324). -/
def State.serviceRequest (s : State) : Word × List Word := (s.reg Config.svcReg, Config.argRegs.map s.reg)

/-- What `SYSCALL_TABLE` says of the requested service number (R11, R324). -/
def State.service (s : State) : Option ServiceKind :=
  (s.platform.syscallTable.find? fun e => e.1 == s.serviceRequest.1).map (·.2)

/-- The host's answer: what it did during the service, and how the service ends (R323, R325). With Exit and Fault `pc`
and `delay` are unchanged (R334). -/
def State.serve (s : State) (r : ServiceReply) : State :=
  let u := s.applyReply r
  match r.verdict with
  | .resume => { u.advance with runState := .running }
  | .exit => u.halt .programExit
  | .fault => u.halt .syscallFault

/-- `hosted_syscall()` of R323. Reason and PC are recorded, EXL is not set, nothing is redirected. A number the table
does not hold is Unrecognized (R325), and the host then does nothing else (log 8); a recognised service ends as the
host's answer says (R325). Where no answer has come, the exit service ends with Exit and no other effect (log 9), and
another service holds the step (R325, log 7). -/
def State.hostedSyscall (s : State) : State :=
  let t := { s with cause := { s.cause with excCode := ExcKind.sys.code }, epc := s.pc }
  match s.service, s.answers with
  | none, _ => { t with lastEvent := some ⟨.ri, s.pc⟩ }.enter ⟨.ri, s.pc⟩
  | some _, r :: rest => { t with answers := rest }.serve r
  | some .exit, [] => t.halt .programExit
  | some .external, [] => t.holdFor .serviceAnswer

/-- The exception controller, `controller(ev)` of R311: a synchronous exception with EXL = 1 is fatal and changes
nothing else. -/
def State.controller (s : State) (ev : Event) : State :=
  match ev.kind with
  | .int => s.enter ev
  | .sys =>
    if s.status.exl then s.halt (.fatal ev)
    else if s.platform.syscallHosted then s.hostedSyscall
    else s.enter ev
  | _ => if s.status.exl then s.halt (.fatal ev) else s.enter ev

/-- Taking an exception of kind `k` at the instruction of this step: point 4 of R300. -/
def State.raise (s : State) (k : ExcKind) : State :=
  { s with lastEvent := some ⟨k, s.pc⟩ }.controller ⟨k, s.pc⟩

/-- Return from exception: `pc <- EPC; Status.EXL <- 0; delay <- None` (R276, R317). -/
def State.exceptionReturn (s : State) : State :=
  { s with pc := s.epc, status := { s.status with exl := false }, delay := none }

/-! Commit or trap (R300, R309). -/

/-- The next state of an instruction with one exception condition: if it holds the exception is raised and none of
the instruction's own effects happens, else they commit (R309). -/
def State.raiseIf (s : State) (c : Bool) (k : ExcKind) (commit : State) : State :=
  if c then s.raise k else commit

/-- Commit one register result (R14, R221). -/
def State.result (s : State) (rd : Reg) (v : Word) : State := (s.setReg rd v).advance

/-- The loads: check, read or device action, extend, write (R250). -/
def State.load (s : State) (w : Width) (e : Extension) (rt : Reg) (a : Word) : State :=
  s.raiseIf (s.loadFaults w a) (.adel a)
    (match s.memRead w a with
     | some (v, t) => t.result rt (extend w e v)
     | none => s.holdFor .consoleInput)

/-- The stores: check, write or device action (R250). -/
def State.store (s : State) (w : Width) (rt : Reg) (a : Word) : State :=
  s.raiseIf (s.storeFaults w a) (.ades a) (s.memWrite w a (s.reg rt)).advance

end Sys2Proof.Machine
end

