-- ==== Sys2Proof/Machine/Detect.lean ====
section
/-! DEFINITION. `detect(d)` of R309: the exception an instruction raises in a state, decided before anything is
committed and without changing anything. At most one condition can hold for any instruction (R310). -/

namespace Sys2Proof.Machine

/-- The load's exception, if any (R302 (a)). -/
def State.detectLoad (s : State) (w : Width) (rs : Reg) (imm : BitVec 16) : Option ExcKind :=
  let a := effAddr (s.reg rs) imm
  if s.loadFaults w a then some (.adel a) else none

/-- The store's exception, if any (R303). -/
def State.detectStore (s : State) (w : Width) (rs : Reg) (imm : BitVec 16) : Option ExcKind :=
  let a := effAddr (s.reg rs) imm
  if s.storeFaults w a then some (.ades a) else none

/-- Overflow, if it happens (R304). -/
def detectOverflow (c : Bool) : Option ExcKind := if c then some .ov else none

/-- An unimplemented coprocessor-0 register (R307). -/
def detectCp0 (rd : Reg) : Option ExcKind := if (cp0Reg rd).isNone then some .ri else none

/-- The synchronous exception `i` raises in `s`, if any (R309). -/
def detect (i : Instr) (s : State) : Option ExcKind :=
  match i with
  | .add _ rs rt => detectOverflow (addOverflows (s.reg rs) (s.reg rt))
  | .addu _ _ _ => none
  | .sub _ rs rt => detectOverflow (subOverflows (s.reg rs) (s.reg rt))
  | .subu _ _ _ => none
  | .addi _ rs imm => detectOverflow (addOverflows (s.reg rs) (sext16 imm))
  | .addiu _ _ _ => none
  | .slt _ _ _ => none
  | .sltu _ _ _ => none
  | .slti _ _ _ => none
  | .sltiu _ _ _ => none
  | .and _ _ _ => none
  | .or _ _ _ => none
  | .xor _ _ _ => none
  | .nor _ _ _ => none
  | .andi _ _ _ => none
  | .ori _ _ _ => none
  | .xori _ _ _ => none
  | .lui _ _ => none
  | .sll _ _ _ => none
  | .srl _ _ _ => none
  | .sra _ _ _ => none
  | .sllv _ _ _ => none
  | .srlv _ _ _ => none
  | .srav _ _ _ => none
  | .mult _ _ => none
  | .multu _ _ => none
  | .div _ _ => none
  | .divu _ _ => none
  | .mfhi _ => none
  | .mflo _ => none
  | .mthi _ => none
  | .mtlo _ => none
  | .beq _ _ _ => none
  | .bne _ _ _ => none
  | .blez _ _ => none
  | .bgtz _ _ => none
  | .bltz _ _ => none
  | .bgez _ _ => none
  | .bltzal _ _ => none
  | .bgezal _ _ => none
  | .j _ => none
  | .jal _ => none
  | .jr _ => none
  | .jalr _ _ => none
  | .lb _ imm rs => s.detectLoad .byte rs imm
  | .lbu _ imm rs => s.detectLoad .byte rs imm
  | .lh _ imm rs => s.detectLoad .half rs imm
  | .lhu _ imm rs => s.detectLoad .half rs imm
  | .lw _ imm rs => s.detectLoad .word rs imm
  | .sb _ imm rs => s.detectStore .byte rs imm
  | .sh _ imm rs => s.detectStore .half rs imm
  | .sw _ imm rs => s.detectStore .word rs imm
  | .syscall _ => some .sys
  | .brk _ => some .bp
  | .mfc0 _ rd => detectCp0 rd
  | .mtc0 _ rd => detectCp0 rd
  | .eret => none

/-- The rank of an exception kind, highest first (R310). -/
def ExcKind.rank : ExcKind → Nat
  | .adel _ => 0
  | .ades _ => 0
  | .ov => 1
  | .sys => 2
  | .bp => 2
  | .ri => 2
  | .int => 3

/-- The one event taken when several conditions apply to a step: the highest-ranked, the first of equals (R310). -/
def arbitrate : List ExcKind → Option ExcKind
  | [] => none
  | k :: rest =>
    match arbitrate rest with
    | none => some k
    | some k' => if k.rank ≤ k'.rank then some k else some k'

end Sys2Proof.Machine
end

