-- ==== Sys2Proof/Machine/Boundary.lean ====
section
/-! DEFINITION. What surrounds an instruction in a step: the outside world at the step boundary, the breakpoint and
pause check, the sampling of the lines, fetch, and interrupt delivery (spec 60 R300, R319 to R322, R331; spec 20
R70). Step.lean puts the pieces together. -/

namespace Sys2Proof.Machine

/-! The outside world (R372; log 5). -/

/-- The effect of one event from outside. Console bytes and answers queue up; a timeout abandons a console read that
is still blocked, where the platform has one (R329; log 16); the debug commands edit the host's own state (R331). -/
def State.outside (s : State) : OutsideEvent → State
  | .lines level => { s with hwIrq := level }
  | .input b => { s with consoleIn := s.consoleIn ++ [b] }
  | .timeout =>
    if s.hold = some .consoleInput ∧ s.consoleIn = [] ∧ s.platform.inputTimeout = true then
      { s with hold := none }.halt .inputTimeout
    else s
  | .reply r => { s with answers := s.answers ++ [r] }
  | .setBreakpoint a => { s with breakpoints := if a ∈ s.breakpoints then s.breakpoints else s.breakpoints ++ [a] }
  | .clearBreakpoint a => { s with breakpoints := s.breakpoints.filter (· != a) }
  | .pause => { s with pauseRequest := true }

/-- The state after what the agenda has for this boundary. -/
def State.atBoundary (s : State) : State :=
  match s.agenda with
  | [] => s
  | events :: rest => events.foldl State.outside { s with agenda := rest }

/-! Point 0 of R300: the breakpoint and pause check (R331). -/

/-- The stop, if any, before this step: a requested pause, or a breakpoint at `pc` from which the step is not
exempt (R300, R331; log 15). -/
def State.stopCheck (s : State) : Option Report :=
  if s.pauseRequest then some .paused
  else if s.pc ∈ s.breakpoints ∧ s.exempt ≠ some s.pc then some (.breakpointHit s.pc)
  else none

/-- The stop is reported and nothing of the machine changes; after a breakpoint stop the next step is exempt at that
address (R331; log 14). -/
def State.stopped (s : State) : Report → State
  | .paused => { s with report := some .paused, pauseRequest := false }
  | .breakpointHit a => { s with report := some (.breakpointHit a), exempt := some a }

/-- The step begins: it has passed point 0, and the lines are sampled into Cause (point 1 of R300, R320). -/
def State.begin (s : State) : State :=
  { s with report := none, exempt := none, cause := s.cause.sample s.hwIrq }

/-! Fetch and interrupts. -/

/-- The instruction word at `pc`, if it can be fetched (R70). No side effect. -/
def State.fetch (s : State) : Option Word :=
  if s.platform.fetchable s.pc then some (s.mem.read s.pc.toNat .word) else none

/-- `int_deliverable()` (R321). -/
def State.intDeliverable (s : State) : Bool :=
  s.status.ie && !s.status.exl && (s.cause.ip &&& s.status.im) != 0 && s.delay.isNone

/-- The interrupt as a candidate event of the step (R308). -/
def State.interrupt (s : State) : Option ExcKind := if s.intDeliverable then some .int else none

end Sys2Proof.Machine
end

