-- ==== Sys2Proof/Machine/Arithmetic.lean ====
section
/-! DEFINITION. The arithmetic and comparison instructions (spec 40). -/

namespace Sys2Proof.Machine

/-- ADD: add, trapping on signed overflow (R141). -/
def execAdd (rd rs rt : Reg) (s : State) : Result :=
  .next (s.raiseIf (addOverflows (s.reg rs) (s.reg rt)) .ov (s.result rd (s.reg rs + s.reg rt)))

/-- ADDU: add modulo 2^32 (R142). -/
def execAddu (rd rs rt : Reg) (s : State) : Result :=
  .next (s.result rd (s.reg rs + s.reg rt))

/-- SUB: subtract, trapping on signed overflow (R143). -/
def execSub (rd rs rt : Reg) (s : State) : Result :=
  .next (s.raiseIf (subOverflows (s.reg rs) (s.reg rt)) .ov (s.result rd (s.reg rs - s.reg rt)))

/-- SUBU: subtract modulo 2^32 (R144). -/
def execSubu (rd rs rt : Reg) (s : State) : Result :=
  .next (s.result rd (s.reg rs - s.reg rt))

/-- ADDI: add the sign-extended immediate, trapping on signed overflow (R145). -/
def execAddi (rt rs : Reg) (imm : BitVec 16) (s : State) : Result :=
  .next (s.raiseIf (addOverflows (s.reg rs) (sext16 imm)) .ov (s.result rt (s.reg rs + sext16 imm)))

/-- ADDIU: add the sign-extended immediate modulo 2^32 (R146). -/
def execAddiu (rt rs : Reg) (imm : BitVec 16) (s : State) : Result :=
  .next (s.result rt (s.reg rs + sext16 imm))

/-- SLT: set on signed less than (R148). -/
def execSlt (rd rs rt : Reg) (s : State) : Result :=
  .next (s.result rd (boolWord (lessSigned (s.reg rs) (s.reg rt))))

/-- SLTU: set on unsigned less than (R149). -/
def execSltu (rd rs rt : Reg) (s : State) : Result :=
  .next (s.result rd (boolWord (lessUnsigned (s.reg rs) (s.reg rt))))

/-- SLTI: set on signed less than the sign-extended immediate (R150). -/
def execSlti (rt rs : Reg) (imm : BitVec 16) (s : State) : Result :=
  .next (s.result rt (boolWord (lessSigned (s.reg rs) (sext16 imm))))

/-- SLTIU: set on unsigned less than the sign-extended immediate (R151). -/
def execSltiu (rt rs : Reg) (imm : BitVec 16) (s : State) : Result :=
  .next (s.result rt (boolWord (lessUnsigned (s.reg rs) (sext16 imm))))

end Sys2Proof.Machine
end

