-- ==== Sys2Proof/Machine/Branch.lean ====
section
/-! DEFINITION. The branches and jumps (spec 44). Condition, target and link value come from the state before the delay
slot runs (R222); a bad target faults when it is fetched (R237). -/

namespace Sys2Proof.Machine

/-- BEQ: branch on equal (R225). -/
def execBeq (rs rt : Reg) (imm : BitVec 16) (s : State) : Result :=
  .next (s.branch (s.reg rs == s.reg rt) imm)

/-- BNE: branch on not equal (R226). -/
def execBne (rs rt : Reg) (imm : BitVec 16) (s : State) : Result :=
  .next (s.branch (s.reg rs != s.reg rt) imm)

/-- BLEZ: branch on less than or equal to zero (R227). -/
def execBlez (rs : Reg) (imm : BitVec 16) (s : State) : Result :=
  .next (s.branch (isNonPositive (s.reg rs)) imm)

/-- BGTZ: branch on greater than zero (R228). -/
def execBgtz (rs : Reg) (imm : BitVec 16) (s : State) : Result :=
  .next (s.branch (!isNonPositive (s.reg rs)) imm)

/-- BLTZ: branch on less than zero (R229). -/
def execBltz (rs : Reg) (imm : BitVec 16) (s : State) : Result :=
  .next (s.branch (isNegative (s.reg rs)) imm)

/-- BGEZ: branch on greater than or equal to zero (R230). -/
def execBgez (rs : Reg) (imm : BitVec 16) (s : State) : Result :=
  .next (s.branch (!isNegative (s.reg rs)) imm)

/-- BLTZAL: link, taken or not, and branch on less than zero as the register was before the link (R231). -/
def execBltzal (rs : Reg) (imm : BitVec 16) (s : State) : Result :=
  .next ((s.setReg Config.linkReg (linkValue s.pc)).branch (isNegative (s.reg rs)) imm)

/-- BGEZAL: link, taken or not, and branch on greater than or equal to zero as the register was before the link (R232). -/
def execBgezal (rs : Reg) (imm : BitVec 16) (s : State) : Result :=
  .next ((s.setReg Config.linkReg (linkValue s.pc)).branch (!isNegative (s.reg rs)) imm)

/-- J: jump (R233). -/
def execJ (index : BitVec 26) (s : State) : Result :=
  .next (s.jumpTo (jumpTarget s.pc index))

/-- JAL: jump and link (R234). -/
def execJal (index : BitVec 26) (s : State) : Result :=
  .next ((s.setReg Config.linkReg (linkValue s.pc)).jumpTo (jumpTarget s.pc index))

/-- JR: jump to a register (R235). -/
def execJr (rs : Reg) (s : State) : Result :=
  .next (s.jumpTo (s.reg rs))

/-- JALR: jump to a register and link; the target is read before the link is written (R236). -/
def execJalr (rd rs : Reg) (s : State) : Result :=
  .next ((s.setReg rd (linkValue s.pc)).jumpTo (s.reg rs))

end Sys2Proof.Machine
end

