-- ==== Sys2Proof/Machine/LoadStore.lean ====
section
/-! DEFINITION. The loads and stores (spec 45). -/

namespace Sys2Proof.Machine

/-- LB: load byte, sign-extended (R251). -/
def execLb (rt : Reg) (imm : BitVec 16) (rs : Reg) (s : State) : Result :=
  .next (s.load .byte .signed rt (effAddr (s.reg rs) imm))

/-- LBU: load byte, zero-extended (R252). -/
def execLbu (rt : Reg) (imm : BitVec 16) (rs : Reg) (s : State) : Result :=
  .next (s.load .byte .unsigned rt (effAddr (s.reg rs) imm))

/-- LH: load halfword, sign-extended (R253). -/
def execLh (rt : Reg) (imm : BitVec 16) (rs : Reg) (s : State) : Result :=
  .next (s.load .half .signed rt (effAddr (s.reg rs) imm))

/-- LHU: load halfword, zero-extended (R254). -/
def execLhu (rt : Reg) (imm : BitVec 16) (rs : Reg) (s : State) : Result :=
  .next (s.load .half .unsigned rt (effAddr (s.reg rs) imm))

/-- LW: load word (R255). -/
def execLw (rt : Reg) (imm : BitVec 16) (rs : Reg) (s : State) : Result :=
  .next (s.load .word .unsigned rt (effAddr (s.reg rs) imm))

/-- SB: store byte (R256). -/
def execSb (rt : Reg) (imm : BitVec 16) (rs : Reg) (s : State) : Result :=
  .next (s.store .byte rt (effAddr (s.reg rs) imm))

/-- SH: store halfword (R257). -/
def execSh (rt : Reg) (imm : BitVec 16) (rs : Reg) (s : State) : Result :=
  .next (s.store .half rt (effAddr (s.reg rs) imm))

/-- SW: store word (R258). -/
def execSw (rt : Reg) (imm : BitVec 16) (rs : Reg) (s : State) : Result :=
  .next (s.store .word rt (effAddr (s.reg rs) imm))

end Sys2Proof.Machine
end

