-- ==== Sys2Proof/Machine/Logical.lean ====
section
/-! DEFINITION. The logical instructions (spec 41). -/

namespace Sys2Proof.Machine

/-- AND (R161). -/
def execAnd (rd rs rt : Reg) (s : State) : Result :=
  .next (s.result rd (s.reg rs &&& s.reg rt))

/-- OR (R162). -/
def execOr (rd rs rt : Reg) (s : State) : Result :=
  .next (s.result rd (s.reg rs ||| s.reg rt))

/-- XOR (R163). -/
def execXor (rd rs rt : Reg) (s : State) : Result :=
  .next (s.result rd (s.reg rs ^^^ s.reg rt))

/-- NOR (R164). -/
def execNor (rd rs rt : Reg) (s : State) : Result :=
  .next (s.result rd (~~~(s.reg rs ||| s.reg rt)))

/-- ANDI: the immediate is zero-extended (R165). -/
def execAndi (rt rs : Reg) (imm : BitVec 16) (s : State) : Result :=
  .next (s.result rt (s.reg rs &&& zext16 imm))

/-- ORI: the immediate is zero-extended (R166). -/
def execOri (rt rs : Reg) (imm : BitVec 16) (s : State) : Result :=
  .next (s.result rt (s.reg rs ||| zext16 imm))

/-- XORI: the immediate is zero-extended (R167). -/
def execXori (rt rs : Reg) (imm : BitVec 16) (s : State) : Result :=
  .next (s.result rt (s.reg rs ^^^ zext16 imm))

/-- LUI: the immediate in the upper halfword, zeros below (R168). -/
def execLui (rt : Reg) (imm : BitVec 16) (s : State) : Result :=
  .next (s.result rt (upper16 imm))

end Sys2Proof.Machine
end

