-- ==== Sys2Proof/Machine/MulDiv.lean ====
section
/-! DEFINITION. The multiply, divide and HI/LO move instructions (spec 43). None of them traps (R200). -/

namespace Sys2Proof.Machine

/-- The exact product split across HI and LO: `HI <- p[63:32]; LO <- p[31:0]` (R200). -/
def State.setProduct (s : State) (p : Int) : State :=
  s.setHiLo ((BitVec.ofInt 64 p).extractLsb' 32 32) ((BitVec.ofInt 64 p).extractLsb' 0 32)

/-- HI and LO after a division by zero: no trap, and both unchanged (R203, D21), or, under the policy spec 93 U1
recommends to a cautious model, two free values (log 10). -/
def State.divideByZero (s : State) : State :=
  match s.platform.div0Policy with
  | .unchanged => s
  | .arbitrary =>
    { s.setHiLo (Config.divByZeroHi s.freeCount) (Config.divByZeroLo s.freeCount) with freeCount := s.freeCount + 1 }

/-- Signed division: quotient rounded toward zero to LO, remainder with the dividend's sign to HI; the quotient
-2^31 / -1, which is no 32-bit value, gives LO = 0x8000_0000 and HI = 0 (R200, R203). -/
def State.divideSigned (s : State) (a b : Word) : State :=
  if b = 0 then s.divideByZero
  else if a = 0x80000000 ∧ b = 0xFFFFFFFF then s.setHiLo 0 0x80000000
  else s.setHiLo (BitVec.ofInt 32 (a.toInt.tmod b.toInt)) (BitVec.ofInt 32 (a.toInt.tdiv b.toInt))

/-- Unsigned division: the floor quotient to LO, the remainder to HI (R204). -/
def State.divideUnsigned (s : State) (a b : Word) : State :=
  if b = 0 then s.divideByZero
  else s.setHiLo (BitVec.ofNat 32 (a.toNat % b.toNat)) (BitVec.ofNat 32 (a.toNat / b.toNat))

/-- MULT: the signed product (R201). -/
def execMult (rs rt : Reg) (s : State) : Result :=
  .next (s.setProduct ((s.reg rs).toInt * (s.reg rt).toInt)).advance

/-- MULTU: the unsigned product (R202). -/
def execMultu (rs rt : Reg) (s : State) : Result :=
  .next (s.setProduct (((s.reg rs).toNat * (s.reg rt).toNat : Nat) : Int)).advance

/-- DIV: signed divide (R203). -/
def execDiv (rs rt : Reg) (s : State) : Result :=
  .next (s.divideSigned (s.reg rs) (s.reg rt)).advance

/-- DIVU: unsigned divide (R204). -/
def execDivu (rs rt : Reg) (s : State) : Result :=
  .next (s.divideUnsigned (s.reg rs) (s.reg rt)).advance

/-- MFHI: move from HI (R205). -/
def execMfhi (rd : Reg) (s : State) : Result :=
  .next (s.result rd s.hi)

/-- MFLO: move from LO (R206). -/
def execMflo (rd : Reg) (s : State) : Result :=
  .next (s.result rd s.lo)

/-- MTHI: move to HI; LO keeps its value (R207). -/
def execMthi (rs : Reg) (s : State) : Result :=
  .next (s.setHiLo (s.reg rs) s.lo).advance

/-- MTLO: move to LO; HI keeps its value (R208). -/
def execMtlo (rs : Reg) (s : State) : Result :=
  .next (s.setHiLo s.hi (s.reg rs)).advance

end Sys2Proof.Machine
end

