-- ==== Sys2Proof/Machine/Shift.lean ====
section
/-! DEFINITION. The shift instructions (spec 42). -/

namespace Sys2Proof.Machine

/-- SLL: shift left logical by a constant (R181). -/
def execSll (rd rt : Reg) (shamt : BitVec 5) (s : State) : Result :=
  .next (s.result rd (s.reg rt <<< shamt.toNat))

/-- SRL: shift right logical by a constant (R182). -/
def execSrl (rd rt : Reg) (shamt : BitVec 5) (s : State) : Result :=
  .next (s.result rd (s.reg rt >>> shamt.toNat))

/-- SRA: shift right arithmetic by a constant (R183). -/
def execSra (rd rt : Reg) (shamt : BitVec 5) (s : State) : Result :=
  .next (s.result rd ((s.reg rt).sshiftRight shamt.toNat))

/-- SLLV: shift left logical by the low 5 bits of a register (R184). -/
def execSllv (rd rt rs : Reg) (s : State) : Result :=
  .next (s.result rd (s.reg rt <<< low5 (s.reg rs)))

/-- SRLV: shift right logical by the low 5 bits of a register (R185). -/
def execSrlv (rd rt rs : Reg) (s : State) : Result :=
  .next (s.result rd (s.reg rt >>> low5 (s.reg rs)))

/-- SRAV: shift right arithmetic by the low 5 bits of a register (R186). -/
def execSrav (rd rt rs : Reg) (s : State) : Result :=
  .next (s.result rd ((s.reg rt).sshiftRight (low5 (s.reg rs))))

end Sys2Proof.Machine
end

