-- ==== Sys2Proof/Machine/System.lean ====
section
/-! DEFINITION. The system and coprocessor-0 instructions (spec 46). None is privileged (R326). -/

namespace Sys2Proof.Machine

/-- SYSCALL: raise Sys; the controller serves it or traps (R271, R311, R323). -/
def execSyscall (_code : BitVec 20) (s : State) : Result :=
  .next (s.raise .sys)

/-- BREAK: raise Bp (R272). -/
def execBrk (_code : BitVec 20) (s : State) : Result :=
  .next (s.raise .bp)

/-- MFC0: move from coprocessor 0, or Reserved Instruction for an unimplemented register (R273, R274). -/
def execMfc0 (rt rd : Reg) (s : State) : Result :=
  match cp0Reg rd with
  | some r => .next (s.result rt (s.readCp0 r))
  | none => .next (s.raise .ri)

/-- MTC0: move to coprocessor 0, or Reserved Instruction for an unimplemented register (R273, R275). -/
def execMtc0 (rt rd : Reg) (s : State) : Result :=
  match cp0Reg rd with
  | some r => .next (s.writeCp0 r (s.reg rt)).advance
  | none => .next (s.raise .ri)

/-- ERET: return from exception; no delay slot, and a pending target is discarded (R276). -/
def execEret (s : State) : Result :=
  .next s.exceptionReturn

end Sys2Proof.Machine
end

