-- ==== Sys2Proof/Machine/Step.lean ====
section
/-! DEFINITION. One step of the machine (spec 60 R300). -/

namespace Sys2Proof.Machine

/-- Points 2 to 6 of R300 from a state whose lines are sampled: fetch, decode, detect, then the event of highest rank
or the commit. `interruptible` is false when a held step resumes, past the interrupt check. -/
def State.runInstruction (s : State) (interruptible : Bool) : Result :=
  match s.fetch with
  | none => .next (s.raise (.adel s.pc))
  | some w =>
    match decode w with
    | .reservedInstruction => .next (s.raise .ri)
    | .operation i =>
      match arbitrate ((detect i s).toList ++ if interruptible then s.interrupt.toList else []) with
      | some .int => .next (s.raise .int)
      | _ => exec i s

/-- One step. The outside acts first (R372); a held step goes on where it was held (R300, R329; log 6); otherwise the
breakpoint and pause check may stop it (point 0), and then the instruction at `pc` runs. -/
def step (s : State) : Host.Outcome State Fault Refusal :=
  match s.runState with
  | .halted => .fault .halted
  | .trapped => .refused .trappedSnapshot
  | .running =>
    let b := s.atBoundary
    match b.runState with
    | .running =>
      match b.hold with
      | some _ => { b with hold := none }.runInstruction false
      | none =>
        match b.stopCheck with
        | some r => .next (b.stopped r)
        | none => b.begin.runInstruction true
    | _ => .next b

/-- The state with the table's instruction word stored where the next fetch reads it: big-endian at `pc`, as the image
loader stores a text word (R360 (2); log 2, log 30). -/
def State.withFetchWord (s : State) (nbits w : Nat) : State :=
  { s with mem := s.mem.writeBytes s.pc.toNat (bytesOfWord (BitVec.ofNat 32 (w % 2 ^ nbits))) }

end Sys2Proof.Machine
end

