-- ==== Sys2Proof/Machine/HostPort.lean ====
section
/-! DEFINITION. What the host does to the block between steps, other than the events of the agenda: image load, the
debug port's restore and run, and its queries (spec 70 R360, R361; spec 60 R331). -/

namespace Sys2Proof.Machine

/-- Store the text words in the sequence's order, each big-endian at its address (R360 (2)). -/
def Memory.loadText : Memory → List (Word × Word) → Memory
  | m, [] => m
  | m, (a, w) :: rest => Memory.loadText (m.write a.toNat .word w) rest

/-- Store the data bytes in order at consecutive addresses from `a`, modulo 2^32 (R360 (2), D45). -/
def Memory.loadData : Memory → Word → List Byte → Memory
  | m, _, [] => m
  | m, a, b :: rest => Memory.loadData (m.writeByte a.toNat b) (a + 1) rest

/-- The memory after an image load: all zero, then the text, then the data blob over it (R360 (1), (2)). -/
def Memory.ofImage (img : Image) : Memory :=
  (Memory.loadText [] img.text).loadData img.dataBase img.data

/-- Image load, the block's reset (R360). A malformed image is rejected and the previous state kept (R361). The
platform, the lines, the console, the breakpoints and the host's other state are not reset by the block. -/
def State.loadImage (s : State) (img : Image) : State :=
  if img.accepted s.platform then
    { s with
      regs := State.reset.regs
      pc := img.entry
      hi := Config.initHi
      lo := Config.initLo
      status := State.reset.status
      cause := State.reset.cause.sample s.hwIrq
      epc := 0
      badVAddr := 0
      delay := none
      runState := .running
      lastEvent := none
      stopReason := none
      mem := Memory.ofImage img
      hold := none }
  else s

/-- `restore(snapshot)`: the MachineState is replaced by the snapshot's, at a step boundary (R331, D50). A snapshot
with `run_state` Trapped is refused and nothing changes (spec 93 U19; log 23). -/
def State.restore (s snap : State) : State :=
  if snap.runState = .trapped then s
  else
    { s with
      regs := snap.regs
      pc := snap.pc
      hi := snap.hi
      lo := snap.lo
      status := snap.status
      cause := snap.cause
      epc := snap.epc
      badVAddr := snap.badVAddr
      delay := snap.delay
      runState := snap.runState
      lastEvent := snap.lastEvent
      stopReason := snap.stopReason
      mem := snap.mem
      hold := none }

/-- `run()`: steps until a reported stop or a halt, checked between every two steps (R331), at most `n` of them. -/
def State.runUntilStop : Nat → State → Result
  | 0, s => .next s
  | n + 1, s =>
    match step s with
    | .next t =>
      if t.runState = .running ∧ t.report = none then State.runUntilStop n t else .next t
    | .fault f => .fault f
    | .refused r => .refused r

/-- The debug port's memory-range query: `len` bytes from `a`, addresses modulo 2^32 (R9, R331, D45). It performs no
device action. Where an address lies in a device region or in none the rules give no byte, and the model answers `none`
(its choice, log 32). -/
def State.queryMemory (s : State) (a : Word) (len : Nat) : List (Option Byte) :=
  (List.range len).map fun i =>
    let k := (a + BitVec.ofNat 32 i).toNat
    if s.platform.isStorage k then some (s.mem.readByte k) else none

end Sys2Proof.Machine
end

