-- ==== Sys2Proof/Safety.lean ====
section
/-! DEFINITION. The terms claims are stated in: what one instruction leaves unchanged, the shapes of its results, and
the invariant of the machine. -/

namespace Sys2Proof

/-- The eight instructions of the multiply-divide family (R27). -/
def Instr.isMulDiv : Instr → Bool
  | .mult _ _ | .multu _ _ | .div _ _ | .divu _ _ | .mfhi _ | .mflo _ | .mthi _ | .mtlo _ => true
  | _ => false

end Sys2Proof

namespace Sys2Proof.Machine

/-! What is kept from `s` to `t`. -/

/-- Every general register reads as before. -/
def KeepsRegs (s t : State) : Prop := ∀ r, t.reg r = s.reg r

/-- At most register `rd` is written, and it reads as `v`, or as 0 if it is register 0 (R14, R21). -/
def WritesReg (s t : State) (rd : Reg) (v : Word) : Prop :=
  t.reg rd = (if rd = 0 then 0 else v) ∧ ∀ r, r ≠ rd → t.reg r = s.reg r

/-- HI and LO are unchanged. -/
def KeepsHiLo (s t : State) : Prop := t.hi = s.hi ∧ t.lo = s.lo

/-- Status, Cause, EPC and BadVAddr are unchanged. -/
def KeepsCp0 (s t : State) : Prop :=
  t.status = s.status ∧ t.cause = s.cause ∧ t.epc = s.epc ∧ t.badVAddr = s.badVAddr

/-- Every byte of memory reads as before. -/
def KeepsMemory (s t : State) : Prop := ∀ a, t.mem.readByte a = s.mem.readByte a

/-- The console streams are unchanged. -/
def KeepsConsole (s t : State) : Prop := t.consoleIn = s.consoleIn ∧ t.consoleOut = s.consoleOut

/-- The run state and the two latches beside it are unchanged (R36). -/
def KeepsRun (s t : State) : Prop :=
  t.runState = s.runState ∧ t.lastEvent = s.lastEvent ∧ t.stopReason = s.stopReason

/-- The parameters, the lines and the host's side of the ports are unchanged. -/
def KeepsOutside (s t : State) : Prop :=
  t.platform = s.platform ∧ t.hold = s.hold ∧ t.hwIrq = s.hwIrq ∧ t.answers = s.answers ∧
  t.breakpoints = s.breakpoints ∧ t.exempt = s.exempt ∧ t.pauseRequest = s.pauseRequest ∧
  t.report = s.report ∧ t.agenda = s.agenda ∧ t.freeCount = s.freeCount

/-- The host's side of the ports, the lines and the parameters are unchanged, but for the service answers. -/
def KeepsHost (s t : State) : Prop :=
  t.platform = s.platform ∧ t.hold = s.hold ∧ t.hwIrq = s.hwIrq ∧ t.breakpoints = s.breakpoints ∧
  t.exempt = s.exempt ∧ t.pauseRequest = s.pauseRequest ∧ t.report = s.report ∧ t.agenda = s.agenda

/-- The MachineState of R18 is unchanged: what the outside world, image load and restore apart, leaves alone between
two instructions (R372). -/
def KeepsMachineState (s t : State) : Prop :=
  t.pc = s.pc ∧ t.delay = s.delay ∧ KeepsRegs s t ∧ KeepsHiLo s t ∧ KeepsCp0 s t ∧ t.mem = s.mem ∧ KeepsRun s t

/-- The target an instruction leaves pending when it commits: every jump's, and a conditional branch's when its
condition holds of the state before the instruction; nothing else leaves one (R220, R224). -/
def pendingTarget (i : Instr) (s : State) : Option Word :=
  match i with
  | .beq rs rt imm => if s.reg rs = s.reg rt then some (branchTarget s.pc imm) else none
  | .bne rs rt imm => if s.reg rs ≠ s.reg rt then some (branchTarget s.pc imm) else none
  | .blez rs imm => if (s.reg rs).toInt ≤ 0 then some (branchTarget s.pc imm) else none
  | .bgtz rs imm => if 0 < (s.reg rs).toInt then some (branchTarget s.pc imm) else none
  | .bltz rs imm | .bltzal rs imm => if (s.reg rs).toInt < 0 then some (branchTarget s.pc imm) else none
  | .bgez rs imm | .bgezal rs imm => if 0 ≤ (s.reg rs).toInt then some (branchTarget s.pc imm) else none
  | .j index | .jal index => some (jumpTarget s.pc index)
  | .jr rs | .jalr _ rs => some (s.reg rs)
  | _ => none

/-- `LoadForm rt imm rs i w f`: `i` is the load of `rt` from `imm(rs)` of width `w`, and writes `f v` when the memory
port gives the word `v`: its low 8 or 16 bits, extended (R250 to R255, R328). -/
inductive LoadForm (rt : Reg) (imm : BitVec 16) (rs : Reg) : Instr → Width → (Word → Word) → Prop where
  | lb : LoadForm rt imm rs (.lb rt imm rs) .byte (fun v => (v.setWidth 8).signExtend 32)
  | lbu : LoadForm rt imm rs (.lbu rt imm rs) .byte (fun v => (v.setWidth 8).setWidth 32)
  | lh : LoadForm rt imm rs (.lh rt imm rs) .half (fun v => (v.setWidth 16).signExtend 32)
  | lhu : LoadForm rt imm rs (.lhu rt imm rs) .half (fun v => (v.setWidth 16).setWidth 32)
  | lw : LoadForm rt imm rs (.lw rt imm rs) .word (fun v => v)

/-- `StoreForm rt imm rs i w`: `i` is the store of `rt` to `imm(rs)` of width `w` (R256 to R258). -/
inductive StoreForm (rt : Reg) (imm : BitVec 16) (rs : Reg) : Instr → Width → Prop where
  | sb : StoreForm rt imm rs (.sb rt imm rs) .byte
  | sh : StoreForm rt imm rs (.sh rt imm rs) .half
  | sw : StoreForm rt imm rs (.sw rt imm rs) .word

/-! Shapes of results. -/

/-- The PC went to the pending target if this was a delay slot, else to `pc + 4` (R221); `pending` is the target now
pending, if any. -/
def Sequenced (s t : State) (pending : Option Word) : Prop :=
  t.pc = s.delay.getD (s.pc + 4) ∧ t.delay = pending

/-- The instruction wrote `v` to general register `rd` and nothing else, and the machine moved on. -/
def RegisterResult (s t : State) (rd : Reg) (v : Word) : Prop :=
  WritesReg s t rd v ∧ Sequenced s t none ∧ KeepsHiLo s t ∧ KeepsCp0 s t ∧ KeepsMemory s t ∧ KeepsConsole s t ∧
  KeepsRun s t ∧ KeepsOutside s t

/-- The instruction wrote HI and LO and nothing else, and the machine moved on. -/
def HiLoResult (s t : State) (hi lo : Word) : Prop :=
  t.hi = hi ∧ t.lo = lo ∧ Sequenced s t none ∧ KeepsRegs s t ∧ KeepsCp0 s t ∧ KeepsMemory s t ∧ KeepsConsole s t ∧
  KeepsRun s t ∧ KeepsOutside s t

/-- A branch or jump that links nothing: only the sequencer changes. -/
def JumpResult (s t : State) (pending : Option Word) : Prop :=
  Sequenced s t pending ∧ KeepsRegs s t ∧ KeepsHiLo s t ∧ KeepsCp0 s t ∧ KeepsMemory s t ∧ KeepsConsole s t ∧
  KeepsRun s t ∧ KeepsOutside s t

/-- A branch or jump that writes `pc + 8` to the link register `rd` (R224). -/
def LinkResult (s t : State) (rd : Reg) (pending : Option Word) : Prop :=
  WritesReg s t rd (s.pc + 8) ∧ Sequenced s t pending ∧ KeepsHiLo s t ∧ KeepsCp0 s t ∧ KeepsMemory s t ∧
  KeepsConsole s t ∧ KeepsRun s t ∧ KeepsOutside s t

/-- A store to memory: the bytes `bs` stand at consecutive addresses from `a`, every other byte reads as before, and
nothing else changes (R63). -/
def StoreResult (s t : State) (a : Nat) (bs : List Byte) : Prop :=
  (∀ j (h : j < bs.length), t.mem.readByte (a + j) = bs[j]) ∧
  (∀ k, (k < a ∨ a + bs.length ≤ k) → t.mem.readByte k = s.mem.readByte k) ∧
  Sequenced s t none ∧ KeepsRegs s t ∧ KeepsHiLo s t ∧ KeepsCp0 s t ∧ KeepsConsole s t ∧ KeepsRun s t ∧
  KeepsOutside s t

/-- Exceptions are enabled and a handler is installed (R311, R313). -/
def CanTrap (s : State) : Prop := s.status.exl = false ∧ s.platform.handlerInstalled = true

/-- What trap entry records (R312): reason, PC, the faulting address of an address error, EXL, the lost pending
target; and what it leaves alone. -/
def TrapRecorded (s t : State) (k : ExcKind) : Prop :=
  t.cause.excCode = k.code ∧ t.cause.ip = s.cause.ip ∧ t.epc = s.pc ∧
  (∀ a, k = .adel a ∨ k = .ades a → t.badVAddr = a) ∧
  ((∀ a, k ≠ .adel a ∧ k ≠ .ades a) → t.badVAddr = s.badVAddr) ∧
  t.status.exl = true ∧ t.status.ie = s.status.ie ∧ t.status.im = s.status.im ∧ t.delay = none ∧
  t.lastEvent = some ⟨k, s.pc⟩ ∧
  KeepsRegs s t ∧ KeepsHiLo s t ∧ KeepsMemory s t ∧ KeepsConsole s t ∧ KeepsOutside s t

/-- The exception of kind `k` was taken at the instruction at `s.pc`: control is at the handler (R312). -/
def TrapTaken (s t : State) (k : ExcKind) : Prop :=
  TrapRecorded s t k ∧ t.pc = s.platform.excVector ∧ t.runState = .running ∧ t.stopReason = s.stopReason

/-- Everything but the run state and the latches is unchanged. -/
def KeepsMachine (s t : State) : Prop :=
  t.pc = s.pc ∧ t.delay = s.delay ∧ KeepsRegs s t ∧ KeepsHiLo s t ∧ KeepsCp0 s t ∧ KeepsMemory s t ∧
  KeepsConsole s t ∧ KeepsOutside s t

/-- The fatal stop of R311: the machine halts, the event is reported, nothing else changes. -/
def FatalStop (s t : State) (k : ExcKind) : Prop :=
  t.runState = .halted ∧ t.stopReason = some (.fatal ⟨k, s.pc⟩) ∧ t.lastEvent = some ⟨k, s.pc⟩ ∧ KeepsMachine s t

/-- Trap entry with no handler installed: all is recorded, and the machine halts at the instruction (R313). -/
def NoHandlerStop (s t : State) (k : ExcKind) : Prop :=
  TrapRecorded s t k ∧ t.pc = s.pc ∧ t.runState = .halted ∧ t.stopReason = some (.noHandler ⟨k, s.pc⟩)

/-- What becomes of an exception that no service takes: fatal with EXL = 1, else taken, else a halt for want of a
handler (R311, R312, R313). -/
def ExceptionRaised (s t : State) (k : ExcKind) : Prop :=
  (s.status.exl = true → FatalStop s t k) ∧
  (s.status.exl = false → s.platform.handlerInstalled = true → TrapTaken s t k) ∧
  (s.status.exl = false → s.platform.handlerInstalled = false → NoHandlerStop s t k)

/-- The host's answer `r` to a hosted syscall has been taken from the queue, of which `rest` is left: code 8 and the
PC are recorded, r2 holds the answer's result if it gives one, each byte of RAM the answer's last write to it, and the
console streams what it emitted and consumed; nothing else differs but the PC, the pending target, the run state and
the stop reason (R323, R325; log 8). -/
def Served (s t : State) (r : ServiceReply) (rest : List ServiceReply) : Prop :=
  t.cause.excCode = 8 ∧ t.cause.ip = s.cause.ip ∧ t.epc = s.pc ∧ t.status = s.status ∧ t.badVAddr = s.badVAddr ∧
  t.lastEvent = some ⟨.sys, s.pc⟩ ∧ t.answers = rest ∧
  t.reg 2 = r.result.getD (s.reg 2) ∧ (∀ q : Reg, q ≠ 2 → t.reg q = s.reg q) ∧ KeepsHiLo s t ∧
  (∀ a, t.mem.readByte a = if s.platform.kindAt a = some .ram then
    ((r.ramWrites.reverse.find? (fun c => c.1.toNat == a)).map (·.2)).getD (s.mem.readByte a)
    else s.mem.readByte a) ∧
  t.consoleOut = s.consoleOut ++ r.emitted ∧ t.consoleIn = s.consoleIn.drop r.consumed ∧
  KeepsHost s t ∧ t.freeCount = s.freeCount

/-- How a service ends: Resume goes on after the SYSCALL, Exit and Fault halt at it (R323, R334). -/
def ServiceEnds (s t : State) : Verdict → Prop
  | .resume => Sequenced s t none ∧ t.runState = .running ∧ t.stopReason = s.stopReason
  | .exit => t.pc = s.pc ∧ t.delay = s.delay ∧ t.runState = .halted ∧ t.stopReason = some .programExit
  | .fault => t.pc = s.pc ∧ t.delay = s.delay ∧ t.runState = .halted ∧ t.stopReason = some .syscallFault

/-- A stop before a step: it is reported, and nothing of the machine, the devices or the ports changes (R331). -/
def StopReported (s t : State) (r : Report) : Prop :=
  t.report = some r ∧ KeepsMachineState s t ∧ KeepsConsole s t ∧ t.platform = s.platform ∧ t.hold = s.hold ∧
  t.hwIrq = s.hwIrq ∧ t.answers = s.answers ∧ t.breakpoints = s.breakpoints ∧ t.agenda = s.agenda ∧
  t.freeCount = s.freeCount

/-! Reading words and images, independently of the memory operations. -/

/-- The byte an accepted image gives address `a`: the data blob lies over the text, of the text words and of the data
bytes the last that covers the address counts, and everything else is 0 (R360). -/
def imageByte (img : Image) (a : Nat) : Byte :=
  match img.data.zipIdx.reverse.find? (fun c => (img.dataAddr c.2).toNat == a) with
  | some (b, _) => b
  | none =>
    match img.text.reverse.find? (fun c => decide (c.1.toNat ≤ a) && decide (a < c.1.toNat + 4)) with
    | some (b, w) => w.extractLsb' (8 * (3 - (a - b.toNat))) 8
    | none => 0

/-! The invariant of the machine at a step boundary. -/

/-- Memory is canonical and only RAM and ROM addresses hold bytes (R40); register 0's own slot is zero (R21); the map
is well formed (R61); the run state is not Trapped, a stop reason stands exactly when the machine is Halted, and only
a running machine has a step held (R36). -/
def Invariant (s : State) : Prop :=
  s.mem.wf ∧ (∀ c ∈ s.mem, s.platform.isStorage c.1 = true) ∧ s.regs[0] = 0 ∧ s.platform.wellFormed ∧
  s.runState ≠ .trapped ∧ (s.runState = .halted ↔ s.stopReason ≠ none) ∧ (s.hold ≠ none → s.runState = .running)

/-- The states the machine and its host reach from `s`: by steps, image loads, events from outside, and restores of
any snapshot that has the invariant on the same platform (D50). -/
inductive Reaches (s : State) : State → Prop where
  | refl : Reaches s s
  | step {t u : State} : Reaches s t → Machine.step t = .next u → Reaches s u
  | load {t : State} (img : Image) : Reaches s t → Reaches s (t.loadImage img)
  | outside {t : State} (e : OutsideEvent) : Reaches s t → Reaches s (t.outside e)
  | restore {t snap : State} : Reaches s t → Invariant snap → snap.platform = t.platform → Reaches s (t.restore snap)

end Sys2Proof.Machine
end

