-- ==== Sys2Proof/Certificates/Slice0/Obligations.lean ====
section
/-! DEFINITION. The statements about the model, each from the rules of spec/ its docstring names.

Results are stated in integers, bits and bytes, not in the model's own operations, wherever the rule allows it. The
vocabulary (`RegisterResult`, `TrapTaken`, ...) is Safety.lean's: each result names what it leaves unchanged. -/

open Sys2Proof Sys2Proof.Machine

/-! ## Encoding (spec 30) -/

/-- Words written out from the encodings of spec 30 and the vectors V0 of spec 95 decode to what they stand for. -/
def Obligations.HandWrittenWordsDecode : Prop :=
  decode (0b000000_00001_00010_00011_00000_100000 : Word) = .operation (.add 3 1 2) ∧
  decode (0b000000_00000_00001_00011_11111_000011 : Word) = .operation (.sra 3 1 31) ∧
  decode (0b000000_00010_00001_00011_00000_000100 : Word) = .operation (.sllv 3 1 2) ∧
  decode (0b001000_00001_00011_1111111111111111 : Word) = .operation (.addi 3 1 0xFFFF) ∧
  decode (0b001101_00001_00011_1000000000000000 : Word) = .operation (.ori 3 1 0x8000) ∧
  decode (0b000011_00000100000000000000001000 : Word) = .operation (.jal 0x0100008) ∧
  decode (0b000001_00001_10001_0000000000000011 : Word) = .operation (.bgezal 1 3) ∧
  decode (0b100011_00001_00010_1111111111111100 : Word) = .operation (.lw 2 0xFFFC 1) ∧
  decode (0b010000_00100_01000_01100_00000000000 : Word) = .operation (.mtc0 8 12) ∧
  decode (0b010000_1_0000000000000000000_011000 : Word) = .operation .eret ∧
  decode (0b000000_00010010001101000101_001101 : Word) = .operation (.brk 0x12345) ∧
  decode (0b111111_11111111111111111111111111 : Word) = .reservedInstruction ∧
  decode (0b010000_1_0000000000000000000_010000 : Word) = .reservedInstruction

/-- Decode and encode agree on every instruction, with every operand at every value its field admits. -/
def Obligations.DecodeEncodeAgree : Prop :=
  ∀ i : Instr, decode (encode i) = .operation i

/-- A word that decodes to an instruction matches that instruction's row of the opcode table, and encoding the
instruction gives the word back with its unused fields zero. -/
def Obligations.DecodedWordMatchesItsRow : Prop :=
  ∀ (w : Word) (i : Instr), decode w = .operation i →
    rowOf i ∈ opcodeTable ∧ (rowOf i).admits w = true ∧ encode i = w &&& usedBits i

/-- A word is the reserved instruction exactly when it matches no row of the opcode table (R105, R118). -/
def Obligations.ReservedWordsMatchNoRow : Prop :=
  ∀ w : Word, decode w = .reservedInstruction ↔ ∀ row ∈ opcodeTable, row.admits w = false

/-- No word matches two rows of the opcode table. -/
def Obligations.TableRowsDoNotOverlap : Prop :=
  ∀ (w : Word), ∀ row ∈ opcodeTable, ∀ row' ∈ opcodeTable,
    row.admits w = true → row'.admits w = true → row = row'

/-- Fields an instruction does not use are not checked and do not affect the result: a word is an instruction of a row
exactly when it agrees with the row's match under the row's mask, a word that agrees in the fields the instruction uses
is the same instruction, and the code of SYSCALL and BREAK changes nothing (R107). -/
def Obligations.UnusedFieldsAreIgnored : Prop :=
  (∀ (w : Word), ∀ row ∈ opcodeTable,
    row.admits w = true ↔ ∃ i, decode w = .operation i ∧ rowOf i = row) ∧
  (∀ (w w' : Word) (i : Instr), decode w = .operation i → w' &&& usedBits i = w &&& usedBits i →
    decode w' = .operation i) ∧
  (∀ (s : State) (code code' : BitVec 20), exec (.syscall code) s = exec (.syscall code') s ∧
    exec (.brk code) s = exec (.brk code') s)

/-- The address, target and immediate forms in integers: effective address and branch target modulo 2^32, the jump
target in the 256 MiB block of the delay slot, zero- and sign-extension (R108 to R112, R250). -/
def Obligations.AddressesAndTargetsAreExact : Prop :=
  ∀ (base pc : Word) (imm : BitVec 16) (index : BitVec 26),
    effAddr base imm = BitVec.ofInt 32 ((base.toNat : Int) + imm.toInt) ∧
    branchTarget pc imm = BitVec.ofInt 32 ((pc.toNat : Int) + 4 + 4 * imm.toInt) ∧
    (jumpTarget pc index).toNat = (pc + 4).toNat / 2 ^ 28 * 2 ^ 28 + index.toNat * 4 ∧
    (sext16 imm).toInt = imm.toInt ∧ (zext16 imm).toNat = imm.toNat ∧ (upper16 imm).toNat = imm.toNat * 65536

/-! ## Arithmetic and comparison (spec 40) -/

/-- ADD, SUB and ADDI: when some word denotes the exact integer result, it is written; when none does, Arithmetic
Overflow is taken and the destination is not modified (R140, R141, R143, R145). -/
def Obligations.AddSubAreExactOrTrap : Prop :=
  ∀ (s : State) (rd rs rt : Reg) (imm : BitVec 16),
    (∀ v : Word, v.toInt = (s.reg rs).toInt + (s.reg rt).toInt →
      ∃ t, exec (.add rd rs rt) s = .next t ∧ RegisterResult s t rd v) ∧
    (∀ v : Word, v.toInt = (s.reg rs).toInt - (s.reg rt).toInt →
      ∃ t, exec (.sub rd rs rt) s = .next t ∧ RegisterResult s t rd v) ∧
    (∀ v : Word, v.toInt = (s.reg rs).toInt + imm.toInt →
      ∃ t, exec (.addi rd rs imm) s = .next t ∧ RegisterResult s t rd v) ∧
    (CanTrap s → (∀ v : Word, v.toInt ≠ (s.reg rs).toInt + (s.reg rt).toInt) →
      ∃ t, exec (.add rd rs rt) s = .next t ∧ TrapTaken s t .ov) ∧
    (CanTrap s → (∀ v : Word, v.toInt ≠ (s.reg rs).toInt - (s.reg rt).toInt) →
      ∃ t, exec (.sub rd rs rt) s = .next t ∧ TrapTaken s t .ov) ∧
    (CanTrap s → (∀ v : Word, v.toInt ≠ (s.reg rs).toInt + imm.toInt) →
      ∃ t, exec (.addi rd rs imm) s = .next t ∧ TrapTaken s t .ov)

/-- ADDU, SUBU and ADDIU never trap and write the result modulo 2^32 (R140, R142, R144, R146). -/
def Obligations.UnsignedAddSubWrap : Prop :=
  ∀ (s : State) (rd rs rt : Reg) (imm : BitVec 16),
    (∃ t v, exec (.addu rd rs rt) s = .next t ∧ RegisterResult s t rd v ∧
      v.toNat = ((s.reg rs).toNat + (s.reg rt).toNat) % 2 ^ 32) ∧
    (∃ t v, exec (.subu rd rs rt) s = .next t ∧ RegisterResult s t rd v ∧
      (v.toNat + (s.reg rt).toNat) % 2 ^ 32 = (s.reg rs).toNat) ∧
    (∃ t v, exec (.addiu rd rs imm) s = .next t ∧ RegisterResult s t rd v ∧
      (v.toNat : Int) = ((s.reg rs).toNat + imm.toInt) % 2 ^ 32)

/-- SLT, SLTU, SLTI and SLTIU write a 1 or a 0: signed or unsigned, the immediate sign-extended before either
comparison (R148 to R151). -/
def Obligations.SetOnLessThan : Prop :=
  ∀ (s : State) (rd rs rt : Reg) (imm : BitVec 16),
    (∃ t, exec (.slt rd rs rt) s = .next t ∧
      RegisterResult s t rd (if (s.reg rs).toInt < (s.reg rt).toInt then 1 else 0)) ∧
    (∃ t, exec (.sltu rd rs rt) s = .next t ∧
      RegisterResult s t rd (if (s.reg rs).toNat < (s.reg rt).toNat then 1 else 0)) ∧
    (∃ t, exec (.slti rd rs imm) s = .next t ∧
      RegisterResult s t rd (if (s.reg rs).toInt < imm.toInt then 1 else 0)) ∧
    (∃ t, exec (.sltiu rd rs imm) s = .next t ∧
      RegisterResult s t rd (if ((s.reg rs).toNat : Int) < imm.toInt % 2 ^ 32 then 1 else 0))

/-! ## Logical (spec 41) -/

/-- AND, OR, XOR and NOR work bit by bit (R160 to R164). -/
def Obligations.LogicalRegisterForms : Prop :=
  ∀ (s : State) (rd rs rt : Reg),
    (∃ t v, exec (.and rd rs rt) s = .next t ∧ RegisterResult s t rd v ∧
      ∀ n, n < 32 → v.getLsbD n = ((s.reg rs).getLsbD n && (s.reg rt).getLsbD n)) ∧
    (∃ t v, exec (.or rd rs rt) s = .next t ∧ RegisterResult s t rd v ∧
      ∀ n, n < 32 → v.getLsbD n = ((s.reg rs).getLsbD n || (s.reg rt).getLsbD n)) ∧
    (∃ t v, exec (.xor rd rs rt) s = .next t ∧ RegisterResult s t rd v ∧
      ∀ n, n < 32 → v.getLsbD n = ((s.reg rs).getLsbD n ^^ (s.reg rt).getLsbD n)) ∧
    (∃ t v, exec (.nor rd rs rt) s = .next t ∧ RegisterResult s t rd v ∧
      ∀ n, n < 32 → v.getLsbD n = !((s.reg rs).getLsbD n || (s.reg rt).getLsbD n))

/-- ANDI, ORI and XORI zero-extend their immediate: ANDI clears bits 31:16, ORI and XORI leave them as in `x[rs]`.
LUI places its immediate in the upper halfword over zeros (R160, R165 to R168). -/
def Obligations.LogicalImmediateForms : Prop :=
  ∀ (s : State) (rt rs : Reg) (imm : BitVec 16),
    (∃ t v, exec (.andi rt rs imm) s = .next t ∧ RegisterResult s t rt v ∧
      (∀ n, n < 16 → v.getLsbD n = ((s.reg rs).getLsbD n && imm.getLsbD n)) ∧
      ∀ n, 16 ≤ n → n < 32 → v.getLsbD n = false) ∧
    (∃ t v, exec (.ori rt rs imm) s = .next t ∧ RegisterResult s t rt v ∧
      (∀ n, n < 16 → v.getLsbD n = ((s.reg rs).getLsbD n || imm.getLsbD n)) ∧
      ∀ n, 16 ≤ n → n < 32 → v.getLsbD n = (s.reg rs).getLsbD n) ∧
    (∃ t v, exec (.xori rt rs imm) s = .next t ∧ RegisterResult s t rt v ∧
      (∀ n, n < 16 → v.getLsbD n = ((s.reg rs).getLsbD n ^^ imm.getLsbD n)) ∧
      ∀ n, 16 ≤ n → n < 32 → v.getLsbD n = (s.reg rs).getLsbD n) ∧
    (∃ t v, exec (.lui rt imm) s = .next t ∧ RegisterResult s t rt v ∧ v.toNat = imm.toNat * 65536)

/-! ## Shifts (spec 42) -/

/-- SLL, SRL and SRA shift `x[rt]` by the constant: modulo 2^32, floor division unsigned, floor division signed
(R180 to R183). -/
def Obligations.ShiftsByConstant : Prop :=
  ∀ (s : State) (rd rt : Reg) (shamt : BitVec 5),
    (∃ t v, exec (.sll rd rt shamt) s = .next t ∧ RegisterResult s t rd v ∧
      v.toNat = (s.reg rt).toNat * 2 ^ shamt.toNat % 2 ^ 32) ∧
    (∃ t v, exec (.srl rd rt shamt) s = .next t ∧ RegisterResult s t rd v ∧
      v.toNat = (s.reg rt).toNat / 2 ^ shamt.toNat) ∧
    (∃ t v, exec (.sra rd rt shamt) s = .next t ∧ RegisterResult s t rd v ∧
      v.toInt = (s.reg rt).toInt.fdiv (2 ^ shamt.toNat))

/-- SLLV, SRLV and SRAV shift `x[rt]` by the low 5 bits of `x[rs]`; bits 31:5 of the amount have no effect
(R113, R180, R184 to R186). -/
def Obligations.ShiftsByRegister : Prop :=
  ∀ (s : State) (rd rt rs : Reg),
    (∃ t v, exec (.sllv rd rt rs) s = .next t ∧ RegisterResult s t rd v ∧
      v.toNat = (s.reg rt).toNat * 2 ^ ((s.reg rs).toNat % 32) % 2 ^ 32) ∧
    (∃ t v, exec (.srlv rd rt rs) s = .next t ∧ RegisterResult s t rd v ∧
      v.toNat = (s.reg rt).toNat / 2 ^ ((s.reg rs).toNat % 32)) ∧
    (∃ t v, exec (.srav rd rt rs) s = .next t ∧ RegisterResult s t rd v ∧
      v.toInt = (s.reg rt).toInt.fdiv (2 ^ ((s.reg rs).toNat % 32)))

/-! ## Multiply and divide (spec 43) -/

/-- MULT and MULTU leave the exact 64-bit product in HI and LO (R200, R201, R202). -/
def Obligations.ProductIsExact : Prop :=
  ∀ (s : State) (rs rt : Reg),
    (∃ t hi lo, exec (.mult rs rt) s = .next t ∧ HiLoResult s t hi lo ∧
      hi.toInt * 2 ^ 32 + lo.toNat = (s.reg rs).toInt * (s.reg rt).toInt) ∧
    (∃ t hi lo, exec (.multu rs rt) s = .next t ∧ HiLoResult s t hi lo ∧
      hi.toNat * 2 ^ 32 + lo.toNat = (s.reg rs).toNat * (s.reg rt).toNat)

/-- DIV and DIVU with a non-zero divisor: quotient in LO, remainder in HI, rounded toward zero with the remainder of
the dividend's sign; -2^31 / -1 gives LO = 0x8000_0000 and HI = 0 (R200, R203, R204). -/
def Obligations.DivisionIsExact : Prop :=
  ∀ (s : State) (rs rt : Reg), s.reg rt ≠ 0 →
    (¬(s.reg rs = 0x80000000 ∧ s.reg rt = 0xFFFFFFFF) →
      ∃ t hi lo, exec (.div rs rt) s = .next t ∧ HiLoResult s t hi lo ∧
        (s.reg rs).toInt = lo.toInt * (s.reg rt).toInt + hi.toInt ∧
        hi.toInt.natAbs < (s.reg rt).toInt.natAbs ∧
        (hi.toInt = 0 ∨ (hi.toInt < 0 ↔ (s.reg rs).toInt < 0))) ∧
    (s.reg rs = 0x80000000 → s.reg rt = 0xFFFFFFFF →
      ∃ t, exec (.div rs rt) s = .next t ∧ HiLoResult s t 0 0x80000000) ∧
    (∃ t hi lo, exec (.divu rs rt) s = .next t ∧ HiLoResult s t hi lo ∧
      (s.reg rs).toNat = lo.toNat * (s.reg rt).toNat + hi.toNat ∧ hi.toNat < (s.reg rt).toNat)

/-- A division by zero does not trap and changes no register; under this hardware's `DIV0_POLICY` HI and LO are
unchanged, and under the cautious policy their values are free (R203, R204). -/
def Obligations.DivisionByZeroDoesNotTrap : Prop :=
  ∀ (s : State) (rs rt : Reg), s.reg rt = 0 → ∀ i : Instr, (i = .div rs rt ∨ i = .divu rs rt) →
    ∃ t, exec i s = .next t ∧ Sequenced s t none ∧ KeepsRegs s t ∧ KeepsCp0 s t ∧ KeepsMemory s t ∧
      KeepsConsole s t ∧ KeepsRun s t ∧ (s.platform.div0Policy = .unchanged → KeepsHiLo s t ∧ KeepsOutside s t)

/-- MFHI and MFLO copy, MTHI and MTLO write one of the pair and leave the other (R205 to R208). -/
def Obligations.HiLoMoves : Prop :=
  ∀ (s : State) (r : Reg),
    (∃ t, exec (.mfhi r) s = .next t ∧ RegisterResult s t r s.hi) ∧
    (∃ t, exec (.mflo r) s = .next t ∧ RegisterResult s t r s.lo) ∧
    (∃ t, exec (.mthi r) s = .next t ∧ HiLoResult s t (s.reg r) s.lo) ∧
    (∃ t, exec (.mtlo r) s = .next t ∧ HiLoResult s t s.hi (s.reg r))

/-- HI and LO are written and read only by the multiply-divide family: an instruction outside it does to a machine
with any other HI and LO exactly what it does to this one, and carries them through (R27). -/
def Obligations.HiLoBelongToTheFamily : Prop :=
  ∀ (i : Instr) (s : State) (hi lo : Word), i.isMulDiv = false →
    ∃ t, exec i s = .next t ∧ exec i { s with hi := hi, lo := lo } = .next { t with hi := hi, lo := lo } ∧
      KeepsHiLo s t

/-! ## The sequencer, branches and jumps (spec 44) -/

/-- The six conditional branches that link nothing: the pending target is set exactly when the condition holds of the
signed value of the register, and the delay slot comes next (R220, R221, R225 to R230). -/
def Obligations.ConditionalBranches : Prop :=
  ∀ (s : State) (rs rt : Reg) (imm : BitVec 16),
    let target := branchTarget s.pc imm
    (∃ t, exec (.beq rs rt imm) s = .next t ∧ JumpResult s t (if s.reg rs = s.reg rt then some target else none)) ∧
    (∃ t, exec (.bne rs rt imm) s = .next t ∧ JumpResult s t (if s.reg rs ≠ s.reg rt then some target else none)) ∧
    (∃ t, exec (.blez rs imm) s = .next t ∧ JumpResult s t (if (s.reg rs).toInt ≤ 0 then some target else none)) ∧
    (∃ t, exec (.bgtz rs imm) s = .next t ∧ JumpResult s t (if 0 < (s.reg rs).toInt then some target else none)) ∧
    (∃ t, exec (.bltz rs imm) s = .next t ∧ JumpResult s t (if (s.reg rs).toInt < 0 then some target else none)) ∧
    (∃ t, exec (.bgez rs imm) s = .next t ∧ JumpResult s t (if 0 ≤ (s.reg rs).toInt then some target else none))

/-- BLTZAL and BGEZAL link whether or not the branch is taken, and test the register as it was before the link
(R224, R231, R232). -/
def Obligations.LinkingBranches : Prop :=
  ∀ (s : State) (rs : Reg) (imm : BitVec 16),
    let target := branchTarget s.pc imm
    (∃ t, exec (.bltzal rs imm) s = .next t ∧
      LinkResult s t 31 (if (s.reg rs).toInt < 0 then some target else none)) ∧
    (∃ t, exec (.bgezal rs imm) s = .next t ∧
      LinkResult s t 31 (if 0 ≤ (s.reg rs).toInt then some target else none))

/-- J, JAL, JR and JALR: the target is pending after each; JALR reads it before it writes its link, and with `rd = 0`
links nothing (R112, R224, R233 to R236). -/
def Obligations.Jumps : Prop :=
  ∀ (s : State) (rd rs : Reg) (index : BitVec 26),
    (∃ t target, exec (.j index) s = .next t ∧ JumpResult s t (some target) ∧
      target.toNat = (s.pc + 4).toNat / 2 ^ 28 * 2 ^ 28 + index.toNat * 4) ∧
    (∃ t target, exec (.jal index) s = .next t ∧ LinkResult s t 31 (some target) ∧
      target.toNat = (s.pc + 4).toNat / 2 ^ 28 * 2 ^ 28 + index.toNat * 4) ∧
    (∃ t, exec (.jr rs) s = .next t ∧ JumpResult s t (some (s.reg rs))) ∧
    (∃ t, exec (.jalr rd rs) s = .next t ∧ LinkResult s t rd (some (s.reg rs)))

/-- What any committed instruction but ERET does to the sequencer: the PC goes "to PC+4 normally, or to the pending
branch/jump target if DelaySlotState indicates this step was a delay slot", the pending target is consumed, and a new
one is set exactly by the jumps and the branches whose condition holds (R220, R221). -/
def Obligations.CommitAdvancesThePc : Prop :=
  ∀ (i : Instr) (s t : State), detect i s = none → i ≠ .eret → s.hold = none → exec i s = .next t →
    t.hold = none → t.pc = s.delay.getD (s.pc + 4) ∧ t.delay = pendingTarget i s

/-- J, JAL and the conditional branches produce a target that is a multiple of 4 when `pc` is (R237). -/
def Obligations.ComputedTargetsAreAligned : Prop :=
  ∀ (pc : Word) (imm : BitVec 16) (index : BitVec 26), pc.toNat % 4 = 0 →
    (branchTarget pc imm).toNat % 4 = 0 ∧ (jumpTarget pc index).toNat % 4 = 0

/-- The delay slot: a step that runs a taken branch or a jump leaves its target pending and the PC at the slot, and
the next step executes the instruction there; when that raises nothing, is no ERET and is not held, control is then at
the target, whatever the slot did to the registers the branch read (R222). -/
def Obligations.DelaySlotRunsBeforeTheTarget : Prop :=
  ∀ (s : State) (i : Instr) (w target : Word),
    let b := s.atBoundary
    s.runState = .running → b.runState = .running → b.hold = none → b.stopCheck = none → b.fetch = some w →
    decode w = .operation i → b.begin.intDeliverable = false → pendingTarget i b = some target →
    ∃ t, step s = .next t ∧ t.pc = b.delay.getD (b.pc + 4) ∧ t.delay = some target ∧ t.hold = none ∧
      t.atBoundary.pc = t.pc ∧
      ∀ (d : Instr) (v : Word), t.atBoundary.stopCheck = none → t.atBoundary.fetch = some v →
        decode v = .operation d → d ≠ .eret → detect d t.atBoundary.begin = none →
        ∃ u, step t = .next u ∧ exec d t.atBoundary.begin = .next u ∧ (u.hold = none → u.pc = target)

/-! ## Memory, loads and stores (spec 20, spec 45) -/

/-- After a store of any width to RAM a load of the same width at the same address returns the bytes written, and
changes nothing; a store to ROM fails (R74). -/
def Obligations.StoreThenLoadRoundTrip : Prop :=
  ∀ (s : State) (w : Width) (a v : Word), s.mem.wf → aligned w a = true →
    (s.platform.kindAt a.toNat = some .ram → s.storeFaults w a = false ∧ s.loadFaults w a = false ∧
      ∃ x, (s.memWrite w a v).memRead w a = some (x, s.memWrite w a v) ∧ x.toNat = v.toNat % 2 ^ (8 * w.bytes)) ∧
    (s.platform.kindAt a.toNat = some .rom → s.storeFaults w a = true)

/-- Big-endian, mixed widths: the narrower reads of a stored word; every byte and halfword store into it, which
replaces only its own bytes of the word; and the instruction word of a fetch in the same order (R64, R65). -/
def Obligations.MixedWidthAccesses : Prop :=
  (∀ (s : State), s.platform.fetchable s.pc = true → ∃ w, s.fetch = some w ∧
    w.toNat = (s.mem.readByte s.pc.toNat).toNat * 2 ^ 24 + (s.mem.readByte (s.pc.toNat + 1)).toNat * 2 ^ 16 +
      (s.mem.readByte (s.pc.toNat + 2)).toNat * 2 ^ 8 + (s.mem.readByte (s.pc.toNat + 3)).toNat) ∧
  ∀ (m : Memory) (a v x : Word), m.wf → aligned .word a = true →
    let n := m.write a.toNat .word v
    (n.read a.toNat .byte).toNat = v.toNat / 2 ^ 24 ∧
    (n.read (a.toNat + 1) .byte).toNat = v.toNat / 2 ^ 16 % 256 ∧
    (n.read (a.toNat + 2) .byte).toNat = v.toNat / 2 ^ 8 % 256 ∧
    (n.read (a.toNat + 3) .byte).toNat = v.toNat % 256 ∧
    (n.read a.toNat .half).toNat = v.toNat / 2 ^ 16 ∧
    (n.read (a.toNat + 2) .half).toNat = v.toNat % 2 ^ 16 ∧
    (∀ j, j < 4 → ((n.write (a.toNat + j) .byte x).read a.toNat .word).toNat =
      v.toNat / 2 ^ (32 - 8 * j) * 2 ^ (32 - 8 * j) + x.toNat % 2 ^ 8 * 2 ^ (24 - 8 * j) + v.toNat % 2 ^ (24 - 8 * j)) ∧
    (∀ j, (j = 0 ∨ j = 2) → ((n.write (a.toNat + j) .half x).read a.toNat .word).toNat =
      v.toNat / 2 ^ (32 - 8 * j) * 2 ^ (32 - 8 * j) + x.toNat % 2 ^ 16 * 2 ^ (16 - 8 * j) + v.toNat % 2 ^ (16 - 8 * j))

/-- A canonical memory is determined by what its addresses read as. -/
def Obligations.CanonicalMemoriesAreEqual : Prop :=
  ∀ m n : Memory, m.wf → n.wf → (∀ a, m.readByte a = n.readByte a) → m = n

/-- The five loads from RAM and ROM: big-endian, sign- or zero-extended, every other thing unchanged
(R250 to R255). -/
def Obligations.LoadsFromStorage : Prop :=
  ∀ (s : State) (rt rs : Reg) (imm : BitVec 16),
    let a := effAddr (s.reg rs) imm
    let b := fun n => (s.mem.readByte (a.toNat + n)).toNat
    s.platform.isStorage a.toNat = true →
    (∃ t v, exec (.lb rt imm rs) s = .next t ∧ RegisterResult s t rt v ∧ v.toInt = (s.mem.readByte a.toNat).toInt) ∧
    (∃ t v, exec (.lbu rt imm rs) s = .next t ∧ RegisterResult s t rt v ∧ v.toNat = b 0) ∧
    (a.toNat % 2 = 0 →
      (∃ t v, exec (.lh rt imm rs) s = .next t ∧ RegisterResult s t rt v ∧
        v.toInt = ((b 0 * 256 + b 1 : Nat) : Int).bmod (2 ^ 16)) ∧
      (∃ t v, exec (.lhu rt imm rs) s = .next t ∧ RegisterResult s t rt v ∧ v.toNat = b 0 * 256 + b 1)) ∧
    (a.toNat % 4 = 0 →
      ∃ t v, exec (.lw rt imm rs) s = .next t ∧ RegisterResult s t rt v ∧
        v.toNat = b 0 * 2 ^ 24 + b 1 * 2 ^ 16 + b 2 * 2 ^ 8 + b 3)

/-- The three stores to RAM: the low bytes of the register stand at the effective address, most significant first,
and every other byte of memory, every register and the rest of the machine are unchanged (R63, R250, R256 to R258). -/
def Obligations.StoresToRam : Prop :=
  ∀ (s : State) (rt rs : Reg) (imm : BitVec 16), s.mem.wf →
    let a := effAddr (s.reg rs) imm
    let v := s.reg rt
    s.platform.kindAt a.toNat = some .ram →
    (∃ t, exec (.sb rt imm rs) s = .next t ∧ StoreResult s t a.toNat [v.extractLsb' 0 8]) ∧
    (a.toNat % 2 = 0 →
      ∃ t, exec (.sh rt imm rs) s = .next t ∧ StoreResult s t a.toNat [v.extractLsb' 8 8, v.extractLsb' 0 8]) ∧
    (a.toNat % 4 = 0 →
      ∃ t, exec (.sw rt imm rs) s = .next t ∧
        StoreResult s t a.toNat [v.extractLsb' 24 8, v.extractLsb' 16 8, v.extractLsb' 8 8, v.extractLsb' 0 8])

/-- A load that is misaligned for its width, or whose address lies in no region or in the console-output region,
takes AdEL with the effective address, and a store that is misaligned, or whose address lies in no region, in ROM or
in the console-input region, takes AdES; nothing is transferred (R67, R68, R259, R302, R303). -/
def Obligations.BadAccessesTakeAddressErrors : Prop :=
  ∀ (s : State) (rt rs : Reg) (imm : BitVec 16), CanTrap s →
    let a := effAddr (s.reg rs) imm
    let noLoad := s.platform.kindAt a.toNat = none ∨ s.platform.kindAt a.toNat = some .consoleOut
    let noStore := s.platform.kindAt a.toNat = none ∨ s.platform.kindAt a.toNat = some .rom ∨
      s.platform.kindAt a.toNat = some .consoleIn
    (noLoad → ∀ i : Instr, (i = .lb rt imm rs ∨ i = .lbu rt imm rs) →
      ∃ t, exec i s = .next t ∧ TrapTaken s t (.adel a)) ∧
    (a.toNat % 2 = 1 ∨ noLoad → ∀ i : Instr, (i = .lh rt imm rs ∨ i = .lhu rt imm rs) →
      ∃ t, exec i s = .next t ∧ TrapTaken s t (.adel a)) ∧
    (a.toNat % 4 ≠ 0 ∨ noLoad → ∃ t, exec (.lw rt imm rs) s = .next t ∧ TrapTaken s t (.adel a)) ∧
    (noStore → ∃ t, exec (.sb rt imm rs) s = .next t ∧ TrapTaken s t (.ades a)) ∧
    (a.toNat % 2 = 1 ∨ noStore → ∃ t, exec (.sh rt imm rs) s = .next t ∧ TrapTaken s t (.ades a)) ∧
    (a.toNat % 4 ≠ 0 ∨ noStore → ∃ t, exec (.sw rt imm rs) s = .next t ∧ TrapTaken s t (.ades a))

/-- A load of the console-input data register, of any width the alignment allows, consumes one waiting byte and gives
it zero-extended to a word, of which a narrower load takes its bits; a load of the status register gives 1 or 0 and
consumes nothing. A register is selected by the word that contains the address (R73, R260, R328). -/
def Obligations.ConsoleInputLoads : Prop :=
  ∀ (s : State) (rt rs : Reg) (imm : BitVec 16) (r : Region) (b : Byte) (rest : List Byte) (i : Instr) (w : Width)
    (f : Word → Word),
    let a := effAddr (s.reg rs) imm
    LoadForm rt imm rs i w f → s.platform.regionAt a.toNat = some r → r.kind = .consoleIn → aligned w a = true →
    (r.base.toNat + 4 ≤ a.toNat → a.toNat < r.base.toNat + 8 → s.consoleIn = b :: rest →
      ∃ t, exec i s = .next t ∧ WritesReg s t rt (f (b.setWidth 32)) ∧ t.consoleIn = rest ∧
        t.consoleOut = s.consoleOut ∧ Sequenced s t none ∧ KeepsHiLo s t ∧ KeepsCp0 s t ∧ KeepsMemory s t ∧
        KeepsRun s t ∧ KeepsOutside s t) ∧
    (a.toNat < r.base.toNat + 4 →
      ∃ t, exec i s = .next t ∧ RegisterResult s t rt (f (if s.consoleIn = [] then 0 else 1)))

/-- A load of the empty data register: in `marker` mode it reads 0xFFFF_FFFF; in `block` mode the step is held and
nothing at all is committed (R329). -/
def Obligations.EmptyConsoleInput : Prop :=
  ∀ (s : State) (rt rs : Reg) (imm : BitVec 16) (r : Region) (i : Instr) (w : Width) (f : Word → Word),
    let a := effAddr (s.reg rs) imm
    LoadForm rt imm rs i w f → s.platform.regionAt a.toNat = some r → r.kind = .consoleIn → aligned w a = true →
    r.base.toNat + 4 ≤ a.toNat → a.toNat < r.base.toNat + 8 → s.consoleIn = [] →
    (s.platform.inputMode = .marker → ∃ t, exec i s = .next t ∧ RegisterResult s t rt (f 0xFFFFFFFF)) ∧
    (s.platform.inputMode = .block → exec i s = .next { s with hold := some .consoleInput })

/-- A held read completes when the host supplies a byte, without a second look at breakpoints or interrupts; and is
abandoned, with no state change but the halt, when the platform's timeout expires first (R329). -/
def Obligations.HeldReadEnds : Prop :=
  ∀ (s : State) (rt rs : Reg) (imm : BitVec 16) (r : Region) (i : Instr) (w : Width) (f : Word → Word) (word : Word)
    (b : Byte) (rest : List (List OutsideEvent)),
    let a := effAddr (s.reg rs) imm
    s.runState = .running → s.hold = some .consoleInput → s.consoleIn = [] → s.fetch = some word →
    decode word = .operation i → LoadForm rt imm rs i w f → s.platform.regionAt a.toNat = some r →
    r.kind = .consoleIn → aligned w a = true → r.base.toNat + 4 ≤ a.toNat → a.toNat < r.base.toNat + 8 →
    (s.agenda = [.input b] :: rest →
      ∃ t, step s = .next t ∧ t.hold = none ∧ WritesReg s t rt (f (b.setWidth 32)) ∧ t.consoleIn = [] ∧
        Sequenced s t none ∧ KeepsHiLo s t ∧ KeepsMemory s t ∧ KeepsCp0 s t ∧ KeepsRun s t) ∧
    (s.agenda = [.timeout] :: rest → s.platform.inputTimeout = true →
      step s = .next { s with
        agenda := rest, hold := none, runState := .halted, stopReason := some .inputTimeout }) ∧
    (s.agenda = [] → s.platform.inputMode = .block → step s = .next s)

/-- A load from a word of a console-input region that holds neither register of R328 completes and consumes nothing,
whatever value it gives: the spec states none (the model's choice, log 12). Nothing else changes but the model's
counter of free values. -/
def Obligations.OtherDeviceWordsGiveFreeValues : Prop :=
  ∀ (s : State) (rt rs : Reg) (imm : BitVec 16) (r : Region) (i : Instr) (w : Width) (f : Word → Word),
    let a := effAddr (s.reg rs) imm
    LoadForm rt imm rs i w f → s.platform.regionAt a.toNat = some r → r.kind = .consoleIn → aligned w a = true →
    r.base.toNat + 8 ≤ a.toNat →
    ∃ t v, exec i s = .next t ∧ WritesReg s t rt v ∧ KeepsConsole s t ∧ Sequenced s t none ∧ KeepsHiLo s t ∧
      KeepsCp0 s t ∧ KeepsMemory s t ∧ KeepsRun s t ∧ KeepsHost s t ∧ t.answers = s.answers

/-- A store of any width to the console-output region emits the low byte of the register and stores nothing. R328
gives the region one register, the word at its base; that a store to a further word of a larger region emits too is the
model's choice (log 12) (R256, R260, R328). -/
def Obligations.ConsoleOutputStores : Prop :=
  ∀ (s : State) (rt rs : Reg) (imm : BitVec 16) (i : Instr) (w : Width),
    let a := effAddr (s.reg rs) imm
    StoreForm rt imm rs i w → s.platform.kindAt a.toNat = some .consoleOut → aligned w a = true →
    ∃ t, exec i s = .next t ∧ t.consoleOut = s.consoleOut ++ [(s.reg rt).extractLsb' 0 8] ∧
      t.consoleIn = s.consoleIn ∧ KeepsMemory s t ∧ Sequenced s t none ∧ KeepsRegs s t ∧ KeepsHiLo s t ∧
      KeepsCp0 s t ∧ KeepsRun s t ∧ KeepsOutside s t

/-! ## System and coprocessor 0 (spec 46) -/

/-- MFC0 reads the whole 32-bit register with unimplemented bits as 0, whatever Status holds (R30, R31, R274). -/
def Obligations.MoveFromCp0 : Prop :=
  ∀ (s : State) (rt : Reg),
    (∃ t, exec (.mfc0 rt 8) s = .next t ∧ RegisterResult s t rt s.badVAddr) ∧
    (∃ t v, exec (.mfc0 rt 12) s = .next t ∧ RegisterResult s t rt v ∧
      v.toNat = s.status.im.toNat * 2 ^ 8 + s.status.exl.toNat * 2 + s.status.ie.toNat) ∧
    (∃ t v, exec (.mfc0 rt 13) s = .next t ∧ RegisterResult s t rt v ∧
      v.toNat = s.cause.ip.toNat * 2 ^ 8 + s.cause.excCode.toNat * 2 ^ 2) ∧
    (∃ t, exec (.mfc0 rt 14) s = .next t ∧ RegisterResult s t rt s.epc)

/-- MTC0 writes IE, EXL and IM of Status, IP[1:0] of Cause, all of EPC and nothing of BadVAddr, whatever Status holds
(R33, R275). -/
def Obligations.MoveToCp0 : Prop :=
  ∀ (s : State) (rt : Reg),
    let v := s.reg rt
    let kept := fun t => Sequenced s t none ∧ KeepsRegs s t ∧ KeepsHiLo s t ∧ KeepsMemory s t ∧ KeepsConsole s t ∧
      KeepsRun s t ∧ KeepsOutside s t
    (∃ t, exec (.mtc0 rt 12) s = .next t ∧ kept t ∧ t.status.ie = v.getLsbD 0 ∧ t.status.exl = v.getLsbD 1 ∧
      t.status.im.toNat = v.toNat / 2 ^ 8 % 2 ^ 8 ∧ t.cause = s.cause ∧ t.epc = s.epc ∧ t.badVAddr = s.badVAddr) ∧
    (∃ t, exec (.mtc0 rt 13) s = .next t ∧ kept t ∧ t.cause.excCode = s.cause.excCode ∧
      t.cause.ip.toNat = s.cause.ip.toNat / 4 * 4 + v.toNat / 2 ^ 8 % 4 ∧ t.status = s.status ∧ t.epc = s.epc ∧
      t.badVAddr = s.badVAddr) ∧
    (∃ t, exec (.mtc0 rt 14) s = .next t ∧ kept t ∧ t.epc = v ∧ t.status = s.status ∧ t.cause = s.cause ∧
      t.badVAddr = s.badVAddr) ∧
    (∃ t, exec (.mtc0 rt 8) s = .next t ∧ kept t ∧ KeepsCp0 s t)

/-- MFC0 and MTC0 of any other register number take Reserved Instruction and transfer nothing (R29, R273). -/
def Obligations.UnimplementedCp0IsReserved : Prop :=
  ∀ (s : State) (rt rd : Reg), CanTrap s → rd ≠ 8 → rd ≠ 12 → rd ≠ 13 → rd ≠ 14 →
    (∃ t, exec (.mfc0 rt rd) s = .next t ∧ TrapTaken s t .ri) ∧
    (∃ t, exec (.mtc0 rt rd) s = .next t ∧ TrapTaken s t .ri)

/-- ERET restores the PC from EPC, clears EXL and discards a pending target; it has no delay slot and restores nothing
else (R276, R317). -/
def Obligations.ExceptionReturn : Prop :=
  ∀ s : State, ∃ t, exec .eret s = .next t ∧ t.pc = s.epc ∧ t.delay = none ∧ t.status.exl = false ∧
    t.status.ie = s.status.ie ∧ t.status.im = s.status.im ∧ t.cause = s.cause ∧ t.epc = s.epc ∧
    t.badVAddr = s.badVAddr ∧ KeepsRegs s t ∧ KeepsHiLo s t ∧ KeepsMemory s t ∧ KeepsConsole s t ∧ KeepsRun s t ∧
    KeepsOutside s t

/-- BREAK always takes the Breakpoint exception, and SYSCALL on a platform with no dispatcher the Syscall exception,
whatever their code field holds (R271, R272, R305, R306). -/
def Obligations.BreakAndSyscallTrap : Prop :=
  ∀ (s : State) (code : BitVec 20), CanTrap s →
    (∃ t, exec (.brk code) s = .next t ∧ TrapTaken s t .bp) ∧
    (s.platform.syscallHosted = false → ∃ t, exec (.syscall code) s = .next t ∧ TrapTaken s t .sys)

/-- A hosted syscall whose service the host completes with Resume records code 8 and the PC, sets no EXL, and the
program goes on after the SYSCALL, at the pending target in a delay slot; only r2, the RAM bytes the answer names and
the console streams may differ (R323, R325; log 8). -/
def Obligations.HostedSyscallResumes : Prop :=
  ∀ (s : State) (code : BitVec 20) (k : ServiceKind) (r : ServiceReply) (rest : List ServiceReply),
    s.mem.wf → s.status.exl = false → s.platform.syscallHosted = true → s.service = some k →
    s.answers = r :: rest → r.verdict = .resume →
    ∃ t, exec (.syscall code) s = .next t ∧ Served s t r rest ∧ Sequenced s t none ∧ t.runState = .running ∧
      t.stopReason = s.stopReason

/-- The other outcomes of a hosted syscall: the answers Exit and Fault halt with `pc` and `delay` unchanged, whatever
the host did during the service; with no answer yet the exit service ends with Exit and nothing else (log 9), and
another service holds the step (log 6, log 7); an unrecognised number takes Reserved Instruction and nothing is done for
it (log 8), with a handler installed and without (R313, R323, R325, R334). -/
def Obligations.HostedSyscallEndings : Prop :=
  ∀ (s : State) (code : BitVec 20), s.mem.wf → s.status.exl = false → s.platform.syscallHosted = true →
    (∀ k r rest, s.service = some k → s.answers = r :: rest → r.verdict ≠ .resume →
      ∃ t, exec (.syscall code) s = .next t ∧ Served s t r rest ∧ ServiceEnds s t r.verdict) ∧
    (s.service = some .exit → s.answers = [] →
      ∃ t, exec (.syscall code) s = .next t ∧ Served s t ⟨none, [], [], 0, .exit⟩ [] ∧ ServiceEnds s t .exit) ∧
    (s.service = some .external → s.answers = [] →
      ∃ t, exec (.syscall code) s = .next t ∧ t.hold = some .serviceAnswer ∧ t.pc = s.pc ∧ t.delay = s.delay ∧
        t.runState = s.runState ∧ KeepsRegs s t ∧ KeepsHiLo s t ∧ KeepsMemory s t ∧ KeepsConsole s t) ∧
    (s.service = none → s.platform.handlerInstalled = true →
      ∃ t, exec (.syscall code) s = .next t ∧ TrapTaken s t .ri) ∧
    (s.service = none → s.platform.handlerInstalled = false →
      ∃ t, exec (.syscall code) s = .next t ∧ NoHandlerStop s t .ri)

/-- A SYSCALL held for its service ends as the host's answer says when the answer comes, without a second look at
breakpoints or interrupts, and stays held until then with nothing of the program's state changed (R300, R325; the hold
is the model's form of R325's wait, log 6 and log 7). -/
def Obligations.HeldServiceEnds : Prop :=
  ∀ (s : State) (w : Word) (code : BitVec 20) (r : ServiceReply) (rest : List (List OutsideEvent)),
    s.mem.wf → s.runState = .running → s.hold = some .serviceAnswer → s.answers = [] → s.status.exl = false →
    s.platform.syscallHosted = true → s.service = some .external → s.fetch = some w →
    decode w = .operation (.syscall code) →
    (s.agenda = [.reply r] :: rest →
      let b := { s with agenda := rest, hold := none }
      ∃ t, step s = .next t ∧ Served b t r [] ∧ ServiceEnds b t r.verdict) ∧
    (s.agenda = [] →
      ∃ t, step s = .next t ∧ t.hold = some .serviceAnswer ∧ t.pc = s.pc ∧ t.delay = s.delay ∧
        t.runState = .running ∧ t.status = s.status ∧ KeepsRegs s t ∧ KeepsHiLo s t ∧ KeepsMemory s t ∧
        KeepsConsole s t)

/-! ## Exceptions and interrupts (spec 60) -/

/-- The codes of the seven kinds (R301). -/
def Obligations.ExceptionCodes : Prop :=
  ∀ (k : ExcKind) (a : Word), (k = .int → k.code.toNat = 0) ∧ (k = .adel a → k.code.toNat = 4) ∧
    (k = .ades a → k.code.toNat = 5) ∧ (k = .sys → k.code.toNat = 8) ∧ (k = .bp → k.code.toNat = 9) ∧
    (k = .ri → k.code.toNat = 10) ∧ (k = .ov → k.code.toNat = 12) ∧ (k.code.toNat ∈ [0, 4, 5, 8, 9, 10, 12])

/-- Detection before commit: an instruction whose exception condition is detected raises that exception and does
nothing else, which, but for a hosted syscall, is a fatal stop with EXL = 1, a trap with a handler installed and a
NoHandler halt without; and an instruction with none leaves `last_event` and, MTC0 and ERET apart, coprocessor 0 as
they were (R309, R311, R313). -/
def Obligations.DetectionDecidesTheInstruction : Prop :=
  ∀ (i : Instr) (s : State),
    (∀ k, detect i s = some k → exec i s = .next (s.raise k) ∧
      (k ≠ .sys ∨ s.platform.syscallHosted = false ∨ s.status.exl = true → ExceptionRaised s (s.raise k) k)) ∧
    (detect i s = none → ∃ t, exec i s = .next t ∧ t.lastEvent = s.lastEvent ∧ t.stopReason = s.stopReason ∧
      t.runState = s.runState ∧ ((∀ rt rd, i ≠ .mtc0 rt rd) → i ≠ .eret → KeepsCp0 s t))

/-- Trap entry for every kind: what it records and what it leaves alone, with a handler installed and without; and an
exception raised is this entry, unless it is masked or a service takes it (R311, R312, R313, R314, R315). -/
def Obligations.TrapEntry : Prop :=
  ∀ (s : State) (k : ExcKind),
    let t := { s with lastEvent := some ⟨k, s.pc⟩ }.enter ⟨k, s.pc⟩
    TrapRecorded s t k ∧
    (s.platform.excVector.toNat % 4 = 0 ∧ (s.platform.kindAt s.platform.excVector.toNat = some .ram ∨
        s.platform.kindAt s.platform.excVector.toNat = some .rom) →
      t.pc = s.platform.excVector ∧ t.runState = .running ∧ t.stopReason = s.stopReason) ∧
    (¬(s.platform.excVector.toNat % 4 = 0 ∧ (s.platform.kindAt s.platform.excVector.toNat = some .ram ∨
        s.platform.kindAt s.platform.excVector.toNat = some .rom)) →
      t.pc = s.pc ∧ t.runState = .halted ∧ t.stopReason = some (.noHandler ⟨k, s.pc⟩)) ∧
    (k = .int ∨ s.status.exl = false → k ≠ .sys ∨ s.platform.syscallHosted = false → s.raise k = t)

/-- A synchronous exception with EXL = 1 is fatal: the machine halts, the event is reported, and nothing else changes,
hosted syscalls included (R311). -/
def Obligations.MaskedExceptionIsFatal : Prop :=
  ∀ (i : Instr) (s : State) (k : ExcKind), s.status.exl = true → detect i s = some k →
    ∃ t, exec i s = .next t ∧ FatalStop s t k

/-- Priority: address errors outrank overflow, which outranks syscall, break and reserved instruction, which outrank
interrupts; the event taken is one of the candidates and none outranks it (R310). -/
def Obligations.PriorityOfEvents : Prop :=
  ∀ ks : List ExcKind, (ks ≠ [] → ∃ k, arbitrate ks = some k) ∧
    ∀ k, arbitrate ks = some k → k ∈ ks ∧
      ((∃ a, .adel a ∈ ks ∨ .ades a ∈ ks) → ∃ a, k = .adel a ∨ k = .ades a) ∧
      (.ov ∈ ks → k = .ov ∨ ∃ a, k = .adel a ∨ k = .ades a) ∧
      (k = .int → ∀ x ∈ ks, x = .int)

/-- An instruction fetch at a PC that is not a multiple of 4, or in no RAM or ROM region, takes AdEL with that PC in
EPC and BadVAddr; nothing is fetched or executed. With EXL = 1 it is fatal, and with no handler the machine halts
(R26, R70, R302, R311, R313). -/
def Obligations.BadFetchTakesAddressError : Prop :=
  ∀ s : State,
    let b := s.atBoundary
    s.runState = .running → b.runState = .running → b.hold = none → b.stopCheck = none →
    (b.pc.toNat % 4 ≠ 0 ∨ b.platform.isStorage b.pc.toNat = false) →
    ∃ t, step s = .next t ∧ ExceptionRaised b.begin t (.adel b.pc)

/-- A word that is no instruction of the table takes Reserved Instruction, interrupt or not. With EXL = 1 it is fatal,
the source's own example of a fatal error, and with no handler the machine halts (R277, R307, R311, R313). -/
def Obligations.ReservedWordTraps : Prop :=
  ∀ (s : State) (w : Word),
    let b := s.atBoundary
    s.runState = .running → b.runState = .running → b.hold = none → b.stopCheck = none → b.fetch = some w →
    (∀ row ∈ opcodeTable, row.admits w = false) →
    ∃ t, step s = .next t ∧ ExceptionRaised b.begin t .ri

/-- A step runs the decoded instruction: after the outside has acted, the machine not held nor stopped, the lines
sampled, a fetched word that decodes to `i` makes the step `exec i`, unless a deliverable interrupt comes first, which
it does only when `i` raises no exception of its own (R300). -/
def Obligations.StepRunsTheDecodedInstruction : Prop :=
  ∀ (s : State) (w : Word) (i : Instr), s.runState = .running → s.atBoundary.runState = .running →
    s.atBoundary.hold = none → s.atBoundary.stopCheck = none → s.atBoundary.fetch = some w →
    decode w = .operation i →
    (detect i s.atBoundary.begin ≠ none ∨ s.atBoundary.begin.intDeliverable = false →
      step s = exec i s.atBoundary.begin) ∧
    (detect i s.atBoundary.begin = none → s.atBoundary.begin.intDeliverable = true →
      step s = .next (s.atBoundary.begin.raise .int))

/-- An enabled pending interrupt is taken instead of the instruction at `pc`, which has no effect and whose address is
in EPC; IE = 0, EXL = 1, IM = 0 for every pending bit, or a pending branch target each keep it from being taken, and
the request stays in Cause.IP (R308, R313, R321, R322). -/
def Obligations.InterruptDelivery : Prop :=
  ∀ (s : State) (w : Word) (i : Instr),
    let b := s.atBoundary
    s.runState = .running → b.runState = .running → b.hold = none → b.stopCheck = none → b.fetch = some w →
    decode w = .operation i → detect i b.begin = none →
    (b.status.ie = true → b.status.exl = false → b.delay = none →
      (∃ n, n < 8 ∧ b.begin.cause.ip.getLsbD n = true ∧ b.status.im.getLsbD n = true) →
      ∃ t, step s = .next t ∧ TrapRecorded b.begin t .int ∧
        (b.platform.handlerInstalled = true → TrapTaken b.begin t .int) ∧
        (b.platform.handlerInstalled = false → NoHandlerStop b.begin t .int)) ∧
    ((b.status.ie = false ∨ b.status.exl = true ∨ b.delay ≠ none ∨
        ∀ n, n < 8 → b.begin.cause.ip.getLsbD n = true → b.status.im.getLsbD n = false) →
      step s = exec i b.begin)

/-- The lines are sampled at the start of the step: IP[7:2] become the levels of `hw_irq[5:0]`, IP[1:0] and ExcCode
keep their values (R320). -/
def Obligations.LinesAreSampled : Prop :=
  ∀ s : State, s.begin.cause.ip.toNat = s.hwIrq.toNat * 4 + s.cause.ip.toNat % 4 ∧
    s.begin.cause.excCode = s.cause.excCode

/-- A halted machine takes no step. A requested pause, and a breakpoint at `pc`, each stop the step before any effect
of the instruction, with a report; after a breakpoint stop the next step is exempt there (R36, R331, R375; that a stop
is a step that only reports, and a pause is reported first, is the model's form, log 14 and log 15). -/
def Obligations.StopsBeforeEffects : Prop :=
  ∀ s : State,
    let b := s.atBoundary
    (s.runState = .halted → step s = .fault .halted) ∧
    (s.runState = .running → b.runState = .running → b.hold = none →
      (b.pauseRequest = true →
        ∃ t, step s = .next t ∧ StopReported b t .paused ∧ t.pauseRequest = false ∧ t.exempt = b.exempt) ∧
      (b.pauseRequest = false → b.pc ∈ b.breakpoints → b.exempt ≠ some b.pc →
        ∃ t, step s = .next t ∧ StopReported b t (.breakpointHit b.pc) ∧ t.stopCheck = none))

/-! ## Reset and the whole machine (spec 10, spec 70) -/

/-- Image load is the reset: an accepted image gives every register its reset value and every byte of memory the
image's value, or 0; a rejected one changes nothing (R41, R360, R361). -/
def Obligations.ImageLoadIsReset : Prop :=
  ∀ (s : State) (img : Image),
    (¬img.accepted s.platform → s.loadImage img = s) ∧
    (img.accepted s.platform →
      let t := s.loadImage img
      (∀ r, t.reg r = 0) ∧ t.pc = img.entry ∧ t.hi = 0 ∧ t.lo = 0 ∧ t.status.toWord = 0 ∧ t.cause.excCode = 0 ∧
      t.cause.ip.toNat = s.hwIrq.toNat * 4 ∧ t.epc = 0 ∧ t.badVAddr = 0 ∧ t.delay = none ∧ t.runState = .running ∧
      t.lastEvent = none ∧ t.stopReason = none ∧ (∀ a, t.mem.readByte a = imageByte img a) ∧ KeepsConsole s t ∧
      t.breakpoints = s.breakpoints ∧ t.platform = s.platform)

/-- The reset state satisfies the invariant. -/
def Obligations.ResetHasTheInvariant : Prop := Invariant State.reset

/-- Every step keeps the invariant: memory stays canonical and inside RAM and ROM, register 0 stays zero, the run
state is never Trapped at a boundary, and a stop reason stands exactly in Halted. -/
def Obligations.StepKeepsTheInvariant : Prop :=
  ∀ s t : State, Invariant s → step s = .next t → Invariant t

/-- What the host does between steps keeps the invariant, from every state that has it: an image load, accepted or
rejected, an event from outside, and the restore of any snapshot that has it on the same platform (R331, R360, R361,
D50); so every state the machine and its host then reach has it. And while no step is held, what the outside does at a
step boundary leaves the MachineState alone (R372). -/
def Obligations.HostActionsKeepTheInvariant : Prop :=
  (∀ s : State, Invariant s →
    (∀ img, Invariant (s.loadImage img)) ∧ (∀ e, Invariant (s.outside e)) ∧
    (∀ snap, Invariant snap → snap.platform = s.platform → Invariant (s.restore snap)) ∧
    ∀ t, Reaches s t → Invariant t) ∧
  (∀ s : State, s.hold = none → KeepsMachineState s s.atBoundary)

/-- No step changes a byte outside RAM: ROM is immutable, and so is the platform (R63, R325). -/
def Obligations.OnlyRamChanges : Prop :=
  ∀ s t : State, Invariant s → step s = .next t → t.platform = s.platform ∧
    ∀ a, s.platform.kindAt a ≠ some .ram → t.mem.readByte a = s.mem.readByte a
end

