-- ==== Sys2Proof/Laws/State.lean ====
section
/-! SUPPORT. One lemma for each field of the state under each named update, true by rfl, so that no proof unfolds a
record update; and the laws of the general registers. -/

namespace Sys2Proof.Machine.State

/-! `setReg` -/

@[simp] theorem setReg_regs (s : State) (r : Reg) (v : Word) : (s.setReg r v).regs = if r = 0 then s.regs else s.regs.set r v := rfl
@[simp] theorem setReg_pc (s : State) (r : Reg) (v : Word) : (s.setReg r v).pc = s.pc := rfl
@[simp] theorem setReg_hi (s : State) (r : Reg) (v : Word) : (s.setReg r v).hi = s.hi := rfl
@[simp] theorem setReg_lo (s : State) (r : Reg) (v : Word) : (s.setReg r v).lo = s.lo := rfl
@[simp] theorem setReg_status (s : State) (r : Reg) (v : Word) : (s.setReg r v).status = s.status := rfl
@[simp] theorem setReg_cause (s : State) (r : Reg) (v : Word) : (s.setReg r v).cause = s.cause := rfl
@[simp] theorem setReg_epc (s : State) (r : Reg) (v : Word) : (s.setReg r v).epc = s.epc := rfl
@[simp] theorem setReg_badVAddr (s : State) (r : Reg) (v : Word) : (s.setReg r v).badVAddr = s.badVAddr := rfl
@[simp] theorem setReg_delay (s : State) (r : Reg) (v : Word) : (s.setReg r v).delay = s.delay := rfl
@[simp] theorem setReg_runState (s : State) (r : Reg) (v : Word) : (s.setReg r v).runState = s.runState := rfl
@[simp] theorem setReg_lastEvent (s : State) (r : Reg) (v : Word) : (s.setReg r v).lastEvent = s.lastEvent := rfl
@[simp] theorem setReg_stopReason (s : State) (r : Reg) (v : Word) : (s.setReg r v).stopReason = s.stopReason := rfl
@[simp] theorem setReg_mem (s : State) (r : Reg) (v : Word) : (s.setReg r v).mem = s.mem := rfl
@[simp] theorem setReg_hold (s : State) (r : Reg) (v : Word) : (s.setReg r v).hold = s.hold := rfl
@[simp] theorem setReg_hwIrq (s : State) (r : Reg) (v : Word) : (s.setReg r v).hwIrq = s.hwIrq := rfl
@[simp] theorem setReg_consoleIn (s : State) (r : Reg) (v : Word) : (s.setReg r v).consoleIn = s.consoleIn := rfl
@[simp] theorem setReg_consoleOut (s : State) (r : Reg) (v : Word) : (s.setReg r v).consoleOut = s.consoleOut := rfl
@[simp] theorem setReg_answers (s : State) (r : Reg) (v : Word) : (s.setReg r v).answers = s.answers := rfl
@[simp] theorem setReg_breakpoints (s : State) (r : Reg) (v : Word) : (s.setReg r v).breakpoints = s.breakpoints := rfl
@[simp] theorem setReg_exempt (s : State) (r : Reg) (v : Word) : (s.setReg r v).exempt = s.exempt := rfl
@[simp] theorem setReg_pauseRequest (s : State) (r : Reg) (v : Word) : (s.setReg r v).pauseRequest = s.pauseRequest := rfl
@[simp] theorem setReg_report (s : State) (r : Reg) (v : Word) : (s.setReg r v).report = s.report := rfl
@[simp] theorem setReg_agenda (s : State) (r : Reg) (v : Word) : (s.setReg r v).agenda = s.agenda := rfl
@[simp] theorem setReg_platform (s : State) (r : Reg) (v : Word) : (s.setReg r v).platform = s.platform := rfl
@[simp] theorem setReg_freeCount (s : State) (r : Reg) (v : Word) : (s.setReg r v).freeCount = s.freeCount := rfl

/-! `setHiLo` -/

@[simp] theorem setHiLo_regs (s : State) (hi lo : Word) : (s.setHiLo hi lo).regs = s.regs := rfl
@[simp] theorem setHiLo_pc (s : State) (hi lo : Word) : (s.setHiLo hi lo).pc = s.pc := rfl
@[simp] theorem setHiLo_hi (s : State) (hi lo : Word) : (s.setHiLo hi lo).hi = hi := rfl
@[simp] theorem setHiLo_lo (s : State) (hi lo : Word) : (s.setHiLo hi lo).lo = lo := rfl
@[simp] theorem setHiLo_status (s : State) (hi lo : Word) : (s.setHiLo hi lo).status = s.status := rfl
@[simp] theorem setHiLo_cause (s : State) (hi lo : Word) : (s.setHiLo hi lo).cause = s.cause := rfl
@[simp] theorem setHiLo_epc (s : State) (hi lo : Word) : (s.setHiLo hi lo).epc = s.epc := rfl
@[simp] theorem setHiLo_badVAddr (s : State) (hi lo : Word) : (s.setHiLo hi lo).badVAddr = s.badVAddr := rfl
@[simp] theorem setHiLo_delay (s : State) (hi lo : Word) : (s.setHiLo hi lo).delay = s.delay := rfl
@[simp] theorem setHiLo_runState (s : State) (hi lo : Word) : (s.setHiLo hi lo).runState = s.runState := rfl
@[simp] theorem setHiLo_lastEvent (s : State) (hi lo : Word) : (s.setHiLo hi lo).lastEvent = s.lastEvent := rfl
@[simp] theorem setHiLo_stopReason (s : State) (hi lo : Word) : (s.setHiLo hi lo).stopReason = s.stopReason := rfl
@[simp] theorem setHiLo_mem (s : State) (hi lo : Word) : (s.setHiLo hi lo).mem = s.mem := rfl
@[simp] theorem setHiLo_hold (s : State) (hi lo : Word) : (s.setHiLo hi lo).hold = s.hold := rfl
@[simp] theorem setHiLo_hwIrq (s : State) (hi lo : Word) : (s.setHiLo hi lo).hwIrq = s.hwIrq := rfl
@[simp] theorem setHiLo_consoleIn (s : State) (hi lo : Word) : (s.setHiLo hi lo).consoleIn = s.consoleIn := rfl
@[simp] theorem setHiLo_consoleOut (s : State) (hi lo : Word) : (s.setHiLo hi lo).consoleOut = s.consoleOut := rfl
@[simp] theorem setHiLo_answers (s : State) (hi lo : Word) : (s.setHiLo hi lo).answers = s.answers := rfl
@[simp] theorem setHiLo_breakpoints (s : State) (hi lo : Word) : (s.setHiLo hi lo).breakpoints = s.breakpoints := rfl
@[simp] theorem setHiLo_exempt (s : State) (hi lo : Word) : (s.setHiLo hi lo).exempt = s.exempt := rfl
@[simp] theorem setHiLo_pauseRequest (s : State) (hi lo : Word) : (s.setHiLo hi lo).pauseRequest = s.pauseRequest := rfl
@[simp] theorem setHiLo_report (s : State) (hi lo : Word) : (s.setHiLo hi lo).report = s.report := rfl
@[simp] theorem setHiLo_agenda (s : State) (hi lo : Word) : (s.setHiLo hi lo).agenda = s.agenda := rfl
@[simp] theorem setHiLo_platform (s : State) (hi lo : Word) : (s.setHiLo hi lo).platform = s.platform := rfl
@[simp] theorem setHiLo_freeCount (s : State) (hi lo : Word) : (s.setHiLo hi lo).freeCount = s.freeCount := rfl

/-! `advance` -/

@[simp] theorem advance_regs (s : State) : (s.advance).regs = s.regs := rfl
@[simp] theorem advance_pc (s : State) : (s.advance).pc = s.nextPc := rfl
@[simp] theorem advance_hi (s : State) : (s.advance).hi = s.hi := rfl
@[simp] theorem advance_lo (s : State) : (s.advance).lo = s.lo := rfl
@[simp] theorem advance_status (s : State) : (s.advance).status = s.status := rfl
@[simp] theorem advance_cause (s : State) : (s.advance).cause = s.cause := rfl
@[simp] theorem advance_epc (s : State) : (s.advance).epc = s.epc := rfl
@[simp] theorem advance_badVAddr (s : State) : (s.advance).badVAddr = s.badVAddr := rfl
@[simp] theorem advance_delay (s : State) : (s.advance).delay = none := rfl
@[simp] theorem advance_runState (s : State) : (s.advance).runState = s.runState := rfl
@[simp] theorem advance_lastEvent (s : State) : (s.advance).lastEvent = s.lastEvent := rfl
@[simp] theorem advance_stopReason (s : State) : (s.advance).stopReason = s.stopReason := rfl
@[simp] theorem advance_mem (s : State) : (s.advance).mem = s.mem := rfl
@[simp] theorem advance_hold (s : State) : (s.advance).hold = s.hold := rfl
@[simp] theorem advance_hwIrq (s : State) : (s.advance).hwIrq = s.hwIrq := rfl
@[simp] theorem advance_consoleIn (s : State) : (s.advance).consoleIn = s.consoleIn := rfl
@[simp] theorem advance_consoleOut (s : State) : (s.advance).consoleOut = s.consoleOut := rfl
@[simp] theorem advance_answers (s : State) : (s.advance).answers = s.answers := rfl
@[simp] theorem advance_breakpoints (s : State) : (s.advance).breakpoints = s.breakpoints := rfl
@[simp] theorem advance_exempt (s : State) : (s.advance).exempt = s.exempt := rfl
@[simp] theorem advance_pauseRequest (s : State) : (s.advance).pauseRequest = s.pauseRequest := rfl
@[simp] theorem advance_report (s : State) : (s.advance).report = s.report := rfl
@[simp] theorem advance_agenda (s : State) : (s.advance).agenda = s.agenda := rfl
@[simp] theorem advance_platform (s : State) : (s.advance).platform = s.platform := rfl
@[simp] theorem advance_freeCount (s : State) : (s.advance).freeCount = s.freeCount := rfl

/-! `jumpTo` -/

@[simp] theorem jumpTo_regs (s : State) (a : Word) : (s.jumpTo a).regs = s.regs := rfl
@[simp] theorem jumpTo_pc (s : State) (a : Word) : (s.jumpTo a).pc = s.nextPc := rfl
@[simp] theorem jumpTo_hi (s : State) (a : Word) : (s.jumpTo a).hi = s.hi := rfl
@[simp] theorem jumpTo_lo (s : State) (a : Word) : (s.jumpTo a).lo = s.lo := rfl
@[simp] theorem jumpTo_status (s : State) (a : Word) : (s.jumpTo a).status = s.status := rfl
@[simp] theorem jumpTo_cause (s : State) (a : Word) : (s.jumpTo a).cause = s.cause := rfl
@[simp] theorem jumpTo_epc (s : State) (a : Word) : (s.jumpTo a).epc = s.epc := rfl
@[simp] theorem jumpTo_badVAddr (s : State) (a : Word) : (s.jumpTo a).badVAddr = s.badVAddr := rfl
@[simp] theorem jumpTo_delay (s : State) (a : Word) : (s.jumpTo a).delay = some a := rfl
@[simp] theorem jumpTo_runState (s : State) (a : Word) : (s.jumpTo a).runState = s.runState := rfl
@[simp] theorem jumpTo_lastEvent (s : State) (a : Word) : (s.jumpTo a).lastEvent = s.lastEvent := rfl
@[simp] theorem jumpTo_stopReason (s : State) (a : Word) : (s.jumpTo a).stopReason = s.stopReason := rfl
@[simp] theorem jumpTo_mem (s : State) (a : Word) : (s.jumpTo a).mem = s.mem := rfl
@[simp] theorem jumpTo_hold (s : State) (a : Word) : (s.jumpTo a).hold = s.hold := rfl
@[simp] theorem jumpTo_hwIrq (s : State) (a : Word) : (s.jumpTo a).hwIrq = s.hwIrq := rfl
@[simp] theorem jumpTo_consoleIn (s : State) (a : Word) : (s.jumpTo a).consoleIn = s.consoleIn := rfl
@[simp] theorem jumpTo_consoleOut (s : State) (a : Word) : (s.jumpTo a).consoleOut = s.consoleOut := rfl
@[simp] theorem jumpTo_answers (s : State) (a : Word) : (s.jumpTo a).answers = s.answers := rfl
@[simp] theorem jumpTo_breakpoints (s : State) (a : Word) : (s.jumpTo a).breakpoints = s.breakpoints := rfl
@[simp] theorem jumpTo_exempt (s : State) (a : Word) : (s.jumpTo a).exempt = s.exempt := rfl
@[simp] theorem jumpTo_pauseRequest (s : State) (a : Word) : (s.jumpTo a).pauseRequest = s.pauseRequest := rfl
@[simp] theorem jumpTo_report (s : State) (a : Word) : (s.jumpTo a).report = s.report := rfl
@[simp] theorem jumpTo_agenda (s : State) (a : Word) : (s.jumpTo a).agenda = s.agenda := rfl
@[simp] theorem jumpTo_platform (s : State) (a : Word) : (s.jumpTo a).platform = s.platform := rfl
@[simp] theorem jumpTo_freeCount (s : State) (a : Word) : (s.jumpTo a).freeCount = s.freeCount := rfl

/-! `result` -/

@[simp] theorem result_regs (s : State) (r : Reg) (v : Word) : (s.result r v).regs = if r = 0 then s.regs else s.regs.set r v := rfl
@[simp] theorem result_pc (s : State) (r : Reg) (v : Word) : (s.result r v).pc = s.nextPc := rfl
@[simp] theorem result_hi (s : State) (r : Reg) (v : Word) : (s.result r v).hi = s.hi := rfl
@[simp] theorem result_lo (s : State) (r : Reg) (v : Word) : (s.result r v).lo = s.lo := rfl
@[simp] theorem result_status (s : State) (r : Reg) (v : Word) : (s.result r v).status = s.status := rfl
@[simp] theorem result_cause (s : State) (r : Reg) (v : Word) : (s.result r v).cause = s.cause := rfl
@[simp] theorem result_epc (s : State) (r : Reg) (v : Word) : (s.result r v).epc = s.epc := rfl
@[simp] theorem result_badVAddr (s : State) (r : Reg) (v : Word) : (s.result r v).badVAddr = s.badVAddr := rfl
@[simp] theorem result_delay (s : State) (r : Reg) (v : Word) : (s.result r v).delay = none := rfl
@[simp] theorem result_runState (s : State) (r : Reg) (v : Word) : (s.result r v).runState = s.runState := rfl
@[simp] theorem result_lastEvent (s : State) (r : Reg) (v : Word) : (s.result r v).lastEvent = s.lastEvent := rfl
@[simp] theorem result_stopReason (s : State) (r : Reg) (v : Word) : (s.result r v).stopReason = s.stopReason := rfl
@[simp] theorem result_mem (s : State) (r : Reg) (v : Word) : (s.result r v).mem = s.mem := rfl
@[simp] theorem result_hold (s : State) (r : Reg) (v : Word) : (s.result r v).hold = s.hold := rfl
@[simp] theorem result_hwIrq (s : State) (r : Reg) (v : Word) : (s.result r v).hwIrq = s.hwIrq := rfl
@[simp] theorem result_consoleIn (s : State) (r : Reg) (v : Word) : (s.result r v).consoleIn = s.consoleIn := rfl
@[simp] theorem result_consoleOut (s : State) (r : Reg) (v : Word) : (s.result r v).consoleOut = s.consoleOut := rfl
@[simp] theorem result_answers (s : State) (r : Reg) (v : Word) : (s.result r v).answers = s.answers := rfl
@[simp] theorem result_breakpoints (s : State) (r : Reg) (v : Word) : (s.result r v).breakpoints = s.breakpoints := rfl
@[simp] theorem result_exempt (s : State) (r : Reg) (v : Word) : (s.result r v).exempt = s.exempt := rfl
@[simp] theorem result_pauseRequest (s : State) (r : Reg) (v : Word) : (s.result r v).pauseRequest = s.pauseRequest := rfl
@[simp] theorem result_report (s : State) (r : Reg) (v : Word) : (s.result r v).report = s.report := rfl
@[simp] theorem result_agenda (s : State) (r : Reg) (v : Word) : (s.result r v).agenda = s.agenda := rfl
@[simp] theorem result_platform (s : State) (r : Reg) (v : Word) : (s.result r v).platform = s.platform := rfl
@[simp] theorem result_freeCount (s : State) (r : Reg) (v : Word) : (s.result r v).freeCount = s.freeCount := rfl

/-! `holdFor` -/

@[simp] theorem holdFor_regs (s : State) (h : Hold) : (s.holdFor h).regs = s.regs := rfl
@[simp] theorem holdFor_pc (s : State) (h : Hold) : (s.holdFor h).pc = s.pc := rfl
@[simp] theorem holdFor_hi (s : State) (h : Hold) : (s.holdFor h).hi = s.hi := rfl
@[simp] theorem holdFor_lo (s : State) (h : Hold) : (s.holdFor h).lo = s.lo := rfl
@[simp] theorem holdFor_status (s : State) (h : Hold) : (s.holdFor h).status = s.status := rfl
@[simp] theorem holdFor_cause (s : State) (h : Hold) : (s.holdFor h).cause = s.cause := rfl
@[simp] theorem holdFor_epc (s : State) (h : Hold) : (s.holdFor h).epc = s.epc := rfl
@[simp] theorem holdFor_badVAddr (s : State) (h : Hold) : (s.holdFor h).badVAddr = s.badVAddr := rfl
@[simp] theorem holdFor_delay (s : State) (h : Hold) : (s.holdFor h).delay = s.delay := rfl
@[simp] theorem holdFor_runState (s : State) (h : Hold) : (s.holdFor h).runState = s.runState := rfl
@[simp] theorem holdFor_lastEvent (s : State) (h : Hold) : (s.holdFor h).lastEvent = s.lastEvent := rfl
@[simp] theorem holdFor_stopReason (s : State) (h : Hold) : (s.holdFor h).stopReason = s.stopReason := rfl
@[simp] theorem holdFor_mem (s : State) (h : Hold) : (s.holdFor h).mem = s.mem := rfl
@[simp] theorem holdFor_hold (s : State) (h : Hold) : (s.holdFor h).hold = some h := rfl
@[simp] theorem holdFor_hwIrq (s : State) (h : Hold) : (s.holdFor h).hwIrq = s.hwIrq := rfl
@[simp] theorem holdFor_consoleIn (s : State) (h : Hold) : (s.holdFor h).consoleIn = s.consoleIn := rfl
@[simp] theorem holdFor_consoleOut (s : State) (h : Hold) : (s.holdFor h).consoleOut = s.consoleOut := rfl
@[simp] theorem holdFor_answers (s : State) (h : Hold) : (s.holdFor h).answers = s.answers := rfl
@[simp] theorem holdFor_breakpoints (s : State) (h : Hold) : (s.holdFor h).breakpoints = s.breakpoints := rfl
@[simp] theorem holdFor_exempt (s : State) (h : Hold) : (s.holdFor h).exempt = s.exempt := rfl
@[simp] theorem holdFor_pauseRequest (s : State) (h : Hold) : (s.holdFor h).pauseRequest = s.pauseRequest := rfl
@[simp] theorem holdFor_report (s : State) (h : Hold) : (s.holdFor h).report = s.report := rfl
@[simp] theorem holdFor_agenda (s : State) (h : Hold) : (s.holdFor h).agenda = s.agenda := rfl
@[simp] theorem holdFor_platform (s : State) (h : Hold) : (s.holdFor h).platform = s.platform := rfl
@[simp] theorem holdFor_freeCount (s : State) (h : Hold) : (s.holdFor h).freeCount = s.freeCount := rfl

/-! `halt` -/

@[simp] theorem halt_regs (s : State) (r : StopReason) : (s.halt r).regs = s.regs := rfl
@[simp] theorem halt_pc (s : State) (r : StopReason) : (s.halt r).pc = s.pc := rfl
@[simp] theorem halt_hi (s : State) (r : StopReason) : (s.halt r).hi = s.hi := rfl
@[simp] theorem halt_lo (s : State) (r : StopReason) : (s.halt r).lo = s.lo := rfl
@[simp] theorem halt_status (s : State) (r : StopReason) : (s.halt r).status = s.status := rfl
@[simp] theorem halt_cause (s : State) (r : StopReason) : (s.halt r).cause = s.cause := rfl
@[simp] theorem halt_epc (s : State) (r : StopReason) : (s.halt r).epc = s.epc := rfl
@[simp] theorem halt_badVAddr (s : State) (r : StopReason) : (s.halt r).badVAddr = s.badVAddr := rfl
@[simp] theorem halt_delay (s : State) (r : StopReason) : (s.halt r).delay = s.delay := rfl
@[simp] theorem halt_runState (s : State) (r : StopReason) : (s.halt r).runState = .halted := rfl
@[simp] theorem halt_lastEvent (s : State) (r : StopReason) : (s.halt r).lastEvent = s.lastEvent := rfl
@[simp] theorem halt_stopReason (s : State) (r : StopReason) : (s.halt r).stopReason = some r := rfl
@[simp] theorem halt_mem (s : State) (r : StopReason) : (s.halt r).mem = s.mem := rfl
@[simp] theorem halt_hold (s : State) (r : StopReason) : (s.halt r).hold = s.hold := rfl
@[simp] theorem halt_hwIrq (s : State) (r : StopReason) : (s.halt r).hwIrq = s.hwIrq := rfl
@[simp] theorem halt_consoleIn (s : State) (r : StopReason) : (s.halt r).consoleIn = s.consoleIn := rfl
@[simp] theorem halt_consoleOut (s : State) (r : StopReason) : (s.halt r).consoleOut = s.consoleOut := rfl
@[simp] theorem halt_answers (s : State) (r : StopReason) : (s.halt r).answers = s.answers := rfl
@[simp] theorem halt_breakpoints (s : State) (r : StopReason) : (s.halt r).breakpoints = s.breakpoints := rfl
@[simp] theorem halt_exempt (s : State) (r : StopReason) : (s.halt r).exempt = s.exempt := rfl
@[simp] theorem halt_pauseRequest (s : State) (r : StopReason) : (s.halt r).pauseRequest = s.pauseRequest := rfl
@[simp] theorem halt_report (s : State) (r : StopReason) : (s.halt r).report = s.report := rfl
@[simp] theorem halt_agenda (s : State) (r : StopReason) : (s.halt r).agenda = s.agenda := rfl
@[simp] theorem halt_platform (s : State) (r : StopReason) : (s.halt r).platform = s.platform := rfl
@[simp] theorem halt_freeCount (s : State) (r : StopReason) : (s.halt r).freeCount = s.freeCount := rfl

/-! `exceptionReturn` -/

@[simp] theorem exceptionReturn_regs (s : State) : (s.exceptionReturn).regs = s.regs := rfl
@[simp] theorem exceptionReturn_pc (s : State) : (s.exceptionReturn).pc = s.epc := rfl
@[simp] theorem exceptionReturn_hi (s : State) : (s.exceptionReturn).hi = s.hi := rfl
@[simp] theorem exceptionReturn_lo (s : State) : (s.exceptionReturn).lo = s.lo := rfl
@[simp] theorem exceptionReturn_status (s : State) : (s.exceptionReturn).status = { s.status with exl := false } := rfl
@[simp] theorem exceptionReturn_cause (s : State) : (s.exceptionReturn).cause = s.cause := rfl
@[simp] theorem exceptionReturn_epc (s : State) : (s.exceptionReturn).epc = s.epc := rfl
@[simp] theorem exceptionReturn_badVAddr (s : State) : (s.exceptionReturn).badVAddr = s.badVAddr := rfl
@[simp] theorem exceptionReturn_delay (s : State) : (s.exceptionReturn).delay = none := rfl
@[simp] theorem exceptionReturn_runState (s : State) : (s.exceptionReturn).runState = s.runState := rfl
@[simp] theorem exceptionReturn_lastEvent (s : State) : (s.exceptionReturn).lastEvent = s.lastEvent := rfl
@[simp] theorem exceptionReturn_stopReason (s : State) : (s.exceptionReturn).stopReason = s.stopReason := rfl
@[simp] theorem exceptionReturn_mem (s : State) : (s.exceptionReturn).mem = s.mem := rfl
@[simp] theorem exceptionReturn_hold (s : State) : (s.exceptionReturn).hold = s.hold := rfl
@[simp] theorem exceptionReturn_hwIrq (s : State) : (s.exceptionReturn).hwIrq = s.hwIrq := rfl
@[simp] theorem exceptionReturn_consoleIn (s : State) : (s.exceptionReturn).consoleIn = s.consoleIn := rfl
@[simp] theorem exceptionReturn_consoleOut (s : State) : (s.exceptionReturn).consoleOut = s.consoleOut := rfl
@[simp] theorem exceptionReturn_answers (s : State) : (s.exceptionReturn).answers = s.answers := rfl
@[simp] theorem exceptionReturn_breakpoints (s : State) : (s.exceptionReturn).breakpoints = s.breakpoints := rfl
@[simp] theorem exceptionReturn_exempt (s : State) : (s.exceptionReturn).exempt = s.exempt := rfl
@[simp] theorem exceptionReturn_pauseRequest (s : State) : (s.exceptionReturn).pauseRequest = s.pauseRequest := rfl
@[simp] theorem exceptionReturn_report (s : State) : (s.exceptionReturn).report = s.report := rfl
@[simp] theorem exceptionReturn_agenda (s : State) : (s.exceptionReturn).agenda = s.agenda := rfl
@[simp] theorem exceptionReturn_platform (s : State) : (s.exceptionReturn).platform = s.platform := rfl
@[simp] theorem exceptionReturn_freeCount (s : State) : (s.exceptionReturn).freeCount = s.freeCount := rfl

/-! `begin` -/

@[simp] theorem begin_regs (s : State) : (s.begin).regs = s.regs := rfl
@[simp] theorem begin_pc (s : State) : (s.begin).pc = s.pc := rfl
@[simp] theorem begin_hi (s : State) : (s.begin).hi = s.hi := rfl
@[simp] theorem begin_lo (s : State) : (s.begin).lo = s.lo := rfl
@[simp] theorem begin_status (s : State) : (s.begin).status = s.status := rfl
@[simp] theorem begin_cause (s : State) : (s.begin).cause = s.cause.sample s.hwIrq := rfl
@[simp] theorem begin_epc (s : State) : (s.begin).epc = s.epc := rfl
@[simp] theorem begin_badVAddr (s : State) : (s.begin).badVAddr = s.badVAddr := rfl
@[simp] theorem begin_delay (s : State) : (s.begin).delay = s.delay := rfl
@[simp] theorem begin_runState (s : State) : (s.begin).runState = s.runState := rfl
@[simp] theorem begin_lastEvent (s : State) : (s.begin).lastEvent = s.lastEvent := rfl
@[simp] theorem begin_stopReason (s : State) : (s.begin).stopReason = s.stopReason := rfl
@[simp] theorem begin_mem (s : State) : (s.begin).mem = s.mem := rfl
@[simp] theorem begin_hold (s : State) : (s.begin).hold = s.hold := rfl
@[simp] theorem begin_hwIrq (s : State) : (s.begin).hwIrq = s.hwIrq := rfl
@[simp] theorem begin_consoleIn (s : State) : (s.begin).consoleIn = s.consoleIn := rfl
@[simp] theorem begin_consoleOut (s : State) : (s.begin).consoleOut = s.consoleOut := rfl
@[simp] theorem begin_answers (s : State) : (s.begin).answers = s.answers := rfl
@[simp] theorem begin_breakpoints (s : State) : (s.begin).breakpoints = s.breakpoints := rfl
@[simp] theorem begin_exempt (s : State) : (s.begin).exempt = none := rfl
@[simp] theorem begin_pauseRequest (s : State) : (s.begin).pauseRequest = s.pauseRequest := rfl
@[simp] theorem begin_report (s : State) : (s.begin).report = none := rfl
@[simp] theorem begin_agenda (s : State) : (s.begin).agenda = s.agenda := rfl
@[simp] theorem begin_platform (s : State) : (s.begin).platform = s.platform := rfl
@[simp] theorem begin_freeCount (s : State) : (s.begin).freeCount = s.freeCount := rfl

/-! General registers (R14, R21). -/

@[simp] theorem reg_zero (s : State) : s.reg 0 = 0 := rfl

theorem reg_of_ne_zero (s : State) {r : Reg} (h : r ≠ 0) : s.reg r = s.regs[r] := by simp [reg, h]

/-- Registers that hold the same words read the same. -/
theorem reg_congr {s t : State} (h : t.regs = s.regs) (r : Reg) : t.reg r = s.reg r := by simp [reg, h]

theorem setReg_reg_self (s : State) (r : Reg) (v : Word) : (s.setReg r v).reg r = if r = 0 then 0 else v := by
  by_cases h : r = 0 <;> simp [reg, h]

theorem setReg_reg_of_ne (s : State) {r q : Reg} (v : Word) (h : q ≠ r) : (s.setReg r v).reg q = s.reg q := by
  by_cases hr : r = 0
  · simp [reg, hr]
  · by_cases hq : q = 0
    · simp [hq]
    · have : r.val ≠ q.val := fun e => h (Fin.ext e.symm)
      simp [reg, hr, hq, this]

@[simp] theorem setReg_zero (s : State) (v : Word) : s.setReg 0 v = s := by simp [setReg]

@[simp] theorem setHiLo_reg (s : State) (hi lo : Word) (q : Reg) : (s.setHiLo hi lo).reg q = s.reg q := rfl
@[simp] theorem advance_reg (s : State) (q : Reg) : (s.advance).reg q = s.reg q := rfl
@[simp] theorem jumpTo_reg (s : State) (a : Word) (q : Reg) : (s.jumpTo a).reg q = s.reg q := rfl
@[simp] theorem holdFor_reg (s : State) (h : Hold) (q : Reg) : (s.holdFor h).reg q = s.reg q := rfl
@[simp] theorem halt_reg (s : State) (r : StopReason) (q : Reg) : (s.halt r).reg q = s.reg q := rfl
@[simp] theorem exceptionReturn_reg (s : State) (q : Reg) : (s.exceptionReturn).reg q = s.reg q := rfl
@[simp] theorem begin_reg (s : State) (q : Reg) : (s.begin).reg q = s.reg q := rfl

@[simp] theorem result_reg (s : State) (r : Reg) (v : Word) (q : Reg) :
    (s.result r v).reg q = (s.setReg r v).reg q := rfl

/-- Slot 0 of the register file is never written (R21). -/
@[simp] theorem setReg_slot_zero (s : State) (r : Reg) (v : Word) : (s.setReg r v).regs[0] = s.regs[0] := by
  by_cases h : r = 0
  · simp [h]
  · have : r.val ≠ 0 := fun e => h (Fin.ext e)
    simp [h, this]

/-! The sequencer (R221). -/

theorem nextPc_eq (s : State) : s.nextPc = s.delay.getD (s.pc + 4) := by
  unfold nextPc; cases s.delay <;> rfl

@[simp] theorem setReg_nextPc (s : State) (r : Reg) (v : Word) : (s.setReg r v).nextPc = s.nextPc := rfl
@[simp] theorem setHiLo_nextPc (s : State) (hi lo : Word) : (s.setHiLo hi lo).nextPc = s.nextPc := rfl

/-- What a conditional branch commits (R220). -/
theorem branch_eq (s : State) (c : Bool) (imm : BitVec 16) :
    s.branch c imm = { s with pc := s.nextPc, delay := if c then some (branchTarget s.pc imm) else none } := by
  cases c <;> rfl

end Sys2Proof.Machine.State
end

