-- ==== Sys2Proof/Laws/Memory.lean ====
section
/-! SUPPORT. The laws of memory: a read after a write, the canonical form kept by every operation, and what the addresses of a memory can be (spec 20 R62 to R65). -/

namespace Sys2Proof.Machine.Memory

/-- A byte below every listed address reads as unlisted. -/
theorem readByte_of_lt {m : Memory} {a : Nat} (h : ∀ c ∈ m, a < c.1) : m.readByte a = unlisted := by
  induction m with
  | nil => rfl
  | cons c rest ih =>
    have hc := h c (List.mem_cons_self ..)
    simp only [readByte]
    rw [if_neg (by omega)]
    exact ih fun d hd => h d (List.mem_cons_of_mem _ hd)

/-- The addresses a write can list are the old ones and its own. -/
theorem mem_writeByte {m : Memory} {a : Nat} {v : Byte} {c : Host.Cell} (h : c ∈ m.writeByte a v) :
    c ∈ m ∨ (c = (a, v) ∧ v ≠ unlisted) := by
  induction m with
  | nil => by_cases hv : v = unlisted <;> simp_all [writeByte]
  | cons d rest ih =>
    obtain ⟨k, b⟩ := d
    simp only [writeByte] at h
    split at h
    · split at h <;> simp_all
      tauto
    · split at h
      · split at h <;> simp_all
        tauto
      · rcases List.mem_cons.1 h with h | h
        · simp [h]
        · rcases ih h with h | h <;> simp_all

/-- Every write keeps the canonical form. -/
theorem wf_writeByte {m : Memory} (hm : m.wf) {a : Nat} (ha : a < 2 ^ 32) (v : Byte) : (m.writeByte a v).wf := by
  refine ⟨?_, fun c hc => ?_⟩
  · obtain ⟨hs, -⟩ := hm
    induction m with
    | nil => by_cases hv : v = unlisted <;> simp [writeByte, hv]
    | cons d rest ih =>
      obtain ⟨k, b⟩ := d
      obtain ⟨hk, hr⟩ := List.pairwise_cons.1 hs
      simp only [writeByte]
      split
      · split
        · exact hs
        · refine List.pairwise_cons.2 ⟨fun c hc => ?_, hs⟩
          rcases List.mem_cons.1 hc with rfl | hc
          · assumption
          · have := hk c hc; simp only at *; omega
      · split
        · split
          · exact hr
          · subst_vars; exact List.pairwise_cons.2 ⟨hk, hr⟩
        · refine List.pairwise_cons.2 ⟨fun c hc => ?_, ih hr⟩
          rcases mem_writeByte hc with hc | ⟨rfl, -⟩
          · exact hk c hc
          · simp only; omega
  · rcases mem_writeByte hc with hc | ⟨rfl, hv⟩
    · exact hm.2 c hc
    · exact ⟨ha, hv⟩

/-- The one law of a write: its own address reads the byte, every other address as before. -/
theorem readByte_writeByte {m : Memory} (hm : m.wf) (a : Nat) (v : Byte) (k : Nat) :
    (m.writeByte a v).readByte k = if k = a then v else m.readByte k := by
  obtain ⟨hs, -⟩ := hm
  induction m with
  | nil =>
    by_cases hv : v = unlisted <;> by_cases hk : k = a <;> simp [writeByte, readByte, hv, hk]
    exact fun h => absurd h.symm hk
  | cons d rest ih =>
    obtain ⟨j, b⟩ := d
    obtain ⟨hj, hr⟩ := List.pairwise_cons.1 hs
    have low : a ≤ j → readByte rest a = unlisted := fun h =>
      readByte_of_lt fun c hc => by have := hj c hc; simp only at this; omega
    simp only [writeByte]
    split
    · by_cases hk : k = a
      · subst hk; split <;> simp_all [readByte]
        rw [if_neg (by omega)]; exact low (by omega)
      · split <;> simp [readByte]
        intro h; exact absurd h.symm hk
    · split
      · subst_vars
        by_cases hk : k = j
        · subst hk; split <;> simp_all [readByte]
        · have : ¬ j = k := fun h => hk h.symm
          split <;> simp [readByte, this]
      · simp only [readByte, ih hr]
        by_cases hk : k = a
        · subst hk; rw [if_neg (by omega)]; simp
        · simp [hk]

theorem mem_writeBytes {m : Memory} {a : Nat} {bs : List Byte} {c : Host.Cell} (h : c ∈ m.writeBytes a bs) :
    c ∈ m ∨ (a ≤ c.1 ∧ c.1 < a + bs.length) := by
  induction bs generalizing m a with
  | nil => exact .inl h
  | cons b rest ih =>
    rcases ih h with h | h
    · rcases mem_writeByte h with h | ⟨rfl, -⟩
      · exact .inl h
      · right; simp
    · right; simp only [List.length_cons]; omega

theorem wf_writeBytes {m : Memory} (hm : m.wf) {a : Nat} {bs : List Byte} (h : a + bs.length ≤ 2 ^ 32) :
    (m.writeBytes a bs).wf := by
  induction bs generalizing m a with
  | nil => exact hm
  | cons b rest ih =>
    simp only [List.length_cons] at h
    exact ih (wf_writeByte hm (by omega) b) (by omega)

/-- A read after writing consecutive bytes. -/
theorem readByte_writeBytes {m : Memory} (hm : m.wf) {a : Nat} {bs : List Byte} (h : a + bs.length ≤ 2 ^ 32)
    (k : Nat) :
    (m.writeBytes a bs).readByte k =
      if hk : a ≤ k ∧ k - a < bs.length then bs[k - a] else m.readByte k := by
  induction bs generalizing m a with
  | nil => simp [writeBytes]
  | cons b rest ih =>
    simp only [List.length_cons] at h
    simp only [writeBytes]
    rw [ih (wf_writeByte hm (by omega) b) (by omega)]
    by_cases h1 : k < a
    · rw [dif_neg (by omega), dif_neg (by omega), readByte_writeByte hm, if_neg (by omega)]
    · by_cases h2 : k = a
      · subst h2
        rw [dif_neg (by omega), readByte_writeByte hm, if_pos rfl, dif_pos (by simp)]
        simp
      · by_cases h3 : k - a < rest.length + 1
        · rw [dif_pos (by omega), dif_pos (by simp; omega)]
          have : k - a = (k - (a + 1)) + 1 := by omega
          simp [this]
        · rw [dif_neg (by omega), dif_neg (by simp; omega), readByte_writeByte hm, if_neg h2]

@[simp] theorem split_length (w : Width) (v : Word) : (w.split v).length = w.bytes := by cases w <;> rfl

theorem wf_write {m : Memory} (hm : m.wf) {a : Nat} (w : Width) (v : Word) (h : a + w.bytes ≤ 2 ^ 32) :
    (m.write a w v).wf :=
  wf_writeBytes hm (by simpa using h)

/-- A store changes exactly its own bytes (R63). -/
theorem readByte_write {m : Memory} (hm : m.wf) {a : Nat} (w : Width) (v : Word) (h : a + w.bytes ≤ 2 ^ 32)
    (k : Nat) :
    (m.write a w v).readByte k =
      if hk : a ≤ k ∧ k - a < (w.split v).length then (w.split v)[k - a] else m.readByte k :=
  readByte_writeBytes hm (by simpa using h) k

theorem mem_write {m : Memory} {a : Nat} {w : Width} {v : Word} {c : Host.Cell} (h : c ∈ m.write a w v) :
    c ∈ m ∨ (a ≤ c.1 ∧ c.1 < a + w.bytes) := by
  simpa using mem_writeBytes h

theorem aligned_iff {w : Width} {a : Word} : aligned w a = true ↔ a.toNat % w.bytes = 0 := by simp [aligned]

/-- An aligned access of any width ends inside the address space. -/
theorem aligned_in_space {w : Width} {a : Word} (h : aligned w a = true) : a.toNat + w.bytes ≤ 2 ^ 32 := by
  have := a.isLt
  rw [aligned_iff] at h
  cases w <;> simp only [Width.bytes] at h ⊢ <;> omega

/-- The host's writes keep the canonical form (R325). -/
theorem wf_hostWrites (p : Platform) {m : Memory} (hm : m.wf) (ws : List (Word × Byte)) : (hostWrites p m ws).wf := by
  induction ws generalizing m with
  | nil => exact hm
  | cons c rest ih =>
    simp only [hostWrites]
    apply ih
    split
    · exact wf_writeByte hm c.1.isLt _
    · exact hm

/-- The host's writes list only old addresses and RAM addresses (R325). -/
theorem mem_hostWrites {p : Platform} {m : Memory} {ws : List (Word × Byte)} {c : Host.Cell}
    (h : c ∈ hostWrites p m ws) : c ∈ m ∨ p.kindAt c.1 = some .ram := by
  induction ws generalizing m with
  | nil => exact .inl h
  | cons d rest ih =>
    simp only [hostWrites] at h
    rcases ih h with h | h
    · split at h
      · rcases mem_writeByte h with h | ⟨rfl, -⟩
        · exact .inl h
        · right; simp_all
      · exact .inl h
    · exact .inr h

/-- The host's writes leave every byte outside RAM alone (R325). -/
theorem readByte_hostWrites {p : Platform} {m : Memory} (hm : m.wf) {ws : List (Word × Byte)} {k : Nat}
    (hk : p.kindAt k ≠ some .ram) : (hostWrites p m ws).readByte k = m.readByte k := by
  induction ws generalizing m with
  | nil => rfl
  | cons d rest ih =>
    simp only [hostWrites]
    split
    · rw [ih (wf_writeByte hm d.1.isLt _), readByte_writeByte hm, if_neg]
      rintro rfl; simp_all
    · exact ih hm

/-- What every address reads as after the host's writes: the last one to it counts, and only in RAM (R325). -/
theorem readByte_hostWrites_eq {p : Platform} {m : Memory} (hm : m.wf) (ws : List (Word × Byte)) (k : Nat) :
    (hostWrites p m ws).readByte k = if p.kindAt k = some .ram then
      ((ws.reverse.find? (fun c => c.1.toNat == k)).map (·.2)).getD (m.readByte k) else m.readByte k := by
  split
  case isFalse hk => exact readByte_hostWrites hm hk
  case isTrue hk =>
    induction ws generalizing m with
    | nil => rfl
    | cons d rest ih =>
      simp only [hostWrites, List.reverse_cons, List.find?_append]
      rw [ih (by split; exacts [wf_writeByte hm d.1.isLt _, hm])]
      cases rest.reverse.find? (fun c => c.1.toNat == k) with
      | some c => simp
      | none =>
        by_cases hd : d.1.toNat = k
        · subst hd; simp [hk, readByte_writeByte hm]
        · split <;> simp [readByte_writeByte hm, hd, Ne.symm hd]

/-! The image loader's data (R360 (2)). -/

theorem wf_loadData {m : Memory} (hm : m.wf) (a : Word) (bs : List Byte) : (m.loadData a bs).wf := by
  induction bs generalizing m a with
  | nil => exact hm
  | cons b rest ih => exact ih (wf_writeByte hm a.isLt b) _

/-- The data lists only old addresses and those it is stored at. -/
theorem mem_loadData {m : Memory} {a : Word} {bs : List Byte} {c : Host.Cell} (h : c ∈ m.loadData a bs) :
    c ∈ m ∨ ∃ i < bs.length, c.1 = (a + BitVec.ofNat 32 i).toNat := by
  induction bs generalizing m a with
  | nil => exact .inl h
  | cons b rest ih =>
    rcases ih h with h | ⟨i, hi, he⟩
    · rcases mem_writeByte h with h | ⟨he, -⟩
      · exact .inl h
      · exact .inr ⟨0, by simp, by rw [he]; simp⟩
    · refine .inr ⟨i + 1, by simpa using hi, ?_⟩
      rw [he, BitVec.ofNat_add, BitVec.add_comm (BitVec.ofNat 32 i), BitVec.add_assoc]; rfl

/-- What every address reads as after the data: the last byte stored to it counts. -/
theorem readByte_loadData {m : Memory} (hm : m.wf) (a : Word) (n : Nat) (bs : List Byte) (k : Nat) :
    (m.loadData (a + BitVec.ofNat 32 n) bs).readByte k =
      (((bs.zipIdx n).reverse.find? (fun c => (a + BitVec.ofNat 32 c.2).toNat == k)).map (·.1)).getD
        (m.readByte k) := by
  induction bs generalizing m n with
  | nil => rfl
  | cons b rest ih =>
    have e : a + BitVec.ofNat 32 n + 1 = a + BitVec.ofNat 32 (n + 1) := by
      rw [BitVec.ofNat_add, BitVec.add_assoc]; rfl
    simp only [loadData, e]
    rw [ih (wf_writeByte hm (a + BitVec.ofNat 32 n).isLt b), List.zipIdx_cons, List.reverse_cons, List.find?_append]
    cases (rest.zipIdx (n + 1)).reverse.find? (fun c => (a + BitVec.ofNat 32 c.2).toNat == k) with
    | some c => rfl
    | none =>
      rw [readByte_writeByte hm]
      by_cases hk : k = (a + BitVec.ofNat 32 n).toNat
      · subst hk; simp
      · rw [if_neg hk, List.find?_singleton, if_neg (by simpa using Ne.symm hk)]; rfl

/-- Reset memory is canonical. -/
theorem wf_reset : State.reset.mem.wf := by decide

end Sys2Proof.Machine.Memory
end

