-- ==== Sys2Proof/Laws/Decode.lean ====
section
/-! SUPPORT. The fields of the words the formats build (spec 30 R101 to R104), and bytes of words. -/

namespace Sys2Proof

@[simp] theorem regField_regBits (r : Reg) : regField (regBits r) = r := by
  apply Fin.ext; simp [regField, regBits]

@[simp] theorem regBits_regField (v : BitVec 5) : regBits (regField v) = v := by
  simp [regField, regBits]

theorem regBits_zero : regBits 0 = 0#5 := rfl

@[simp] theorem rWord_opcodeOf (op : BitVec 6) (rs rt rd : Reg) (sh : BitVec 5) (fn : BitVec 6) : opcodeOf (rWord op rs rt rd sh fn) = op := by
  unfold opcodeOf rWord; ext i hi; simp; grind

@[simp] theorem rWord_rdOf (op : BitVec 6) (rs rt rd : Reg) (sh : BitVec 5) (fn : BitVec 6) : rdOf (rWord op rs rt rd sh fn) = rd := by
  have h : (rWord op rs rt rd sh fn).extractLsb' 11 5 = regBits rd := by unfold rWord; ext i hi; simp; grind
  simp [rdOf, h]

@[simp] theorem rWord_shamtOf (op : BitVec 6) (rs rt rd : Reg) (sh : BitVec 5) (fn : BitVec 6) : shamtOf (rWord op rs rt rd sh fn) = sh := by
  unfold shamtOf rWord; ext i hi; simp; grind

@[simp] theorem rWord_functOf (op : BitVec 6) (rs rt rd : Reg) (sh : BitVec 5) (fn : BitVec 6) : functOf (rWord op rs rt rd sh fn) = fn := by
  unfold functOf rWord; ext i hi; simp; grind

@[simp] theorem rWord_rsBits (op : BitVec 6) (rs rt rd : Reg) (sh : BitVec 5) (fn : BitVec 6) : rsBits (rWord op rs rt rd sh fn) = regBits rs := by
  unfold rsBits rWord; ext i hi; simp; grind

@[simp] theorem rWord_rtBits (op : BitVec 6) (rs rt rd : Reg) (sh : BitVec 5) (fn : BitVec 6) : rtBits (rWord op rs rt rd sh fn) = regBits rt := by
  unfold rtBits rWord; ext i hi; simp; grind

@[simp] theorem rWord_rsOf (op : BitVec 6) (rs rt rd : Reg) (sh : BitVec 5) (fn : BitVec 6) : rsOf (rWord op rs rt rd sh fn) = rs := by
  simp [rsOf]

@[simp] theorem rWord_rtOf (op : BitVec 6) (rs rt rd : Reg) (sh : BitVec 5) (fn : BitVec 6) : rtOf (rWord op rs rt rd sh fn) = rt := by
  simp [rtOf]

@[simp] theorem iWord_opcodeOf (op : BitVec 6) (rs rt : Reg) (imm : BitVec 16) : opcodeOf (iWord op rs rt imm) = op := by
  unfold opcodeOf iWord; ext i hi; simp; grind

@[simp] theorem iWord_immOf (op : BitVec 6) (rs rt : Reg) (imm : BitVec 16) : immOf (iWord op rs rt imm) = imm := by
  unfold immOf iWord; ext i hi; simp; grind

@[simp] theorem iWord_rsBits (op : BitVec 6) (rs rt : Reg) (imm : BitVec 16) : rsBits (iWord op rs rt imm) = regBits rs := by
  unfold rsBits iWord; ext i hi; simp; grind

@[simp] theorem iWord_rtBits (op : BitVec 6) (rs rt : Reg) (imm : BitVec 16) : rtBits (iWord op rs rt imm) = regBits rt := by
  unfold rtBits iWord; ext i hi; simp; grind

@[simp] theorem iWord_rsOf (op : BitVec 6) (rs rt : Reg) (imm : BitVec 16) : rsOf (iWord op rs rt imm) = rs := by
  simp [rsOf]

@[simp] theorem iWord_rtOf (op : BitVec 6) (rs rt : Reg) (imm : BitVec 16) : rtOf (iWord op rs rt imm) = rt := by
  simp [rtOf]

@[simp] theorem jWord_opcodeOf (op : BitVec 6) (ix : BitVec 26) : opcodeOf (jWord op ix) = op := by
  unfold opcodeOf jWord; ext i hi; simp; grind

@[simp] theorem jWord_indexOf (op : BitVec 6) (ix : BitVec 26) : indexOf (jWord op ix) = ix := by
  unfold indexOf jWord; ext i hi; simp; grind

@[simp] theorem codeWord_opcodeOf (c : BitVec 20) (fn : BitVec 6) : opcodeOf (codeWord c fn) = 0 := by
  unfold opcodeOf codeWord; ext i hi; simp; grind

@[simp] theorem codeWord_codeOf (c : BitVec 20) (fn : BitVec 6) : codeOf (codeWord c fn) = c := by
  unfold codeOf codeWord; ext i hi; simp; grind

@[simp] theorem codeWord_functOf (c : BitVec 20) (fn : BitVec 6) : functOf (codeWord c fn) = fn := by
  unfold functOf codeWord; ext i hi; simp; grind

/-! What it means to agree with a row on each shape of mask in the table. -/

theorem and_mask_opcode (w : Word) (c : BitVec 6) :
    w &&& (0xFC000000 : Word) = (c ++ 0#26 : Word) ↔ opcodeOf w = c := by
  constructor
  · intro h
    have h0 : (w &&& (0xFC000000 : Word)).extractLsb' 26 6 = c := by rw [h]; ext i hi; simp; grind
    rw [← h0]
    ext i hi
    simp only [opcodeOf, BitVec.getElem_extractLsb', BitVec.getLsbD_and]
    interval_cases i <;> simp
  · rintro rfl
    apply BitVec.eq_of_getLsbD_eq
    intro i hi
    simp only [opcodeOf, BitVec.getLsbD_append, BitVec.getLsbD_and, BitVec.getLsbD_extractLsb']
    interval_cases i <;> simp

theorem and_mask_opcode_funct (w : Word) (c f : BitVec 6) :
    w &&& (0xFC00003F : Word) = (c ++ 0#20 ++ f : Word) ↔ opcodeOf w = c ∧ functOf w = f := by
  constructor
  · intro h
    have h0 : (w &&& (0xFC00003F : Word)).extractLsb' 26 6 = c := by rw [h]; ext i hi; simp; grind
    have h1 : (w &&& (0xFC00003F : Word)).extractLsb' 0 6 = f := by rw [h]; ext i hi; simp; grind
    rw [← h0, ← h1]
    constructor <;> ext i hi <;> simp only [opcodeOf, functOf, BitVec.getElem_extractLsb', BitVec.getLsbD_and] <;>
      interval_cases i <;> simp
  · rintro ⟨rfl, rfl⟩
    apply BitVec.eq_of_getLsbD_eq
    intro i hi
    simp only [opcodeOf, functOf, BitVec.getLsbD_append, BitVec.getLsbD_and, BitVec.getLsbD_extractLsb']
    interval_cases i <;> simp

theorem and_mask_opcode_rt (w : Word) (c : BitVec 6) (r : BitVec 5) :
    w &&& (0xFC1F0000 : Word) = (c ++ 0#5 ++ r ++ 0#16 : Word) ↔ opcodeOf w = c ∧ rtBits w = r := by
  constructor
  · intro h
    have h0 : (w &&& (0xFC1F0000 : Word)).extractLsb' 26 6 = c := by rw [h]; ext i hi; simp; grind
    have h1 : (w &&& (0xFC1F0000 : Word)).extractLsb' 16 5 = r := by rw [h]; ext i hi; simp; grind
    rw [← h0, ← h1]
    constructor <;> ext i hi <;> simp only [opcodeOf, rtBits, BitVec.getElem_extractLsb', BitVec.getLsbD_and] <;>
      interval_cases i <;> simp
  · rintro ⟨rfl, rfl⟩
    apply BitVec.eq_of_getLsbD_eq
    intro i hi
    simp only [opcodeOf, rtBits, BitVec.getLsbD_append, BitVec.getLsbD_and, BitVec.getLsbD_extractLsb']
    interval_cases i <;> simp

theorem and_mask_opcode_rs (w : Word) (c : BitVec 6) (r : BitVec 5) :
    w &&& (0xFFE00000 : Word) = (c ++ r ++ 0#21 : Word) ↔ opcodeOf w = c ∧ rsBits w = r := by
  constructor
  · intro h
    have h0 : (w &&& (0xFFE00000 : Word)).extractLsb' 26 6 = c := by rw [h]; ext i hi; simp; grind
    have h1 : (w &&& (0xFFE00000 : Word)).extractLsb' 21 5 = r := by rw [h]; ext i hi; simp; grind
    rw [← h0, ← h1]
    constructor <;> ext i hi <;> simp only [opcodeOf, rsBits, BitVec.getElem_extractLsb', BitVec.getLsbD_and] <;>
      interval_cases i <;> simp
  · rintro ⟨rfl, rfl⟩
    apply BitVec.eq_of_getLsbD_eq
    intro i hi
    simp only [opcodeOf, rsBits, BitVec.getLsbD_append, BitVec.getLsbD_and, BitVec.getLsbD_extractLsb']
    interval_cases i <;> simp

/-- The mask of ERET's row: opcode, bit 25 and funct (R117). -/
theorem and_mask_eret (w : Word) :
    w &&& (0xFE00003F : Word) = (0x42000018 : Word) ↔
      opcodeOf w = 0x10#6 ∧ (rsBits w).msb = true ∧ functOf w = 0x18#6 := by
  have e : (0x42000018 : Word) = (0x10#6 ++ 1#1 ++ 0#19 ++ 0x18#6 : Word) := by decide
  rw [e]
  constructor
  · intro h
    have h0 : (w &&& (0xFE00003F : Word)).extractLsb' 26 6 = 0x10#6 := by rw [h]; decide
    have h1 : (w &&& (0xFE00003F : Word)).getLsbD 25 = true := by rw [h]; decide
    have h2 : (w &&& (0xFE00003F : Word)).extractLsb' 0 6 = 0x18#6 := by rw [h]; decide
    rw [← h0, ← h1, ← h2]
    refine ⟨?_, by simp [rsBits, BitVec.msb_eq_getLsbD_last], ?_⟩ <;> ext i hi <;>
      simp only [opcodeOf, functOf, BitVec.getElem_extractLsb', BitVec.getLsbD_and] <;> interval_cases i <;> simp
  · rintro ⟨h0, h1, h2⟩
    rw [← h0, ← h2, show (1#1 : BitVec 1) = BitVec.ofBool (rsBits w).msb by rw [h1]; rfl]
    apply BitVec.eq_of_getLsbD_eq
    intro i hi
    simp only [opcodeOf, functOf, rsBits, BitVec.msb_eq_getLsbD_last, BitVec.getLsbD_append, BitVec.getLsbD_and,
      BitVec.getLsbD_extractLsb', BitVec.getLsbD_ofBool]
    interval_cases i <;> simp

/-! The words of the formats, rebuilt from the fields of a word: what an encoding keeps of the word (R107). -/

theorem rWord_rs_rt_rd_eq_and (w : Word) :
    rWord (opcodeOf w) (rsOf w) (rtOf w) (rdOf w) 0 (functOf w) = w &&& 0xFFFFF83F := by
  apply BitVec.eq_of_getLsbD_eq; intro i hi
  simp only [rWord, opcodeOf, functOf, rsOf, rtOf, rdOf, rsBits, rtBits, regBits_regField,
    BitVec.getLsbD_append, BitVec.getLsbD_and, BitVec.getLsbD_extractLsb']
  interval_cases i <;> simp

theorem rWord_rt_rd_shamt_eq_and (w : Word) :
    rWord (opcodeOf w) 0 (rtOf w) (rdOf w) (shamtOf w) (functOf w) = w &&& 0xFC1FFFFF := by
  apply BitVec.eq_of_getLsbD_eq; intro i hi
  simp only [rWord, opcodeOf, functOf, rtOf, rdOf, shamtOf, rtBits, regBits_regField, regBits_zero,
    BitVec.getLsbD_append, BitVec.getLsbD_and, BitVec.getLsbD_extractLsb']
  interval_cases i <;> simp

theorem rWord_rs_rt_eq_and (w : Word) :
    rWord (opcodeOf w) (rsOf w) (rtOf w) 0 0 (functOf w) = w &&& 0xFFFF003F := by
  apply BitVec.eq_of_getLsbD_eq; intro i hi
  simp only [rWord, opcodeOf, functOf, rsOf, rtOf, rsBits, rtBits, regBits_regField, regBits_zero,
    BitVec.getLsbD_append, BitVec.getLsbD_and, BitVec.getLsbD_extractLsb']
  interval_cases i <;> simp

theorem rWord_rd_eq_and (w : Word) :
    rWord (opcodeOf w) 0 0 (rdOf w) 0 (functOf w) = w &&& 0xFC00F83F := by
  apply BitVec.eq_of_getLsbD_eq; intro i hi
  simp only [rWord, opcodeOf, functOf, rdOf, regBits_regField, regBits_zero,
    BitVec.getLsbD_append, BitVec.getLsbD_and, BitVec.getLsbD_extractLsb']
  interval_cases i <;> simp

theorem rWord_rs_eq_and (w : Word) :
    rWord (opcodeOf w) (rsOf w) 0 0 0 (functOf w) = w &&& 0xFFE0003F := by
  apply BitVec.eq_of_getLsbD_eq; intro i hi
  simp only [rWord, opcodeOf, functOf, rsOf, rsBits, regBits_regField, regBits_zero,
    BitVec.getLsbD_append, BitVec.getLsbD_and, BitVec.getLsbD_extractLsb']
  interval_cases i <;> simp

theorem rWord_rs_rd_eq_and (w : Word) :
    rWord (opcodeOf w) (rsOf w) 0 (rdOf w) 0 (functOf w) = w &&& 0xFFE0F83F := by
  apply BitVec.eq_of_getLsbD_eq; intro i hi
  simp only [rWord, opcodeOf, functOf, rsOf, rdOf, rsBits, regBits_regField, regBits_zero,
    BitVec.getLsbD_append, BitVec.getLsbD_and, BitVec.getLsbD_extractLsb']
  interval_cases i <;> simp

theorem rWord_cp0_eq_and (w : Word) :
    rWord (opcodeOf w) (rsOf w) (rtOf w) (rdOf w) 0 0 = w &&& 0xFFFFF800 := by
  apply BitVec.eq_of_getLsbD_eq; intro i hi
  simp only [rWord, opcodeOf, rsOf, rtOf, rdOf, rsBits, rtBits, regBits_regField,
    BitVec.getLsbD_append, BitVec.getLsbD_and, BitVec.getLsbD_extractLsb']
  interval_cases i <;> simp

theorem iWord_rs_rt_eq_and (w : Word) :
    iWord (opcodeOf w) (rsOf w) (rtOf w) (immOf w) = w &&& 0xFFFFFFFF := by
  apply BitVec.eq_of_getLsbD_eq; intro i hi
  simp only [iWord, opcodeOf, rsOf, rtOf, immOf, rsBits, rtBits, regBits_regField,
    BitVec.getLsbD_append, BitVec.getLsbD_and, BitVec.getLsbD_extractLsb']
  interval_cases i <;> simp

theorem iWord_rt_eq_and (w : Word) :
    iWord (opcodeOf w) 0 (rtOf w) (immOf w) = w &&& 0xFC1FFFFF := by
  apply BitVec.eq_of_getLsbD_eq; intro i hi
  simp only [iWord, opcodeOf, rtOf, immOf, rtBits, regBits_regField, regBits_zero,
    BitVec.getLsbD_append, BitVec.getLsbD_and, BitVec.getLsbD_extractLsb']
  interval_cases i <;> simp

theorem iWord_rs_eq_and (w : Word) :
    iWord (opcodeOf w) (rsOf w) 0 (immOf w) = w &&& 0xFFE0FFFF := by
  apply BitVec.eq_of_getLsbD_eq; intro i hi
  simp only [iWord, opcodeOf, rsOf, immOf, rsBits, regBits_regField, regBits_zero,
    BitVec.getLsbD_append, BitVec.getLsbD_and, BitVec.getLsbD_extractLsb']
  interval_cases i <;> simp

theorem jWord_index_eq_and (w : Word) :
    jWord (opcodeOf w) (indexOf w) = w &&& 0xFFFFFFFF := by
  apply BitVec.eq_of_getLsbD_eq; intro i hi
  simp only [jWord, opcodeOf, indexOf,
    BitVec.getLsbD_append, BitVec.getLsbD_and, BitVec.getLsbD_extractLsb']
  interval_cases i <;> simp

theorem codeWord_eq_and {w : Word} (h : opcodeOf w = 0) :
    codeWord (codeOf w) (functOf w) = w &&& 0xFFFFFFFF := by
  have e : codeWord (codeOf w) (functOf w) = (opcodeOf w ++ codeOf w ++ functOf w : Word) := by rw [h]; rfl
  rw [e]
  apply BitVec.eq_of_getLsbD_eq; intro i hi
  simp only [codeOf, opcodeOf, functOf, BitVec.getLsbD_append, BitVec.getLsbD_and, BitVec.getLsbD_extractLsb']
  interval_cases i <;> simp

/-- The four bytes of a word assemble to it (R64). -/
@[simp] theorem wordOfBytes_split (w : Word) :
    wordOfBytes (w.extractLsb' 24 8) (w.extractLsb' 16 8) (w.extractLsb' 8 8) (w.extractLsb' 0 8) = w := by
  unfold wordOfBytes; ext i hi; simp; grind

/-- Four bytes decode as the word they make, whatever follows (R100, R105). -/
@[simp] theorem decodeBytes_bytesOfWord (w : Word) (rest : List Byte) :
    decodeBytes (bytesOfWord w ++ rest) = some (decode w, rest) := by
  simp [decodeBytes, bytesOfWord]

end Sys2Proof
end

