-- ==== Sys2Proof/Laws/Results.lean ====
section
/-! SUPPORT. One lemma for each shared operation that says what it does, in the terms claims use (Safety.lean): later
proofs cite these and unfold neither the operation nor the record update under it. -/

namespace Sys2Proof.Machine

theorem KeepsRegs.refl (s : State) : KeepsRegs s s := fun _ => rfl

/-- The register write of R14. -/
theorem writesReg_setReg (s : State) (rd : Reg) (v : Word) : WritesReg s (s.setReg rd v) rd v :=
  ⟨State.setReg_reg_self s rd v, fun _ h => State.setReg_reg_of_ne s v h⟩

/-- A committed register result (R14, R221). -/
theorem result_spec (s : State) (rd : Reg) (v : Word) : RegisterResult s (s.result rd v) rd v :=
  ⟨writesReg_setReg s rd v, ⟨s.nextPc_eq, rfl⟩, ⟨rfl, rfl⟩, ⟨rfl, rfl, rfl, rfl⟩, fun _ => rfl, ⟨rfl, rfl⟩,
    ⟨rfl, rfl, rfl⟩, rfl, rfl, rfl, rfl, rfl, rfl, rfl, rfl, rfl, rfl⟩

/-- A committed HI/LO result (R27, R221). -/
theorem setHiLo_spec (s : State) (hi lo : Word) : HiLoResult s (s.setHiLo hi lo).advance hi lo :=
  ⟨rfl, rfl, ⟨s.nextPc_eq, rfl⟩, fun _ => rfl, ⟨rfl, rfl, rfl, rfl⟩, fun _ => rfl, ⟨rfl, rfl⟩,
    ⟨rfl, rfl, rfl⟩, rfl, rfl, rfl, rfl, rfl, rfl, rfl, rfl, rfl, rfl⟩

/-- The sign test in integers (R224). -/
theorem isNegative_eq (a : Word) : isNegative a = decide (a.toInt < 0) := by
  simp [isNegative, BitVec.msb_eq_toInt]

/-- The test of BLEZ in integers (R224, R227). -/
theorem isNonPositive_eq (a : Word) : isNonPositive a = decide (a.toInt ≤ 0) := by
  have h : (a == 0) = decide (a.toInt = 0) := by
    by_cases h : a = 0
    · subst h; decide
    · simpa [show a.toInt ≠ 0 from fun e => h (BitVec.eq_of_toInt_eq (by simpa using e))] using h
  rw [isNonPositive, BitVec.msb_eq_toInt, h, ← Bool.decide_or]
  exact decide_eq_decide.2 (by omega)

/-- A conditional branch (R220, R221). -/
theorem branch_spec (s : State) (c : Bool) (imm : BitVec 16) :
    JumpResult s (s.branch c imm) (if c then some (branchTarget s.pc imm) else none) := by
  rw [State.branch_eq]
  exact ⟨⟨s.nextPc_eq, rfl⟩, fun _ => rfl, ⟨rfl, rfl⟩, ⟨rfl, rfl, rfl, rfl⟩, fun _ => rfl, ⟨rfl, rfl⟩,
    ⟨rfl, rfl, rfl⟩, rfl, rfl, rfl, rfl, rfl, rfl, rfl, rfl, rfl, rfl⟩

/-- A jump (R220, R221). -/
theorem jumpTo_spec (s : State) (a : Word) : JumpResult s (s.jumpTo a) (some a) :=
  ⟨⟨s.nextPc_eq, rfl⟩, fun _ => rfl, ⟨rfl, rfl⟩, ⟨rfl, rfl, rfl, rfl⟩, fun _ => rfl, ⟨rfl, rfl⟩,
    ⟨rfl, rfl, rfl⟩, rfl, rfl, rfl, rfl, rfl, rfl, rfl, rfl, rfl, rfl⟩

/-- A branch or jump after its link (R224). -/
theorem link_spec {s t : State} {rd : Reg} {p : Option Word} (h : JumpResult (s.setReg rd (s.pc + 8)) t p) :
    LinkResult s t rd p := by
  obtain ⟨hq, hr, hl, hc, hm, hk, hn, ho⟩ := h
  exact ⟨⟨(hr rd).trans (State.setReg_reg_self s rd _), fun q hq => (hr q).trans (State.setReg_reg_of_ne s _ hq)⟩,
    hq, hl, hc, hm, hk, hn, ho⟩

/-- Trap entry with a handler installed (R312). -/
theorem enter_installed {s : State} (h : s.platform.handlerInstalled = true) (ev : Event) :
    s.enter ev = { s with
      cause := { s.cause with excCode := ev.kind.code }
      epc := s.pc
      badVAddr := ev.kind.badAddr.getD s.badVAddr
      status := { s.status with exl := true }
      delay := none
      pc := s.platform.excVector
      runState := .running } := by
  simp [State.enter, h]

/-- Trap entry with no handler installed (R313). -/
theorem enter_notInstalled {s : State} (h : s.platform.handlerInstalled = false) (ev : Event) :
    s.enter ev = { s with
      cause := { s.cause with excCode := ev.kind.code }
      epc := s.pc
      badVAddr := ev.kind.badAddr.getD s.badVAddr
      status := { s.status with exl := true }
      delay := none
      runState := .halted
      stopReason := some (.noHandler ev) } := by
  simp [State.enter, h, State.halt]

/-- The three things a synchronous exception can come to (R311). -/
theorem raise_masked {s : State} {k : ExcKind} (h : s.status.exl = true) (hk : k ≠ .int) :
    s.raise k = { s with
      lastEvent := some ⟨k, s.pc⟩, runState := .halted, stopReason := some (.fatal ⟨k, s.pc⟩) } := by
  cases k <;> simp_all [State.raise, State.controller, State.halt]

theorem raise_enter {s : State} {k : ExcKind} (h : k = .int ∨ s.status.exl = false)
    (hs : k ≠ .sys ∨ s.platform.syscallHosted = false) :
    s.raise k = { s with lastEvent := some ⟨k, s.pc⟩ }.enter ⟨k, s.pc⟩ := by
  cases k <;> simp_all [State.raise, State.controller]

theorem raise_hosted {s : State} (h : s.status.exl = false) (hs : s.platform.syscallHosted = true) :
    s.raise .sys = { s with lastEvent := some ⟨.sys, s.pc⟩ }.hostedSyscall := by
  simp [State.raise, State.controller, h, hs]

/-- The exception taken, in the terms claims use (R312). -/
theorem raise_taken {s : State} {k : ExcKind} (h : k = .int ∨ s.status.exl = false)
    (hi : s.platform.handlerInstalled = true) (hs : k ≠ .sys ∨ s.platform.syscallHosted = false) :
    TrapTaken s (s.raise k) k := by
  rw [raise_enter h hs, enter_installed (s := { s with lastEvent := some ⟨k, s.pc⟩ }) hi]
  refine ⟨⟨rfl, rfl, rfl, ?_, ?_, rfl, rfl, rfl, rfl, rfl, fun _ => rfl, ⟨rfl, rfl⟩, fun _ => rfl, ⟨rfl, rfl⟩,
    rfl, rfl, rfl, rfl, rfl, rfl, rfl, rfl, rfl, rfl⟩, rfl, rfl, rfl⟩
  · rintro a (rfl | rfl) <;> rfl
  · intro hn; cases k <;> simp_all [ExcKind.badAddr]

/-- The exception with no handler installed, in the terms claims use (R313). -/
theorem raise_noHandler {s : State} {k : ExcKind} (h : k = .int ∨ s.status.exl = false)
    (hi : s.platform.handlerInstalled = false) (hs : k ≠ .sys ∨ s.platform.syscallHosted = false) :
    NoHandlerStop s (s.raise k) k := by
  rw [raise_enter h hs, enter_notInstalled (s := { s with lastEvent := some ⟨k, s.pc⟩ }) hi]
  refine ⟨⟨rfl, rfl, rfl, ?_, ?_, rfl, rfl, rfl, rfl, rfl, fun _ => rfl, ⟨rfl, rfl⟩, fun _ => rfl, ⟨rfl, rfl⟩,
    rfl, rfl, rfl, rfl, rfl, rfl, rfl, rfl, rfl, rfl⟩, rfl, rfl, rfl⟩
  · rintro a (rfl | rfl) <;> rfl
  · intro hn; cases k <;> simp_all [ExcKind.badAddr]

/-- What becomes of an exception that no service takes (R311). -/
theorem raise_exceptionRaised {s : State} {k : ExcKind} (hk : k ≠ .int)
    (hs : k ≠ .sys ∨ s.platform.syscallHosted = false ∨ s.status.exl = true) : ExceptionRaised s (s.raise k) k := by
  refine ⟨fun h => ?_, fun h hi => raise_taken (.inr h) hi (by simpa [h] using hs),
    fun h hi => raise_noHandler (.inr h) hi (by simpa [h] using hs)⟩
  rw [raise_masked h hk]
  exact ⟨rfl, rfl, rfl, rfl, rfl, fun _ => rfl, ⟨rfl, rfl⟩, ⟨rfl, rfl, rfl, rfl⟩, fun _ => rfl, ⟨rfl, rfl⟩,
    rfl, rfl, rfl, rfl, rfl, rfl, rfl, rfl, rfl, rfl⟩

/-- No exception writes a byte of memory, but for the host's service (R309, R325). -/
theorem raise_mem {s : State} {k : ExcKind} (hs : k ≠ .sys ∨ s.platform.syscallHosted = false) :
    (s.raise k).mem = s.mem := by
  by_cases h : k = .int ∨ s.status.exl = false
  · rw [raise_enter h hs]
    cases hi : s.platform.handlerInstalled
    · rw [enter_notInstalled (s := { s with lastEvent := some ⟨k, s.pc⟩ }) hi]
    · rw [enter_installed (s := { s with lastEvent := some ⟨k, s.pc⟩ }) hi]
  · rw [raise_masked (by simp_all) (by tauto)]

end Sys2Proof.Machine
end

