-- ==== Sys2Proof/Laws/Port.lean ====
section
/-! SUPPORT. What the memory port and the syscall service port do, case by case: later proofs cite these cases and
unfold neither `load`, `store` nor `hostedSyscall`. -/

namespace Sys2Proof.Machine.State

/-! The region map. -/

/-- A storage region is RAM or ROM, and no other case is. -/
theorem isStorage_iff {p : Platform} {a : Nat} :
    p.isStorage a = true ↔ p.kindAt a = some .ram ∨ p.kindAt a = some .rom := by
  simp [Platform.isStorage]

theorem readable_iff {p : Platform} {a : Nat} :
    p.readable a = true ↔ p.isStorage a = true ∨ p.kindAt a = some .consoleIn := by
  simp [Platform.readable]

theorem writable_iff {p : Platform} {a : Nat} :
    p.writable a = true ↔ p.kindAt a = some .ram ∨ p.kindAt a = some .consoleOut := by
  simp [Platform.writable]

theorem handlerInstalled_iff {p : Platform} :
    p.handlerInstalled = true ↔ p.excVector.toNat % 4 = 0 ∧ p.isStorage p.excVector.toNat = true := by
  simp [Platform.handlerInstalled, Platform.fetchable]

theorem kindAt_of_regionAt {p : Platform} {a : Nat} {r : Region} (h : p.regionAt a = some r) :
    p.kindAt a = some r.kind := by
  simp [Platform.kindAt, h]

/-! Loads (R250, R62, R73). -/

theorem load_faults {s : State} {w : Width} {e : Extension} {rt : Reg} {a : Word}
    (h : aligned w a = false ∨ s.platform.readable a.toNat = false) : s.load w e rt a = s.raise (.adel a) := by
  have : s.loadFaults w a = true := by rcases h with h | h <;> simp [loadFaults, h]
  simp [load, raiseIf, this]

theorem memRead_storage {s : State} {w : Width} {a : Word} (h : s.platform.isStorage a.toNat = true) :
    s.memRead w a = some (s.mem.read a.toNat w, s) := by
  unfold memRead
  cases hr : s.platform.regionAt a.toNat with
  | none => simp [Platform.isStorage, Platform.kindAt, hr] at h
  | some r =>
    have := kindAt_of_regionAt hr
    rw [isStorage_iff, this] at h
    rcases h with h | h <;> simp at h <;> simp [h]

theorem load_storage {s : State} {w : Width} {e : Extension} {rt : Reg} {a : Word} (ha : aligned w a = true)
    (h : s.platform.isStorage a.toNat = true) :
    s.load w e rt a = s.result rt (extend w e (s.mem.read a.toNat w)) := by
  have : s.loadFaults w a = false := by simp [loadFaults, ha, Platform.readable, h]
  simp [load, raiseIf, this, memRead_storage h]

theorem load_console {s : State} {w : Width} {e : Extension} {rt : Reg} {a : Word} {r : Region}
    (ha : aligned w a = true) (hr : s.platform.regionAt a.toNat = some r) (hk : r.kind = .consoleIn) :
    (s.consoleRead (r.wordIndex a.toNat) = none → s.load w e rt a = s.holdFor .consoleInput) ∧
    ∀ v t, s.consoleRead (r.wordIndex a.toNat) = some (v, t) → s.load w e rt a = t.result rt (extend w e v) := by
  have : s.loadFaults w a = false := by
    simp [loadFaults, ha, readable_iff.2 (.inr ((kindAt_of_regionAt hr).trans (by rw [hk])))]
  constructor <;> intros <;> simp_all [load, raiseIf, memRead]

/-- A load form is a load of its width, and its extension is the form's (R250 to R255). -/
theorem exec_loadForm {rt rs : Reg} {imm : BitVec 16} {i : Instr} {w : Width} {f : Word → Word}
    (h : LoadForm rt imm rs i w f) : ∃ e : Extension, (∀ v, extend w e v = f v) ∧
      ∀ s : State, exec i s = .next (s.load w e rt (effAddr (s.reg rs) imm)) := by
  cases h
  · exact ⟨.signed, fun v => by simp [extend, BitVec.setWidth_eq_extractLsb'], fun _ => rfl⟩
  · exact ⟨.unsigned, fun v => by simp [extend, BitVec.setWidth_eq_extractLsb'], fun _ => rfl⟩
  · exact ⟨.signed, fun v => by simp [extend, BitVec.setWidth_eq_extractLsb'], fun _ => rfl⟩
  · exact ⟨.unsigned, fun v => by simp [extend, BitVec.setWidth_eq_extractLsb'], fun _ => rfl⟩
  · exact ⟨.unsigned, fun _ => rfl, fun _ => rfl⟩

/-! Stores (R250, R63). -/

theorem store_faults {s : State} {w : Width} {rt : Reg} {a : Word}
    (h : aligned w a = false ∨ s.platform.writable a.toNat = false) : s.store w rt a = s.raise (.ades a) := by
  have : s.storeFaults w a = true := by rcases h with h | h <;> simp [storeFaults, h]
  simp [store, raiseIf, this]

theorem memWrite_ram {s : State} {w : Width} {a v : Word} (h : s.platform.kindAt a.toNat = some .ram) :
    s.memWrite w a v = { s with mem := s.mem.write a.toNat w v } := by
  simp [memWrite, h]

theorem store_ram {s : State} {w : Width} {rt : Reg} {a : Word} (ha : aligned w a = true)
    (h : s.platform.kindAt a.toNat = some .ram) :
    s.store w rt a = { s with mem := s.mem.write a.toNat w (s.reg rt), pc := s.nextPc, delay := none } := by
  have : s.storeFaults w a = false := by simp [storeFaults, ha, writable_iff.2 (.inl h)]
  simp [store, raiseIf, this, memWrite_ram h, advance, nextPc]

theorem store_console {s : State} {w : Width} {rt : Reg} {a : Word} (ha : aligned w a = true)
    (h : s.platform.kindAt a.toNat = some .consoleOut) :
    s.store w rt a = { s with
      consoleOut := s.consoleOut ++ [(s.reg rt).extractLsb' 0 8], pc := s.nextPc, delay := none } := by
  have : s.storeFaults w a = false := by simp [storeFaults, ha, writable_iff.2 (.inr h)]
  simp [store, raiseIf, this, memWrite, h, advance, nextPc]

/-! The syscall service port (R323, R325). -/

theorem hostedSyscall_unrecognized {s : State} (h : s.service = none) :
    s.hostedSyscall = { s with
      cause := { s.cause with excCode := 8 }, epc := s.pc, lastEvent := some ⟨.ri, s.pc⟩ }.enter ⟨.ri, s.pc⟩ := by
  unfold hostedSyscall; rw [h]; rfl

theorem hostedSyscall_answered {s : State} {k : ServiceKind} (h : s.service = some k) {r : ServiceReply}
    {rest : List ServiceReply} (ha : s.answers = r :: rest) :
    s.hostedSyscall = serve { s with cause := { s.cause with excCode := 8 }, epc := s.pc, answers := rest } r := by
  unfold hostedSyscall; rw [h, ha]; rfl

theorem hostedSyscall_exit {s : State} (h : s.service = some .exit) (ha : s.answers = []) :
    s.hostedSyscall = { s with
      cause := { s.cause with excCode := 8 }, epc := s.pc, runState := .halted, stopReason := some .programExit } := by
  unfold hostedSyscall; rw [h, ha]; rfl

theorem hostedSyscall_waits {s : State} (h : s.service = some .external) (ha : s.answers = []) :
    s.hostedSyscall = { s with
      cause := { s.cause with excCode := 8 }, epc := s.pc, hold := some .serviceAnswer } := by
  unfold hostedSyscall; rw [h, ha]; rfl

/-- What an answer changes: r2, RAM bytes and the console streams (R325). -/
theorem applyReply_eq (s : State) (r : ServiceReply) :
    s.applyReply r = { s with
      regs := match r.result with
        | some v => s.regs.set 2 v
        | none => s.regs
      mem := hostWrites s.platform s.mem r.ramWrites
      consoleOut := s.consoleOut ++ r.emitted
      consoleIn := s.consoleIn.drop r.consumed } := by
  cases h : r.result <;> simp [applyReply, h, setReg, Config.retReg]

/-- How a service ends: with Resume the machine moves on, with Exit and Fault it halts where it is (R323). -/
theorem serve_eq (s : State) (r : ServiceReply) :
    s.serve r = match r.verdict with
      | .resume => { s.applyReply r with pc := s.nextPc, delay := none, runState := .running }
      | .exit => { s.applyReply r with runState := .halted, stopReason := some .programExit }
      | .fault => { s.applyReply r with runState := .halted, stopReason := some .syscallFault } := by
  rw [serve, applyReply_eq]
  cases r.verdict <;> rfl

end Sys2Proof.Machine.State
end

