-- ==== Sys2Proof/Laws/Step.lean ====
section
/-! SUPPORT. A step, branch by branch (R300), so that no proof unfolds `step`. -/

namespace Sys2Proof.Machine

/-! The branches of `runInstruction`. -/

theorem State.runInstruction_noFetch {s : State} {b : Bool} (h : s.fetch = none) :
    s.runInstruction b = .next (s.raise (.adel s.pc)) := by
  simp [runInstruction, h]

theorem State.runInstruction_reserved {s : State} {b : Bool} {w : Word} (h : s.fetch = some w)
    (hd : decode w = .reservedInstruction) : s.runInstruction b = .next (s.raise .ri) := by
  simp [runInstruction, h, hd]

/-- No instruction detects an interrupt as its own exception. -/
theorem detect_ne_int (i : Instr) (s : State) : detect i s ≠ some .int := by
  cases i <;>
    simp [detect, detectOverflow, State.detectLoad, State.detectStore, detectCp0]

theorem State.runInstruction_operation {s : State} {b : Bool} {w : Word} {i : Instr} (h : s.fetch = some w)
    (hd : decode w = .operation i) (hn : detect i s ≠ none ∨ b = false ∨ s.interrupt = none) :
    s.runInstruction b = exec i s := by
  have hi := detect_ne_int i s
  simp only [runInstruction, h, hd]
  split
  · rename_i ha
    exfalso
    cases hk : detect i s with
    | none =>
      rcases hn with hn | rfl | hn
      · exact hn hk
      · simp [hk, arbitrate] at ha
      · simp [hk, hn, arbitrate] at ha
    | some k =>
      rw [hk] at hi ha
      have hr : k.rank ≤ ExcKind.int.rank := by cases k <;> simp [ExcKind.rank]
      cases b <;> cases hx : s.interrupt with
      | none => simp_all [arbitrate]
      | some x =>
        have : x = .int := by
          unfold interrupt at hx; split at hx <;> simp_all
        simp_all [arbitrate]
  · rfl

theorem State.runInstruction_interrupt {s : State} {w : Word} {i : Instr} (h : s.fetch = some w)
    (hd : decode w = .operation i) (hn : detect i s = none) (hi : s.intDeliverable = true) :
    s.runInstruction true = .next (s.raise .int) := by
  simp [runInstruction, h, hd, hn, interrupt, hi, arbitrate]

/-! The outside world (R372). -/

/-- While no step is held, an event from outside changes the lines, the streams, the answers and the host's own
state, and nothing of the MachineState. -/
theorem State.outside_cases {s : State} (h : s.hold = none) (e : OutsideEvent) : ∃ lines input answers points pause,
    s.outside e = { s with
      hwIrq := lines, consoleIn := input, answers := answers, breakpoints := points, pauseRequest := pause } := by
  cases e
  case timeout =>
    exact ⟨_, _, _, _, _, if_neg fun hc => by simp [h] at hc⟩
  all_goals exact ⟨_, _, _, _, _, rfl⟩

/-- The same of all that the outside does at a boundary. -/
theorem State.atBoundary_cases {s : State} (h : s.hold = none) : ∃ lines input answers points pause agenda,
    s.atBoundary = { s with
      hwIrq := lines, consoleIn := input, answers := answers, breakpoints := points, pauseRequest := pause
      agenda := agenda } := by
  have fold : ∀ (es : List OutsideEvent) (u : State), u.hold = none → ∃ lines input answers points pause,
      es.foldl State.outside u = { u with
        hwIrq := lines, consoleIn := input, answers := answers, breakpoints := points, pauseRequest := pause } := by
    intro es
    induction es with
    | nil => exact fun u _ => ⟨_, _, _, _, _, rfl⟩
    | cons e rest ih =>
      intro u hu
      obtain ⟨l, i, a, b, p, he⟩ := outside_cases hu e
      rw [List.foldl_cons, he]
      obtain ⟨_, _, _, _, _, hr⟩ := ih { u with
        hwIrq := l, consoleIn := i, answers := a, breakpoints := b, pauseRequest := p } hu
      exact ⟨_, _, _, _, _, hr⟩
  unfold atBoundary
  split
  · exact ⟨_, _, _, _, _, _, rfl⟩
  · rename_i events rest _
    obtain ⟨_, _, _, _, _, hr⟩ := fold events { s with agenda := rest } h
    exact ⟨_, _, _, _, _, _, hr⟩

/-! The branches of `step`. -/

@[simp] theorem State.atBoundary_of_nil {s : State} (h : s.agenda = []) : s.atBoundary = s := by
  simp [atBoundary, h]

theorem step_halted {s : State} (h : s.runState = .halted) : step s = .fault .halted := by
  simp [step, h]

theorem step_trapped {s : State} (h : s.runState = .trapped) : step s = .refused .trappedSnapshot := by
  simp [step, h]

/-- The outside ended the run: a blocked read timed out (R329). -/
theorem step_ended {s : State} (h : s.runState = .running) (hb : s.atBoundary.runState ≠ .running) :
    step s = .next s.atBoundary := by
  simp only [step, h]

theorem step_held {s : State} (h : s.runState = .running) (hb : s.atBoundary.runState = .running)
    (hh : s.atBoundary.hold ≠ none) : step s = State.runInstruction { s.atBoundary with hold := none } false := by
  obtain ⟨x, hx⟩ := Option.ne_none_iff_exists'.1 hh
  simp only [step, h, hb, hx]

theorem step_stopped {s : State} (h : s.runState = .running) (hb : s.atBoundary.runState = .running)
    (hh : s.atBoundary.hold = none) {r : Report} (hs : s.atBoundary.stopCheck = some r) :
    step s = .next (s.atBoundary.stopped r) := by
  simp only [step, h, hb, hh, hs]

theorem step_runs {s : State} (h : s.runState = .running) (hb : s.atBoundary.runState = .running)
    (hh : s.atBoundary.hold = none) (hs : s.atBoundary.stopCheck = none) :
    step s = s.atBoundary.begin.runInstruction true := by
  simp only [step, h, hb, hh, hs]

end Sys2Proof.Machine
end

