-- ==== Sys2Proof/Laws/Effect.lean ====
section
/-! SUPPORT. Everything an instruction can do to the parts of the state the invariant speaks of, said once: every
invariant of the step follows from `exec_effect` and the branches of the step (Laws/Step.lean). -/

namespace Sys2Proof

/-! The regions of a well-formed map (R61). -/

theorem Region.covers_iff {r : Region} {a : Nat} :
    r.covers a = true ↔ r.base.toNat ≤ a ∧ a < r.base.toNat + r.size := by
  simp [Region.covers]

/-- In a well-formed map the region of an address is any entry that covers it (R61). -/
theorem Platform.regionAt_of_covers {p : Platform} (hp : p.wellFormed) {r : Region} (hr : r ∈ p.regions) {a : Nat}
    (ha : r.covers a = true) : p.regionAt a = some r := by
  obtain ⟨-, hd⟩ := hp
  unfold Platform.regionAt
  generalize p.regions = rs at hr hd
  induction rs with
  | nil => simp at hr
  | cons q rest ih =>
    obtain ⟨h1, h2⟩ := List.pairwise_cons.1 hd
    rcases List.mem_cons.1 hr with rfl | hr
    · simp [ha]
    · have hq : q.covers a = false := by
        have := h1 r hr
        by_contra hc
        rw [Bool.not_eq_false, Region.covers_iff] at hc
        rw [Region.covers_iff] at ha
        simp only [Region.disjoint, Bool.or_eq_true, decide_eq_true_eq] at this
        omega
      simp [hq, ih hr h2]

/-- An aligned access lies in one region whole (R61, R66). -/
theorem Platform.kindAt_of_aligned {p : Platform} (hp : p.wellFormed) {w : Machine.Width} {a : Word}
    (ha : Machine.aligned w a = true) {k : RegionKind} (hk : p.kindAt a.toNat = some k) {j : Nat}
    (h1 : a.toNat ≤ j) (h2 : j < a.toNat + w.bytes) : p.kindAt j = some k := by
  obtain ⟨r, hr, rfl⟩ := Option.map_eq_some_iff.1 hk
  have hm := List.mem_of_find?_eq_some hr
  have hc : r.base.toNat ≤ a.toNat ∧ a.toNat < r.base.toNat + r.size :=
    Region.covers_iff.1 (List.find?_some (p := fun q : Region => q.covers a.toNat) hr)
  have hw := (hp.1 r hm).1
  simp only [Region.wordSized, Bool.and_eq_true, decide_eq_true_eq] at hw
  rw [Machine.Memory.aligned_iff] at ha
  have : r.covers j = true := by
    rw [Region.covers_iff]
    cases w <;> simp only [Machine.Width.bytes] at ha h2 <;> omega
  simp [Platform.kindAt, Platform.regionAt_of_covers hp hm this]

namespace Machine

/-- What stays or may change from `s` to `t`, whatever the instruction: the platform, slot 0, where bytes of memory can
change, and how the run state, the stop reason and the hold can move together (R21, R36, R40, R63, R325). -/
structure Effect (s t : State) : Prop where
  platform : t.platform = s.platform
  slotZero : t.regs[0] = s.regs[0]
  wf : s.mem.wf → t.mem.wf
  listed : s.platform.wellFormed → ∀ c ∈ t.mem, c ∈ s.mem ∨ s.platform.kindAt c.1 = some .ram
  bytes : s.mem.wf → s.platform.wellFormed → ∀ a, s.platform.kindAt a ≠ some .ram → t.mem.readByte a = s.mem.readByte a
  run : (t.runState = s.runState ∧ t.stopReason = s.stopReason) ∨
    (t.runState = .running ∧ t.stopReason = s.stopReason ∧ t.hold = s.hold) ∨
    (t.runState = .halted ∧ t.stopReason ≠ none ∧ t.hold = s.hold)

/-- The fields `Effect` speaks of are unchanged. -/
theorem Effect.of_same {s t : State} (hp : t.platform = s.platform) (hz : t.regs[0] = s.regs[0]) (hm : t.mem = s.mem)
    (hr : t.runState = s.runState) (hs : t.stopReason = s.stopReason) : Effect s t :=
  ⟨hp, hz, fun h => hm ▸ h, fun _ c hc => .inl (hm ▸ hc), fun _ _ _ _ => by rw [hm], .inl ⟨hr, hs⟩⟩

theorem effect_result (s : State) (rd : Reg) (v : Word) : Effect s (s.result rd v) :=
  .of_same rfl (s.setReg_slot_zero rd v) rfl rfl rfl

theorem effect_enter (s : State) (ev : Event) : Effect s (s.enter ev) := by
  cases h : s.platform.handlerInstalled
  · rw [enter_notInstalled h]
    exact ⟨rfl, rfl, id, fun _ _ h => .inl h, fun _ _ _ _ => rfl, .inr (.inr ⟨rfl, by simp, rfl⟩)⟩
  · rw [enter_installed h]
    exact ⟨rfl, rfl, id, fun _ _ h => .inl h, fun _ _ _ _ => rfl, .inr (.inl ⟨rfl, rfl, rfl⟩)⟩

/-- The host's answer to a service (R325). -/
theorem effect_serve (s : State) (r : ServiceReply) : Effect s (s.serve r) := by
  have hz : (s.applyReply r).regs[0] = s.regs[0] := by
    rw [State.applyReply_eq]
    cases r.result <;> simp
  rw [State.serve_eq]
  cases r.verdict <;>
    refine ⟨by simp [State.applyReply_eq], hz, fun h => ?_, fun _ c hc => ?_, fun h _ a hk => ?_, .inr ?_⟩
  case resume.refine_4 | exit.refine_4 | fault.refine_4 => simp [State.applyReply_eq]
  all_goals simp only [State.applyReply_eq] at *
  all_goals first
    | exact Memory.wf_hostWrites _ h _
    | exact Memory.mem_hostWrites hc
    | exact Memory.readByte_hostWrites h hk

theorem effect_hostedSyscall (s : State) : Effect s s.hostedSyscall := by
  have lift : ∀ {u t : State}, Effect u t → u.platform = s.platform → u.regs = s.regs → u.mem = s.mem →
      u.runState = s.runState → u.stopReason = s.stopReason → u.hold = s.hold → Effect s t := by
    rintro u t ⟨h1, h2, h3, h4, h5, h6⟩ e1 e2 e3 e4 e5 e6
    rw [e1] at h1 h4 h5
    rw [e2] at h2
    rw [e3] at h3 h4 h5
    rw [e4, e5, e6] at h6
    exact ⟨h1, h2, h3, h4, h5, h6⟩
  cases hv : s.service with
  | none =>
    rw [State.hostedSyscall_unrecognized hv]
    exact lift (effect_enter _ _) rfl rfl rfl rfl rfl rfl
  | some k =>
    cases ha : s.answers with
    | cons r rest =>
      rw [State.hostedSyscall_answered hv ha]
      exact lift (effect_serve _ _) rfl rfl rfl rfl rfl rfl
    | nil =>
      cases k with
      | exit =>
        rw [State.hostedSyscall_exit hv ha]
        exact ⟨rfl, rfl, id, fun _ _ h => .inl h, fun _ _ _ _ => rfl, .inr (.inr ⟨rfl, by simp, rfl⟩)⟩
      | external =>
        rw [State.hostedSyscall_waits hv ha]
        exact .of_same rfl rfl rfl rfl rfl

theorem effect_raise (s : State) (k : ExcKind) : Effect s (s.raise k) := by
  have lift : ∀ {t}, Effect { s with lastEvent := some ⟨k, s.pc⟩ } t → Effect s t :=
    fun ⟨h1, h2, h3, h4, h5, h6⟩ => ⟨h1, h2, h3, h4, h5, h6⟩
  by_cases h : k = .int ∨ s.status.exl = false
  · by_cases hs : k = .sys ∧ s.platform.syscallHosted = true
    · obtain ⟨rfl, hs⟩ := hs
      rw [raise_hosted (by simpa using h) hs]
      exact lift (effect_hostedSyscall _)
    · rw [raise_enter h (by by_contra hc; push Not at hc; exact hs ⟨hc.1, by simpa using hc.2⟩)]
      exact lift (effect_enter _ _)
  · rw [raise_masked (by simp_all) (by tauto)]
    exact ⟨rfl, rfl, id, fun _ _ h => .inl h, fun _ _ _ _ => rfl, .inr (.inr ⟨rfl, by simp, rfl⟩)⟩

theorem effect_raiseIf {s t : State} (c : Bool) (k : ExcKind) (h : c = false → Effect s t) :
    Effect s (s.raiseIf c k t) := by
  cases c
  · exact h rfl
  · exact effect_raise s k

/-- A data read changes the console queue and the counter of free values, nothing else (R62, R73). -/
theorem State.memRead_state {s t : State} {w : Width} {a v : Word} (h : s.memRead w a = some (v, t)) :
    t = { s with consoleIn := t.consoleIn, freeCount := t.freeCount } := by
  unfold memRead consoleRead at h
  (repeat' split at h) <;> simp at h <;> obtain ⟨-, rfl⟩ := h <;> rfl

theorem effect_load (s : State) (w : Width) (e : Extension) (rt : Reg) (a : Word) : Effect s (s.load w e rt a) := by
  refine effect_raiseIf _ _ fun _ => ?_
  cases h : s.memRead w a with
  | none => exact .of_same rfl rfl rfl rfl rfl
  | some x =>
    obtain ⟨v, t⟩ := x
    simp only
    rw [State.memRead_state h]
    exact .of_same rfl (State.setReg_slot_zero _ _ _) rfl rfl rfl

theorem effect_store (s : State) (w : Width) (rt : Reg) (a : Word) : Effect s (s.store w rt a) := by
  refine effect_raiseIf _ _ fun hf => ?_
  have ha : aligned w a = true := by
    by_contra hc
    simp [State.storeFaults, hc] at hf
  cases hk : s.platform.kindAt a.toNat with
  | none => simp only [State.memWrite, hk]; exact .of_same rfl rfl rfl rfl rfl
  | some k =>
    cases k with
    | ram =>
      rw [State.memWrite_ram hk]
      refine ⟨rfl, rfl, fun h => Memory.wf_write h _ _ (Memory.aligned_in_space ha), fun hp c hc => ?_,
        fun h hp j hj => ?_, .inl ⟨rfl, rfl⟩⟩
      · rcases Memory.mem_write hc with hc | ⟨h1, h2⟩
        · exact .inl hc
        · exact .inr (Platform.kindAt_of_aligned hp ha hk h1 h2)
      · refine (Memory.readByte_write h _ _ (Memory.aligned_in_space ha) j).trans (dif_neg fun hc => hj ?_)
        simp only [Memory.split_length] at hc
        exact Platform.kindAt_of_aligned hp ha hk hc.1 (by omega)
    | rom => simp only [State.memWrite, hk]; exact .of_same rfl rfl rfl rfl rfl
    | consoleOut => simp only [State.memWrite, hk]; exact .of_same rfl rfl rfl rfl rfl
    | consoleIn => simp only [State.memWrite, hk]; exact .of_same rfl rfl rfl rfl rfl

theorem effect_branch (s : State) (c : Bool) (imm : BitVec 16) : Effect s (s.branch c imm) := by
  rw [State.branch_eq]; exact .of_same rfl rfl rfl rfl rfl

/-- Every instruction gives a next state, and changes no more than `Effect` says. -/
theorem exec_effect (i : Instr) (s : State) : ∃ t, exec i s = .next t ∧ Effect s t := by
  cases i
  case add => exact ⟨_, rfl, effect_raiseIf _ _ fun _ => effect_result _ _ _⟩
  case sub => exact ⟨_, rfl, effect_raiseIf _ _ fun _ => effect_result _ _ _⟩
  case addi => exact ⟨_, rfl, effect_raiseIf _ _ fun _ => effect_result _ _ _⟩
  case lb | lbu | lh | lhu | lw => exact ⟨_, rfl, effect_load _ _ _ _ _⟩
  case sb | sh | sw => exact ⟨_, rfl, effect_store _ _ _ _⟩
  case beq | bne | blez | bgtz | bltz | bgez => exact ⟨_, rfl, effect_branch _ _ _⟩
  case bltzal | bgezal =>
    refine ⟨_, rfl, ?_⟩
    rw [State.branch_eq]
    exact .of_same rfl (State.setReg_slot_zero _ _ _) rfl rfl rfl
  case jal | jalr => exact ⟨_, rfl, .of_same rfl (State.setReg_slot_zero _ _ _) rfl rfl rfl⟩
  case syscall => exact ⟨_, rfl, effect_raise _ _⟩
  case brk => exact ⟨_, rfl, effect_raise _ _⟩
  case mfc0 rt rd =>
    simp only [exec, execMfc0]
    cases cp0Reg rd
    · exact ⟨_, rfl, effect_raise _ _⟩
    · exact ⟨_, rfl, effect_result _ _ _⟩
  case mtc0 rt rd =>
    simp only [exec, execMtc0]
    cases cp0Reg rd with
    | none => exact ⟨_, rfl, effect_raise _ _⟩
    | some r => cases r <;> exact ⟨_, rfl, .of_same rfl rfl rfl rfl rfl⟩
  case div | divu =>
    simp only [exec, execDiv, execDivu, State.divideSigned, State.divideUnsigned, State.divideByZero]
    (repeat' split) <;> exact ⟨_, rfl, .of_same rfl rfl rfl rfl rfl⟩
  all_goals first
    | exact ⟨_, rfl, .of_same rfl rfl rfl rfl rfl⟩
    | exact ⟨_, rfl, effect_result _ _ _⟩

/-- The same of the instruction a step runs, whatever stands at the PC. -/
theorem runInstruction_effect (s : State) (b : Bool) : ∃ t, s.runInstruction b = .next t ∧ Effect s t := by
  simp only [State.runInstruction]
  (repeat' split) <;> first | exact exec_effect _ _ | exact ⟨_, rfl, effect_raise _ _⟩

end Machine

end Sys2Proof
end

