-- ==== Sys2Proof/Laws/PerInstr.lean ====
section
/-! SUPPORT. Facts about every instruction as syntax, one lemma per constructor.

`EncodedRow`: the word of an instruction agrees with its row of the opcode table on the row's mask, which says of each
constructor that the encoder, written from the formats, and the table, written from match and mask, are one encoding. -/

namespace Sys2Proof.Laws.EncodedRow

def Statement (i : Instr) : Prop := (rowOf i).admits (encode i) = true

theorem add (rd : Reg) (rs : Reg) (rt : Reg) : Statement (.add rd rs rt) :=
  beq_iff_eq.2 ((and_mask_opcode_funct _ 0x00 0x20).2 ⟨by simp [encode], by simp [encode]⟩)

theorem addu (rd : Reg) (rs : Reg) (rt : Reg) : Statement (.addu rd rs rt) :=
  beq_iff_eq.2 ((and_mask_opcode_funct _ 0x00 0x21).2 ⟨by simp [encode], by simp [encode]⟩)

theorem sub (rd : Reg) (rs : Reg) (rt : Reg) : Statement (.sub rd rs rt) :=
  beq_iff_eq.2 ((and_mask_opcode_funct _ 0x00 0x22).2 ⟨by simp [encode], by simp [encode]⟩)

theorem subu (rd : Reg) (rs : Reg) (rt : Reg) : Statement (.subu rd rs rt) :=
  beq_iff_eq.2 ((and_mask_opcode_funct _ 0x00 0x23).2 ⟨by simp [encode], by simp [encode]⟩)

theorem addi (rt : Reg) (rs : Reg) (imm : BitVec 16) : Statement (.addi rt rs imm) :=
  beq_iff_eq.2 ((and_mask_opcode _ 0x08).2 (by simp [encode]))

theorem addiu (rt : Reg) (rs : Reg) (imm : BitVec 16) : Statement (.addiu rt rs imm) :=
  beq_iff_eq.2 ((and_mask_opcode _ 0x09).2 (by simp [encode]))

theorem slt (rd : Reg) (rs : Reg) (rt : Reg) : Statement (.slt rd rs rt) :=
  beq_iff_eq.2 ((and_mask_opcode_funct _ 0x00 0x2A).2 ⟨by simp [encode], by simp [encode]⟩)

theorem sltu (rd : Reg) (rs : Reg) (rt : Reg) : Statement (.sltu rd rs rt) :=
  beq_iff_eq.2 ((and_mask_opcode_funct _ 0x00 0x2B).2 ⟨by simp [encode], by simp [encode]⟩)

theorem slti (rt : Reg) (rs : Reg) (imm : BitVec 16) : Statement (.slti rt rs imm) :=
  beq_iff_eq.2 ((and_mask_opcode _ 0x0A).2 (by simp [encode]))

theorem sltiu (rt : Reg) (rs : Reg) (imm : BitVec 16) : Statement (.sltiu rt rs imm) :=
  beq_iff_eq.2 ((and_mask_opcode _ 0x0B).2 (by simp [encode]))

theorem and (rd : Reg) (rs : Reg) (rt : Reg) : Statement (.and rd rs rt) :=
  beq_iff_eq.2 ((and_mask_opcode_funct _ 0x00 0x24).2 ⟨by simp [encode], by simp [encode]⟩)

theorem or (rd : Reg) (rs : Reg) (rt : Reg) : Statement (.or rd rs rt) :=
  beq_iff_eq.2 ((and_mask_opcode_funct _ 0x00 0x25).2 ⟨by simp [encode], by simp [encode]⟩)

theorem xor (rd : Reg) (rs : Reg) (rt : Reg) : Statement (.xor rd rs rt) :=
  beq_iff_eq.2 ((and_mask_opcode_funct _ 0x00 0x26).2 ⟨by simp [encode], by simp [encode]⟩)

theorem nor (rd : Reg) (rs : Reg) (rt : Reg) : Statement (.nor rd rs rt) :=
  beq_iff_eq.2 ((and_mask_opcode_funct _ 0x00 0x27).2 ⟨by simp [encode], by simp [encode]⟩)

theorem andi (rt : Reg) (rs : Reg) (imm : BitVec 16) : Statement (.andi rt rs imm) :=
  beq_iff_eq.2 ((and_mask_opcode _ 0x0C).2 (by simp [encode]))

theorem ori (rt : Reg) (rs : Reg) (imm : BitVec 16) : Statement (.ori rt rs imm) :=
  beq_iff_eq.2 ((and_mask_opcode _ 0x0D).2 (by simp [encode]))

theorem xori (rt : Reg) (rs : Reg) (imm : BitVec 16) : Statement (.xori rt rs imm) :=
  beq_iff_eq.2 ((and_mask_opcode _ 0x0E).2 (by simp [encode]))

theorem lui (rt : Reg) (imm : BitVec 16) : Statement (.lui rt imm) :=
  beq_iff_eq.2 ((and_mask_opcode _ 0x0F).2 (by simp [encode]))

theorem sll (rd : Reg) (rt : Reg) (shamt : BitVec 5) : Statement (.sll rd rt shamt) :=
  beq_iff_eq.2 ((and_mask_opcode_funct _ 0x00 0x00).2 ⟨by simp [encode], by simp [encode]⟩)

theorem srl (rd : Reg) (rt : Reg) (shamt : BitVec 5) : Statement (.srl rd rt shamt) :=
  beq_iff_eq.2 ((and_mask_opcode_funct _ 0x00 0x02).2 ⟨by simp [encode], by simp [encode]⟩)

theorem sra (rd : Reg) (rt : Reg) (shamt : BitVec 5) : Statement (.sra rd rt shamt) :=
  beq_iff_eq.2 ((and_mask_opcode_funct _ 0x00 0x03).2 ⟨by simp [encode], by simp [encode]⟩)

theorem sllv (rd : Reg) (rt : Reg) (rs : Reg) : Statement (.sllv rd rt rs) :=
  beq_iff_eq.2 ((and_mask_opcode_funct _ 0x00 0x04).2 ⟨by simp [encode], by simp [encode]⟩)

theorem srlv (rd : Reg) (rt : Reg) (rs : Reg) : Statement (.srlv rd rt rs) :=
  beq_iff_eq.2 ((and_mask_opcode_funct _ 0x00 0x06).2 ⟨by simp [encode], by simp [encode]⟩)

theorem srav (rd : Reg) (rt : Reg) (rs : Reg) : Statement (.srav rd rt rs) :=
  beq_iff_eq.2 ((and_mask_opcode_funct _ 0x00 0x07).2 ⟨by simp [encode], by simp [encode]⟩)

theorem mult (rs : Reg) (rt : Reg) : Statement (.mult rs rt) :=
  beq_iff_eq.2 ((and_mask_opcode_funct _ 0x00 0x18).2 ⟨by simp [encode], by simp [encode]⟩)

theorem multu (rs : Reg) (rt : Reg) : Statement (.multu rs rt) :=
  beq_iff_eq.2 ((and_mask_opcode_funct _ 0x00 0x19).2 ⟨by simp [encode], by simp [encode]⟩)

theorem div (rs : Reg) (rt : Reg) : Statement (.div rs rt) :=
  beq_iff_eq.2 ((and_mask_opcode_funct _ 0x00 0x1A).2 ⟨by simp [encode], by simp [encode]⟩)

theorem divu (rs : Reg) (rt : Reg) : Statement (.divu rs rt) :=
  beq_iff_eq.2 ((and_mask_opcode_funct _ 0x00 0x1B).2 ⟨by simp [encode], by simp [encode]⟩)

theorem mfhi (rd : Reg) : Statement (.mfhi rd) :=
  beq_iff_eq.2 ((and_mask_opcode_funct _ 0x00 0x10).2 ⟨by simp [encode], by simp [encode]⟩)

theorem mflo (rd : Reg) : Statement (.mflo rd) :=
  beq_iff_eq.2 ((and_mask_opcode_funct _ 0x00 0x12).2 ⟨by simp [encode], by simp [encode]⟩)

theorem mthi (rs : Reg) : Statement (.mthi rs) :=
  beq_iff_eq.2 ((and_mask_opcode_funct _ 0x00 0x11).2 ⟨by simp [encode], by simp [encode]⟩)

theorem mtlo (rs : Reg) : Statement (.mtlo rs) :=
  beq_iff_eq.2 ((and_mask_opcode_funct _ 0x00 0x13).2 ⟨by simp [encode], by simp [encode]⟩)

theorem beq (rs : Reg) (rt : Reg) (imm : BitVec 16) : Statement (.beq rs rt imm) :=
  beq_iff_eq.2 ((and_mask_opcode _ 0x04).2 (by simp [encode]))

theorem bne (rs : Reg) (rt : Reg) (imm : BitVec 16) : Statement (.bne rs rt imm) :=
  beq_iff_eq.2 ((and_mask_opcode _ 0x05).2 (by simp [encode]))

theorem blez (rs : Reg) (imm : BitVec 16) : Statement (.blez rs imm) :=
  beq_iff_eq.2 ((and_mask_opcode _ 0x06).2 (by simp [encode]))

theorem bgtz (rs : Reg) (imm : BitVec 16) : Statement (.bgtz rs imm) :=
  beq_iff_eq.2 ((and_mask_opcode _ 0x07).2 (by simp [encode]))

theorem bltz (rs : Reg) (imm : BitVec 16) : Statement (.bltz rs imm) :=
  beq_iff_eq.2 ((and_mask_opcode_rt _ 0x01 0).2 ⟨by simp [encode], by simp [encode]; rfl⟩)

theorem bgez (rs : Reg) (imm : BitVec 16) : Statement (.bgez rs imm) :=
  beq_iff_eq.2 ((and_mask_opcode_rt _ 0x01 1).2 ⟨by simp [encode], by simp [encode]; rfl⟩)

theorem bltzal (rs : Reg) (imm : BitVec 16) : Statement (.bltzal rs imm) :=
  beq_iff_eq.2 ((and_mask_opcode_rt _ 0x01 16).2 ⟨by simp [encode], by simp [encode]; rfl⟩)

theorem bgezal (rs : Reg) (imm : BitVec 16) : Statement (.bgezal rs imm) :=
  beq_iff_eq.2 ((and_mask_opcode_rt _ 0x01 17).2 ⟨by simp [encode], by simp [encode]; rfl⟩)

theorem j (index : BitVec 26) : Statement (.j index) :=
  beq_iff_eq.2 ((and_mask_opcode _ 0x02).2 (by simp [encode]))

theorem jal (index : BitVec 26) : Statement (.jal index) :=
  beq_iff_eq.2 ((and_mask_opcode _ 0x03).2 (by simp [encode]))

theorem jr (rs : Reg) : Statement (.jr rs) :=
  beq_iff_eq.2 ((and_mask_opcode_funct _ 0x00 0x08).2 ⟨by simp [encode], by simp [encode]⟩)

theorem jalr (rd : Reg) (rs : Reg) : Statement (.jalr rd rs) :=
  beq_iff_eq.2 ((and_mask_opcode_funct _ 0x00 0x09).2 ⟨by simp [encode], by simp [encode]⟩)

theorem lb (rt : Reg) (imm : BitVec 16) (rs : Reg) : Statement (.lb rt imm rs) :=
  beq_iff_eq.2 ((and_mask_opcode _ 0x20).2 (by simp [encode]))

theorem lbu (rt : Reg) (imm : BitVec 16) (rs : Reg) : Statement (.lbu rt imm rs) :=
  beq_iff_eq.2 ((and_mask_opcode _ 0x24).2 (by simp [encode]))

theorem lh (rt : Reg) (imm : BitVec 16) (rs : Reg) : Statement (.lh rt imm rs) :=
  beq_iff_eq.2 ((and_mask_opcode _ 0x21).2 (by simp [encode]))

theorem lhu (rt : Reg) (imm : BitVec 16) (rs : Reg) : Statement (.lhu rt imm rs) :=
  beq_iff_eq.2 ((and_mask_opcode _ 0x25).2 (by simp [encode]))

theorem lw (rt : Reg) (imm : BitVec 16) (rs : Reg) : Statement (.lw rt imm rs) :=
  beq_iff_eq.2 ((and_mask_opcode _ 0x23).2 (by simp [encode]))

theorem sb (rt : Reg) (imm : BitVec 16) (rs : Reg) : Statement (.sb rt imm rs) :=
  beq_iff_eq.2 ((and_mask_opcode _ 0x28).2 (by simp [encode]))

theorem sh (rt : Reg) (imm : BitVec 16) (rs : Reg) : Statement (.sh rt imm rs) :=
  beq_iff_eq.2 ((and_mask_opcode _ 0x29).2 (by simp [encode]))

theorem sw (rt : Reg) (imm : BitVec 16) (rs : Reg) : Statement (.sw rt imm rs) :=
  beq_iff_eq.2 ((and_mask_opcode _ 0x2B).2 (by simp [encode]))

theorem syscall (code : BitVec 20) : Statement (.syscall code) :=
  beq_iff_eq.2 ((and_mask_opcode_funct _ 0x00 0x0C).2 ⟨by simp [encode], by simp [encode]⟩)

theorem brk (code : BitVec 20) : Statement (.brk code) :=
  beq_iff_eq.2 ((and_mask_opcode_funct _ 0x00 0x0D).2 ⟨by simp [encode], by simp [encode]⟩)

theorem mfc0 (rt : Reg) (rd : Reg) : Statement (.mfc0 rt rd) :=
  beq_iff_eq.2 ((and_mask_opcode_rs _ 0x10 0).2 ⟨by simp [encode], by simp [encode]; rfl⟩)

theorem mtc0 (rt : Reg) (rd : Reg) : Statement (.mtc0 rt rd) :=
  beq_iff_eq.2 ((and_mask_opcode_rs _ 0x10 4).2 ⟨by simp [encode], by simp [encode]; rfl⟩)

theorem eret : Statement (.eret) :=
  beq_iff_eq.2 ((and_mask_eret _).2 ⟨by simp [encode], by decide, by simp [encode]⟩)

end Sys2Proof.Laws.EncodedRow
end

