-- ==== Sys2Proof/Tests/Slice0.lean ====
section
/-! SUPPORT. Tests. Words are written from the encodings of spec 30; expected results are those of the vectors of
spec 95, whose names each test cites, or follow by hand from the rule it names. -/

open Sys2Proof Sys2Proof.Machine

namespace Sys2Proof.Tests

/-! ## WellFormed: each check refuses an ill-formed term (R61, R361) -/

/-- A map whose one region has a size that is no multiple of 4. -/
def oddRegion : Region := ⟨"odd", 0x00400000, 6, .ram⟩
/-- A region that runs past the end of the space. -/
def wrappingRegion : Region := ⟨"wraps", 0xFFFFFFF0, 32, .ram⟩
/-- An image whose entry lies in no region. -/
def badEntry : Image := ⟨0x20000000, [], 0x10010000, []⟩
/-- An image with a text word at a misaligned address. -/
def badText : Image := ⟨0x00400000, [(0x00400002, 0)], 0x10010000, []⟩
/-- An image whose data blob runs out of its region. -/
def badData : Image := ⟨0x00400000, [], 0x1001FFFF, [1, 2]⟩
/-- The empty image. -/
def emptyImage : Image := ⟨0x00400000, [], 0x10010000, []⟩

theorem test_wordSized_refuses : oddRegion.wordSized = false := by decide
theorem test_inSpace_refuses : wrappingRegion.inSpace = false := by decide
theorem test_disjoint_refuses : Region.disjoint ⟨"a", 0, 8, .ram⟩ ⟨"b", 4, 8, .rom⟩ = false := by decide
/-- An entry of size 0 covers no address, so it overlaps nothing, wherever it stands (log 33). -/
theorem test_disjoint_empty : Region.disjoint ⟨"a", 0, 8, .ram⟩ ⟨"b", 4, 0, .rom⟩ = true := by decide
theorem test_map_refuses_overlap :
    ¬ { Config.testPlatform with regions := [⟨"a", 0, 8, .ram⟩, ⟨"b", 4, 8, .rom⟩] }.wellFormed := by decide
theorem test_entryOk_refuses : badEntry.entryOk Config.testPlatform = false := by decide
theorem test_textOk_refuses : badText.textOk Config.testPlatform = false := by decide
theorem test_dataOk_refuses : badData.dataOk Config.testPlatform = false := by decide
theorem test_rejected_images : ¬ badEntry.accepted Config.testPlatform ∧ ¬ badText.accepted Config.testPlatform ∧
    ¬ badData.accepted Config.testPlatform := by decide
/-- A blob that crosses the end of the space goes on at address 0 (D45). -/
def wrappingData : Image := ⟨0, [], 0xFFFFFFFF, [1, 2]⟩
/-- RAM at both ends of the space. -/
def bothEnds : Platform := { Config.testPlatform with regions := [⟨"low", 0, 8, .ram⟩, ⟨"high", 0xFFFFFFF8, 8, .ram⟩] }
theorem test_data_wraps : wrappingData.accepted bothEnds ∧
    (Memory.ofImage wrappingData).readByte 0xFFFFFFFF = 1 ∧ (Memory.ofImage wrappingData).readByte 0 = 2 := by decide
theorem test_accepts_test_platform : emptyImage.accepted Config.testPlatform := by decide
/-- The reset state is the load of the empty image (R360; log 2). -/
theorem test_reset_is_a_load : State.reset.loadImage emptyImage = State.reset := by decide

/-! ## Decoding: every constructor, by a word written from its encoding (spec 30 R114 to R117, spec 95 V0 to V7) -/

/-- The words decode, in this order, to these instructions. -/
def decodesTo (ws : List Word) (is : List Instr) : Prop := ws.map decode = is.map .operation

theorem test_decode_arithmetic : decodesTo
    [0x00221820, 0x00221821, 0x00221822, 0x00221823, 0x2023FFFF, 0x2401FFFF, 0x0022182A, 0x0022182B, 0x2823FFFF,
      0x2C238000]
    [.add 3 1 2, .addu 3 1 2, .sub 3 1 2, .subu 3 1 2, .addi 3 1 0xFFFF, .addiu 1 0 0xFFFF, .slt 3 1 2, .sltu 3 1 2,
      .slti 3 1 0xFFFF, .sltiu 3 1 0x8000] := by unfold decodesTo; decide

theorem test_decode_logical : decodesTo
    [0x00221824, 0x00221825, 0x00221826, 0x00221827, 0x3023FF00, 0x34238000, 0x3823FFFF, 0x3CE11234]
    [.and 3 1 2, .or 3 1 2, .xor 3 1 2, .nor 3 1 2, .andi 3 1 0xFF00, .ori 3 1 0x8000, .xori 3 1 0xFFFF,
      .lui 1 0x1234] := by unfold decodesTo; decide

/-- `0x00011FC3` names rd 3: vector V3.4, against the text of V0.2 (log 31). -/
theorem test_decode_shifts : decodesTo
    [0x00011100, 0x00011FC2, 0x00011FC3, 0x00411804, 0x00411806, 0x00411807]
    [.sll 2 1 4, .srl 3 1 31, .sra 3 1 31, .sllv 3 1 2, .srlv 3 1 2, .srav 3 1 2] := by unfold decodesTo; decide

theorem test_decode_muldiv : decodesTo
    [0x00220018, 0x00220019, 0x0022001A, 0x0022001B, 0x00001810, 0x00001812, 0x00200011, 0x00200013]
    [.mult 1 2, .multu 1 2, .div 1 2, .divu 1 2, .mfhi 3, .mflo 3, .mthi 1, .mtlo 1] := by unfold decodesTo; decide

theorem test_decode_branches : decodesTo
    [0x10220002, 0x1422FFFF, 0x18200003, 0x1C200003, 0x04200003, 0x04210003, 0x04300003, 0x04310003, 0x08100008,
      0x0C100008, 0x03E00008, 0x0040F809]
    [.beq 1 2 2, .bne 1 2 0xFFFF, .blez 1 3, .bgtz 1 3, .bltz 1 3, .bgez 1 3, .bltzal 1 3, .bgezal 1 3, .j 0x100008,
      .jal 0x100008, .jr 31, .jalr 31 2] := by unfold decodesTo; decide

theorem test_decode_loads_stores : decodesTo
    [0x80220001, 0x90220002, 0x84220002, 0x94220002, 0x8C22FFFC, 0xA0220003, 0xA4220002, 0xAC220000]
    [.lb 2 1 1, .lbu 2 2 1, .lh 2 2 1, .lhu 2 2 1, .lw 2 0xFFFC 1, .sb 2 3 1, .sh 2 2 1, .sw 2 0 1] := by
  unfold decodesTo; decide

theorem test_decode_system : decodesTo
    [0x0000000C, 0x0048D14D, 0x40026000, 0x40886000, 0x42000018, 0x43FFFFD8]
    [.syscall 0, .brk 0x12345, .mfc0 2 12, .mtc0 8 12, .eret, .eret] := by unfold decodesTo; decide

/-- Reserved words (V7.18, R118). -/
theorem test_decode_reserved :
    [0xFFFFFFFF, 0x42000010, 0x88220000, 0x46000000, 0x00000001, 0x04020000].map decode =
      List.replicate 6 .reservedInstruction := by decide

theorem test_decodeTableWord : decodeTableWord 32 0x00221820 = some (.add 3 1 2) ∧
    decodeTableWord 32 0x42000018 = some .eret ∧ decodeTableWord 32 0xFFFFFFFF = none := by decide

/-- Fewer than four bytes hold no instruction. -/
theorem test_decodeBytes_short : decodeBytes [0x00, 0x22, 0x18] = none := by decide

/-! ## One step: helpers -/

/-- Reset with these general registers preset by the host (spec 95, section 0). -/
def preset (pre : List (Reg × Word)) : State := pre.foldl (fun s p => s.setReg p.1 p.2) State.reset

/-- The vector's word placed at the PC, with the registers preset. -/
def start (w : Nat) (pre : List (Reg × Word)) : State := (preset pre).withFetchWord 32 w

/-- A view of the state after one step. -/
def after {α : Type} (s : State) (f : State → α) : Option α :=
  match step s with
  | .next t => some (f t)
  | _ => none

/-- Register `r` and the PC after one step. -/
def regAfter (s : State) (r : Reg) : Option (Word × Word) := after s fun t => (t.reg r, t.pc)

/-- HI and LO after one step. -/
def hiLoAfter (s : State) : Option (Word × Word) := after s fun t => (t.hi, t.lo)

/-- PC and pending target after one step. -/
def seqAfter (s : State) : Option (Word × Option Word) := after s fun t => (t.pc, t.delay)

/-- Cause, EPC, BadVAddr, Status, and the PC after one step. -/
def trapAfter (s : State) : Option (Word × Word × Word × Word × Word) :=
  after s fun t => (t.cause.toWord, t.epc, t.badVAddr, t.status.toWord, t.pc)

/-- The memory of the vectors V6: `0x8122F344` at `0x10010000`. -/
def withData (s : State) : State := { s with mem := s.mem.write 0x10010000 .word 0x8122F344 }

/-! ## One step: arithmetic (V1) -/

theorem test_add_overflow :
    trapAfter (start 0x00221820 [(1, 0x7FFFFFFF), (2, 1), (3, 0x55555555)]) =
      some (0x30, 0x00400000, 0, 2, 0x80000180) := by decide
theorem test_add : regAfter (start 0x00221820 [(1, 0xFFFFFFFF), (2, 1), (3, 9)]) 3 = some (0, 0x00400004) := by decide
theorem test_add_r0_still_traps :
    trapAfter (start 0x00220020 [(1, 0x7FFFFFFF), (2, 1)]) = some (0x30, 0x00400000, 0, 2, 0x80000180) := by decide
theorem test_addu : regAfter (start 0x00221821 [(1, 0x7FFFFFFF), (2, 1)]) 3 = some (0x80000000, 0x00400004) := by
  decide
theorem test_sub_overflow :
    trapAfter (start 0x00021822 [(2, 0x80000000)]) = some (0x30, 0x00400000, 0, 2, 0x80000180) := by decide
theorem test_sub : regAfter (start 0x00221822 [(1, 5), (2, 7)]) 3 = some (0xFFFFFFFE, 0x00400004) := by decide
theorem test_subu : regAfter (start 0x00021823 [(2, 0x80000000)]) 3 = some (0x80000000, 0x00400004) := by decide
theorem test_addi_overflow :
    trapAfter (start 0x2023FFFF [(1, 0x80000000)]) = some (0x30, 0x00400000, 0, 2, 0x80000180) := by decide
theorem test_addi : regAfter (start 0x20630001 [(3, 41)]) 3 = some (42, 0x00400004) := by decide
theorem test_addiu : regAfter (start 0x24238000 [(1, 0x00010000)]) 3 = some (0x00008000, 0x00400004) := by decide
theorem test_addiu_r0 : regAfter (start 0x24000005 []) 0 = some (0, 0x00400004) := by decide
theorem test_slt : regAfter (start 0x0022182A [(1, 0x80000000), (2, 0x7FFFFFFF)]) 3 = some (1, 0x00400004) := by decide
theorem test_sltu : regAfter (start 0x0022182B [(1, 0xFFFFFFFF), (2, 1), (3, 7)]) 3 = some (0, 0x00400004) := by decide
theorem test_slti : regAfter (start 0x2823FFFF [(1, 0xFFFFFFFE)]) 3 = some (1, 0x00400004) := by decide
theorem test_sltiu : regAfter (start 0x2C238000 [(1, 0xFFFF7FFF)]) 3 = some (1, 0x00400004) ∧
    regAfter (start 0x2C238000 [(1, 0xFFFF8000)]) 3 = some (0, 0x00400004) := by decide

/-! ## One step: logical (V2) -/

/-- The two operands of V2. -/
def logical (w : Nat) : State := start w [(1, 0xF0F0A5A5), (2, 0x0FF0FFFF)]

theorem test_and : regAfter (logical 0x00221824) 3 = some (0x00F0A5A5, 0x00400004) := by decide
theorem test_or : regAfter (logical 0x00221825) 3 = some (0xFFF0FFFF, 0x00400004) := by decide
theorem test_xor : regAfter (logical 0x00221826) 3 = some (0xFF005A5A, 0x00400004) := by decide
theorem test_nor : regAfter (logical 0x00221827) 3 = some (0x000F0000, 0x00400004) := by decide
theorem test_andi : regAfter (logical 0x3023FF00) 3 = some (0x0000A500, 0x00400004) := by decide
theorem test_ori : regAfter (start 0x34238000 [(1, 0x00010000)]) 3 = some (0x00018000, 0x00400004) := by decide
theorem test_xori : regAfter (logical 0x3823FFFF) 3 = some (0xF0F05A5A, 0x00400004) := by decide
theorem test_lui : regAfter (start 0x3CE11234 [(7, 0xFFFFFFFF)]) 1 = some (0x12340000, 0x00400004) := by decide

/-! ## One step: shifts (V3) -/

/-- The operands of V3. -/
def shifted (w : Nat) (n : Word) : State := start w [(1, 0x80000001), (2, n)]

theorem test_sll : regAfter (start 0x00011100 [(1, 0x12345678)]) 2 = some (0x23456780, 0x00400004) := by decide
theorem test_srl : regAfter (shifted 0x00011902 0) 3 = some (0x08000000, 0x00400004) := by decide
theorem test_sra : regAfter (shifted 0x00011FC3 0) 3 = some (0xFFFFFFFF, 0x00400004) := by decide
theorem test_sllv : regAfter (shifted 0x00411804 33) 3 = some (2, 0x00400004) ∧
    regAfter (shifted 0x00411804 32) 3 = some (0x80000001, 0x00400004) := by decide
theorem test_srlv : regAfter (shifted 0x00411806 33) 3 = some (0x40000000, 0x00400004) := by decide
theorem test_srav : regAfter (shifted 0x00411807 33) 3 = some (0xC0000000, 0x00400004) ∧
    regAfter (shifted 0x00411807 0xFFFFFFFF) 3 = some (0xFFFFFFFF, 0x00400004) := by decide

/-! ## One step: multiply and divide (V4) -/

/-- Operands of V4 in r1 and r2, with HI and LO preset. -/
def pair (w : Nat) (a b : Word) : State :=
  { start w [(1, a), (2, b)] with hi := 0x11111111, lo := 0x22222222 }

theorem test_mult : hiLoAfter (pair 0x00220018 0xFFFFFFFF 2) = some (0xFFFFFFFF, 0xFFFFFFFE) ∧
    hiLoAfter (pair 0x00220018 0x80000000 0x80000000) = some (0x40000000, 0) := by decide
theorem test_multu : hiLoAfter (pair 0x00220019 0xFFFFFFFF 0xFFFFFFFF) = some (0xFFFFFFFE, 1) := by decide
theorem test_div : hiLoAfter (pair 0x0022001A 0xFFFFFFF9 2) = some (0xFFFFFFFF, 0xFFFFFFFD) ∧
    hiLoAfter (pair 0x0022001A 7 0xFFFFFFFE) = some (1, 0xFFFFFFFD) ∧
    hiLoAfter (pair 0x0022001A 0x80000000 0xFFFFFFFF) = some (0, 0x80000000) := by decide
theorem test_divu : hiLoAfter (pair 0x0022001B 0xFFFFFFF9 2) = some (1, 0x7FFFFFFC) := by decide
theorem test_div_by_zero : hiLoAfter (pair 0x0022001A 7 0) = some (0x11111111, 0x22222222) ∧
    hiLoAfter (pair 0x0022001B 7 0) = some (0x11111111, 0x22222222) := by decide
theorem test_mfhi : regAfter (pair 0x00001810 0 0) 3 = some (0x11111111, 0x00400004) := by decide
theorem test_mflo : regAfter (pair 0x00001812 0 0) 3 = some (0x22222222, 0x00400004) := by decide
theorem test_mthi : hiLoAfter (pair 0x00200011 0x12345678 0) = some (0x12345678, 0x22222222) := by decide
theorem test_mtlo : hiLoAfter (pair 0x00200013 0x12345678 0) = some (0x11111111, 0x12345678) := by decide

/-! ## One step: branches and jumps (V5) -/

/-- The pending target for each of V5's four values of r1. -/
def taken (w : Nat) : List (Option (Word × Option Word)) :=
  [0, 1, 0xFFFFFFFF, 0x80000000].map fun v => seqAfter (start w [(1, v)])

/-- Taken, by V5: the slot comes next and the target is pending. -/
def yes : Option (Word × Option Word) := some (0x00400004, some 0x00400010)
/-- Not taken. -/
def no : Option (Word × Option Word) := some (0x00400004, none)

theorem test_blez : taken 0x18200003 = [yes, no, yes, yes] := by decide
theorem test_bgtz : taken 0x1C200003 = [no, yes, no, no] := by decide
theorem test_bltz : taken 0x04200003 = [no, no, yes, yes] := by decide
theorem test_bgez : taken 0x04210003 = [yes, yes, no, no] := by decide
theorem test_bltzal : taken 0x04300003 = [no, no, yes, yes] ∧
    regAfter (start 0x04300003 [(1, 1)]) 31 = some (0x00400008, 0x00400004) := by decide
theorem test_bltzal_r31 : seqAfter (start 0x07F00003 [(31, 0x80000000)]) = yes ∧
    regAfter (start 0x07F00003 [(31, 0x80000000)]) 31 = some (0x00400008, 0x00400004) := by decide
theorem test_bgezal : taken 0x04310003 = [yes, yes, no, no] ∧
    regAfter (start 0x04310003 [(1, 0x80000000)]) 31 = some (0x00400008, 0x00400004) := by decide
theorem test_beq : seqAfter (start 0x10220002 [(1, 7), (2, 7)]) = some (0x00400004, some 0x0040000C) ∧
    seqAfter (start 0x10220002 [(1, 7), (2, 8)]) = no := by decide
theorem test_bne : seqAfter (start 0x1422FFFF [(1, 1), (2, 2)]) = some (0x00400004, some 0x00400000) ∧
    seqAfter (start 0x1422FFFF [(1, 2), (2, 2)]) = no := by decide
theorem test_j : seqAfter (start 0x08100008 []) = some (0x00400004, some 0x00400020) := by decide
/-- The upper four bits come from the delay slot's address (V5.17). -/
theorem test_j_region : jumpTarget 0x0FFFFFFC 0x10 = 0x10000040 := by decide
theorem test_jal : seqAfter (start 0x0C100008 []) = some (0x00400004, some 0x00400020) ∧
    regAfter (start 0x0C100008 []) 31 = some (0x00400008, 0x00400004) := by decide
theorem test_jr : seqAfter (start 0x00400008 [(2, 0x00400102)]) = some (0x00400004, some 0x00400102) := by decide
theorem test_jalr : seqAfter (start 0x00401009 [(2, 0x00400100)]) = some (0x00400004, some 0x00400100) ∧
    regAfter (start 0x00401009 [(2, 0x00400100)]) 2 = some (0x00400008, 0x00400004) := by decide
theorem test_jalr_r0 : regAfter (start 0x00400009 [(2, 0x00400100)]) 0 = some (0, 0x00400004) := by decide

/-- A jump in a delay slot (V5.24): the PC goes to the first target, the second is pending. -/
theorem test_jump_in_slot : seqAfter { start 0x08100010 [] with delay := some 0x00400020 } =
    some (0x00400020, some 0x00400040) := by decide
/-- A fault in a delay slot (V5.25): EPC is the slot's address and the pending target is lost. -/
theorem test_fault_in_slot :
    trapAfter { start 0x00221820 [(1, 0x7FFFFFFF), (2, 1)] with delay := some 0x00400010 } =
      some (0x30, 0x00400000, 0, 2, 0x80000180) ∧
    seqAfter { start 0x00221820 [(1, 0x7FFFFFFF), (2, 1)] with delay := some 0x00400010 } =
      some (0x80000180, none) := by decide

/-! ## One step: loads and stores (V6) -/

/-- A load vector of V6. -/
def loads (w : Nat) : State := withData (start w [(1, 0x10010000), (2, 0x55555555)])
/-- A store vector of V6, and the word at the data address after it. -/
def stores (w : Nat) : Option Word :=
  after (withData (start w [(1, 0x10010000), (2, 0x123456AB)])) fun t => t.mem.read 0x10010000 .word

theorem test_lb : regAfter (loads 0x80220000) 2 = some (0xFFFFFF81, 0x00400004) ∧
    regAfter (loads 0x80220003) 2 = some (0x44, 0x00400004) := by decide
theorem test_lbu : regAfter (loads 0x90220002) 2 = some (0xF3, 0x00400004) := by decide
theorem test_lh : regAfter (loads 0x84220002) 2 = some (0xFFFFF344, 0x00400004) := by decide
theorem test_lh_misaligned : trapAfter (loads 0x84220001) = some (0x10, 0x00400000, 0x10010001, 2, 0x80000180) := by
  decide
theorem test_lhu : regAfter (loads 0x94220000) 2 = some (0x8122, 0x00400004) := by decide
theorem test_lhu_misaligned : trapAfter (loads 0x94220003) = some (0x10, 0x00400000, 0x10010003, 2, 0x80000180) := by
  decide
theorem test_lw : regAfter (loads 0x8C210000) 1 = some (0x8122F344, 0x00400004) := by decide
theorem test_lw_unmapped : trapAfter (loads 0x8C22FFFC) = some (0x10, 0x00400000, 0x1000FFFC, 2, 0x80000180) := by
  decide
theorem test_lb_wraps :
    trapAfter (start 0x8022FFFF []) = some (0x10, 0x00400000, 0xFFFFFFFF, 2, 0x80000180) := by decide
theorem test_sb : stores 0xA0220003 = some 0x8122F3AB ∧ stores 0xA0220000 = some 0xAB22F344 := by decide
theorem test_sh : stores 0xA4220002 = some 0x812256AB := by decide
theorem test_sh_misaligned : trapAfter (loads 0xA4220001) = some (0x14, 0x00400000, 0x10010001, 2, 0x80000180) := by
  decide
theorem test_sw : stores 0xAC220000 = some 0x123456AB ∧ stores 0xAC200000 = some 0 := by decide
theorem test_sw_rom : trapAfter (start 0xAC220000 [(1, 0x80000000)]) =
    some (0x14, 0x00400000, 0x80000000, 2, 0x80000180) := by decide

/-- The console's registers at `0xFFFF0000`, with the bytes `41 E9` waiting (V6.24). -/
def console (w : Nat) : State := { start w [(1, 0xFFFF0000), (2, 0x12345641)] with consoleIn := [0x41, 0xE9] }

theorem test_console_status : regAfter (console 0x8C220000) 2 = some (1, 0x00400004) := by decide
theorem test_console_data :
    after (console 0x8C230004) (fun t => (t.reg 3, t.consoleIn)) = some (0x41, [0xE9]) ∧
    after { console 0x80240004 with consoleIn := [0xE9] } (fun t => (t.reg 4, t.consoleIn)) =
      some (0xFFFFFFE9, []) := by decide
theorem test_console_out : after (console 0xA022000C) State.consoleOut = some [0x41] ∧
    after (console 0xAC22000C) State.consoleOut = some [0x41] := by decide
theorem test_console_directions : trapAfter (console 0x8C22000C) =
      some (0x10, 0x00400000, 0xFFFF000C, 2, 0x80000180) ∧
    trapAfter (console 0xAC220004) = some (0x14, 0x00400000, 0xFFFF0004, 2, 0x80000180) := by decide
/-- A blocked read holds the step, a byte from outside lets it complete, a pause waits (R329). -/
theorem test_console_blocks :
    after { console 0x8C230004 with consoleIn := [] } (fun t => (t.hold, t.pc, t.reg 3)) =
      some (some .consoleInput, 0x00400000, 0) ∧
    after { console 0x8C230004 with
      consoleIn := [], hold := some .consoleInput, agenda := [[.pause, .input 7]] }
        (fun t => (t.hold, t.pc, t.reg 3)) = some (none, 0x00400004, 7) := by decide

/-! ## One step: system, exceptions, interrupts (V7) -/

/-- The coprocessor-0 state of V7.1. -/
def cp0 (w : Nat) : State :=
  { start w [(1, 0xFFFFFFFF)] with
    status := Status.ofWord 0x0000FF03, cause := ⟨12, 3⟩, epc := 0x00400008, badVAddr := 0x10010001 }

theorem test_mfc0 : regAfter (cp0 0x40026000) 2 = some (0x0000FF03, 0x00400004) ∧
    regAfter (cp0 0x40036800) 3 = some (0x00000330, 0x00400004) ∧
    regAfter (cp0 0x40047000) 4 = some (0x00400008, 0x00400004) ∧
    regAfter (cp0 0x40054000) 5 = some (0x10010001, 0x00400004) := by decide
theorem test_mtc0 :
    trapAfter (start 0x40816000 [(1, 0xFFFFFFFF)]) = some (0, 0, 0, 0x0000FF03, 0x00400004) ∧
    trapAfter (start 0x40816800 [(1, 0xFFFFFFFF)]) = some (0x300, 0, 0, 0, 0x00400004) := by decide
theorem test_mtc0_epc_badVAddr :
    trapAfter (start 0x40817000 [(1, 0x12345679)]) = some (0, 0x12345679, 0, 0, 0x00400004) ∧
    trapAfter (start 0x40814000 [(1, 0x12345679)]) = some (0, 0, 0, 0, 0x00400004) := by decide
theorem test_mfc0_unimplemented : trapAfter (start 0x40024800 []) = some (0x28, 0x00400000, 0, 2, 0x80000180) := by
  decide
theorem test_mtc0_unimplemented : trapAfter (start 0x40817800 []) = some (0x28, 0x00400000, 0, 2, 0x80000180) := by
  decide
theorem test_eret : trapAfter { start 0x42000018 [] with status := ⟨true, true, 0⟩, epc := 0x00400008 } =
    some (0, 0x00400008, 0, 1, 0x00400008) := by decide
theorem test_eret_in_slot :
    seqAfter { start 0x42000018 [] with epc := 0x00400008, delay := some 0x00400040 } =
      some (0x00400008, none) := by decide
theorem test_break : trapAfter (start 0x0048D14D []) = some (0x24, 0x00400000, 0, 2, 0x80000180) := by decide
/-- BREAK on a platform whose vector is unmapped (V7.23). -/
def unhandled : State :=
  { start 0x0000000D [] with platform := { Config.testPlatform with excVector := 0x90000180 } }

theorem test_break_no_handler : trapAfter unhandled = some (0x24, 0x00400000, 0, 2, 0x00400000) ∧
    after unhandled (fun t => (t.runState, t.stopReason)) =
      some (.halted, some (.noHandler ⟨.bp, 0x00400000⟩)) := by decide
theorem test_syscall_trap :
    trapAfter { start 0x0000000C [(2, 10)] with platform := { Config.testPlatform with syscallHosted := false } } =
      some (0x20, 0x00400000, 0, 2, 0x80000180) := by decide
theorem test_syscall_hosted :
    after (start 0x0000000C [(2, 10)]) (fun t => (t.runState, t.stopReason, t.pc, t.cause.toWord)) =
      some (.halted, some .programExit, 0x00400000, 0x20) ∧
    trapAfter (start 0x0000000C [(2, 99)]) = some (0x28, 0x00400000, 0, 2, 0x80000180) ∧
    after { start 0x0000000C [(2, 11)] with answers := [⟨none, [], [0x41], 0, .resume⟩] }
      (fun t => (t.consoleOut, t.cause.toWord, t.epc, t.status.toWord, t.pc)) =
      some ([0x41], 0x20, 0x00400000, 0, 0x00400004) := by decide
/-- The exit service after a last byte of output, and a service that fails (R325). -/
theorem test_syscall_answers :
    after { start 0x0000000C [(2, 10)] with answers := [⟨some 7, [], [0x41], 0, .exit⟩] }
      (fun t => (t.runState, t.stopReason, t.pc, t.reg 2, t.consoleOut)) =
      some (.halted, some .programExit, 0x00400000, 7, [0x41]) ∧
    after { start 0x0000000C [(2, 11)] with answers := [⟨none, [(0x10010000, 9)], [], 0, .fault⟩] }
      (fun t => (t.runState, t.stopReason, t.pc, t.mem.readByte 0x10010000)) =
      some (.halted, some .syscallFault, 0x00400000, 9) := by decide
theorem test_service_request : (start 0x0000000C [(2, 4), (4, 1), (7, 5)]).serviceRequest = (4, [1, 0, 0, 5]) := by
  decide
/-- A query gives bytes of RAM and ROM, modulo 2^32, and none of a device or a hole (log 32). -/
theorem test_query : (start 0xA1B2C3D4 []).queryMemory 0x00400003 2 = [some 0xD4, some 0] ∧
    State.reset.queryMemory 0xFFFF0000 1 = [none] ∧ State.reset.queryMemory 0xFFFFFFFF 2 = [none, none] := by decide
theorem test_reserved : trapAfter (start 0xFFFFFFFF []) = some (0x28, 0x00400000, 0, 2, 0x80000180) := by decide
/-- With EXL = 1 a synchronous exception is fatal and changes nothing (V7.22). -/
theorem test_fatal :
    after { start 0x8C220001 [(1, 0x10010000)] with status := ⟨false, true, 0⟩, cause := ⟨12, 0⟩, epc := 0x1234 }
      (fun t => (t.runState, t.stopReason, t.pc, t.cause.toWord, t.epc, t.badVAddr)) =
    some (.halted, some (.fatal ⟨.adel 0x10010001, 0x00400000⟩), 0x00400000, 0x30, 0x1234, 0) := by decide
/-- A fetch at a misaligned PC (V5.22) and from a device (V7.24). -/
theorem test_fetch_faults :
    trapAfter { State.reset with pc := 0x00400102 } = some (0x10, 0x00400102, 0x00400102, 2, 0x80000180) ∧
    trapAfter { State.reset with pc := 0xFFFF0000 } = some (0x10, 0xFFFF0000, 0xFFFF0000, 2, 0x80000180) := by decide

/-- The interrupt vectors V7.6 to V7.10: line 0 is up and Status is `st`. -/
def interrupted (w : Nat) (st : Word) : State :=
  { start w [(1, 0x7FFFFFFF), (2, 1)] with status := Status.ofWord st, hwIrq := 1 }

theorem test_interrupt_taken :
    trapAfter (interrupted 0x24030001 0x401) = some (0x400, 0x00400000, 0, 0x403, 0x80000180) := by decide
theorem test_interrupt_masked :
    [0x400, 0x801, 0x403].map (fun st => regAfter (interrupted 0x24030001 st) 3) =
      List.replicate 3 (some (1, 0x00400004)) := by decide
theorem test_exception_beats_interrupt :
    trapAfter (interrupted 0x00221820 0x401) = some (0x430, 0x00400000, 0, 0x403, 0x80000180) := by decide
theorem test_interrupt_waits_for_slot :
    seqAfter { interrupted 0x24030001 0x401 with delay := some 0x00400010 } = some (0x00400010, none) := by decide
/-- A breakpoint stops before any effect, and the next step is exempt (S7). -/
theorem test_breakpoint :
    after { start 0x34010005 [] with breakpoints := [0x00400000] } (fun t => (t.report, t.pc, t.reg 1)) =
      some (some (.breakpointHit 0x00400000), 0x00400000, 0) ∧
    after { start 0x34010005 [] with breakpoints := [0x00400000], exempt := some 0x00400000 }
      (fun t => (t.report, t.pc, t.reg 1)) = some (none, 0x00400004, 5) := by decide
theorem test_halted_takes_no_step : step { State.reset with runState := .halted } = .fault .halted := rfl

/-! ## Witnesses: a concrete state and operands that meet the hypotheses of each statement, clause by clause -/

/-- The state after one step. -/
def next (s : State) : State :=
  match step s with
  | .next t => t
  | _ => s

theorem witness_DecodedWordMatchesItsRow : decode 0x3CE11234 = .operation (.lui 1 0x1234) := by decide

theorem witness_TableRowsDoNotOverlap : ∃ row ∈ opcodeTable, row.admits 0x43FFFFD8 = true :=
  ⟨⟨"ERET", 0x42000018, 0xFE00003F⟩, by decide, by decide⟩

theorem witness_UnusedFieldsAreIgnored : decode 0x3C011234 = .operation (.lui 1 0x1234) ∧
    (0x3FE11234 : Word) &&& usedBits (.lui 1 0x1234) = 0x3C011234 &&& usedBits (.lui 1 0x1234) ∧
    rowOf (.lui 1 0x1234) ∈ opcodeTable ∧ (rowOf (.lui 1 0x1234)).admits 0x3FE11234 = true := by decide

/-- The last sum that is a word, and the first that is not, in each form. -/
theorem witness_AddSubAreExactOrTrap :
    (0x7FFFFFFF : Word).toInt = ((preset [(1, 0x7FFFFFFE), (2, 1)]).reg 1).toInt +
      ((preset [(1, 0x7FFFFFFE), (2, 1)]).reg 2).toInt ∧
    (0x80000000 : Word).toInt = ((preset [(1, 0x80000001), (2, 1)]).reg 1).toInt -
      ((preset [(1, 0x80000001), (2, 1)]).reg 2).toInt ∧
    (0x80000000 : Word).toInt = ((preset [(1, 0x80008000)]).reg 1).toInt + (0x8000 : BitVec 16).toInt := by decide

theorem witness_AddSubAreExactOrTrap_overflow :
    (CanTrap (preset [(1, 0x7FFFFFFF), (2, 1)]) ∧
      ∀ v : Word, v.toInt ≠ ((preset [(1, 0x7FFFFFFF), (2, 1)]).reg 1).toInt +
        ((preset [(1, 0x7FFFFFFF), (2, 1)]).reg 2).toInt) ∧
    (CanTrap (preset [(1, 0x80000000), (2, 1)]) ∧
      ∀ v : Word, v.toInt ≠ ((preset [(1, 0x80000000), (2, 1)]).reg 1).toInt -
        ((preset [(1, 0x80000000), (2, 1)]).reg 2).toInt) ∧
    (CanTrap (preset [(1, 0x80007FFF)]) ∧
      ∀ v : Word, v.toInt ≠ ((preset [(1, 0x80007FFF)]).reg 1).toInt + (0x8000 : BitVec 16).toInt) := by
  have hi : ∀ v : Word, v.toInt < 2147483648 := fun v => v.toInt_lt
  have lo : ∀ v : Word, -2147483648 ≤ v.toInt := fun v => v.le_toInt
  refine ⟨⟨by unfold CanTrap; decide, fun v => ?_⟩, ⟨by unfold CanTrap; decide, fun v => ?_⟩,
    ⟨by unfold CanTrap; decide, fun v => ?_⟩⟩
  · exact ne_of_lt (hi v)
  · exact ne_of_gt (lt_of_lt_of_le (b := -2147483648) (by decide) (lo v))
  · exact ne_of_gt (lt_of_lt_of_le (b := -2147483648) (by decide) (lo v))

theorem witness_DivisionIsExact :
    let s := preset [(1, 0x80000000), (2, 1), (3, 0xFFFFFFFF)]
    s.reg 2 ≠ 0 ∧ ¬(s.reg 1 = 0x80000000 ∧ s.reg 2 = 0xFFFFFFFF) ∧
    s.reg 3 ≠ 0 ∧ s.reg 1 = 0x80000000 ∧ s.reg 3 = 0xFFFFFFFF := by decide

theorem witness_DivisionByZeroDoesNotTrap :
    State.reset.reg 2 = 0 ∧ State.reset.platform.div0Policy = .unchanged := by decide

theorem witness_HiLoBelongToTheFamily : (Instr.add 3 1 2).isMulDiv = false := rfl

/-- In a delay slot and outside one; a branch and no branch. -/
theorem witness_CommitAdvancesThePc :
    ∃ s t : State, detect (.beq 0 0 1) s = none ∧ s.hold = none ∧ s.delay = some 0x00400010 ∧
      exec (.beq 0 0 1) s = .next t ∧ t.hold = none ∧ t.delay ≠ none :=
  ⟨{ State.reset with delay := some 0x00400010 }, _, rfl, rfl, rfl, rfl, rfl, by decide⟩

theorem witness_ComputedTargetsAreAligned : (0xFFFFFFFC : Word).toNat % 4 = 0 := by decide

/-- A taken BEQ and the ADDI in its slot (S3). -/
def branchAndSlot : State :=
  { start 0x10220002 [(1, 7), (2, 7)] with
    mem := (start 0x10220002 []).mem.writeBytes 0x00400004 (bytesOfWord 0x20630001) }

theorem witness_DelaySlotRunsBeforeTheTarget :
    let s := { branchAndSlot with agenda := [[.lines 1], [.input 7]] }
    let t := next s
    (s.runState = .running ∧ s.atBoundary.runState = .running ∧ s.atBoundary.hold = none ∧
      s.atBoundary.stopCheck = none ∧ s.atBoundary.fetch = some 0x10220002 ∧
      decode 0x10220002 = .operation (.beq 1 2 2) ∧ s.atBoundary.begin.intDeliverable = false ∧
      pendingTarget (.beq 1 2 2) s.atBoundary = some 0x0040000C) ∧
    t.atBoundary.stopCheck = none ∧ t.atBoundary.fetch = some 0x20630001 ∧
    decode 0x20630001 = .operation (.addi 3 3 1) ∧ detect (.addi 3 3 1) t.atBoundary.begin = none ∧
    (next t).hold = none := by decide

/-- The last byte, halfword and word of the data region. -/
theorem witness_StoreThenLoadRoundTrip : State.reset.mem.wf ∧
    (aligned .byte 0x1001FFFF = true ∧ State.reset.platform.kindAt (0x1001FFFF : Word).toNat = some .ram) ∧
    (aligned .half 0x1001FFFE = true ∧ State.reset.platform.kindAt (0x1001FFFE : Word).toNat = some .ram) ∧
    (aligned .word 0x1001FFFC = true ∧ State.reset.platform.kindAt (0x1001FFFC : Word).toNat = some .ram) ∧
    (aligned .word 0x80000000 = true ∧ State.reset.platform.kindAt (0x80000000 : Word).toNat = some .rom) := by decide

theorem witness_MixedWidthAccesses : Memory.wf [(5, 1)] ∧ aligned .word 0xFFFFFFFC = true ∧
    State.reset.platform.fetchable State.reset.pc = true := by decide

theorem witness_CanonicalMemoriesAreEqual : Memory.wf [(5, 1)] ∧
    ∀ a, Memory.readByte [(5, 1)] a = Memory.readByte [(5, 1)] a := ⟨by decide, fun _ => rfl⟩

/-- The last word of RAM and the first of ROM. -/
theorem witness_LoadsFromStorage :
    let s := preset [(1, 0x1001FFF8), (2, 0x80000000)]
    s.platform.isStorage (effAddr (s.reg 1) 4).toNat = true ∧ (effAddr (s.reg 1) 4).toNat % 2 = 0 ∧
    (effAddr (s.reg 1) 4).toNat % 4 = 0 ∧ s.platform.isStorage (effAddr (s.reg 2) 0).toNat = true := by decide

theorem witness_StoresToRam :
    let s := preset [(1, 0x1001FFF8)]
    s.mem.wf ∧ s.platform.kindAt (effAddr (s.reg 1) 4).toNat = some .ram ∧ (effAddr (s.reg 1) 4).toNat % 2 = 0 ∧
    (effAddr (s.reg 1) 4).toNat % 4 = 0 := by decide

/-- Misaligned by 1 and by 2; no region; each device; ROM. -/
theorem witness_BadAccessesTakeAddressErrors :
    let s := preset [(1, 0x10010000), (2, 0x20000000), (3, 0xFFFF0000), (4, 0x80000000)]
    let kind := fun (r : Reg) imm => s.platform.kindAt (effAddr (s.reg r) imm).toNat
    CanTrap s ∧ (effAddr (s.reg 1) 1).toNat % 2 = 1 ∧ (effAddr (s.reg 1) 2).toNat % 4 ≠ 0 ∧ kind 2 0 = none ∧
    kind 3 12 = some .consoleOut ∧ kind 4 0 = some .rom ∧ kind 3 4 = some .consoleIn := by
  unfold CanTrap; decide

/-- The console-input region of the test platform. -/
def cin : Region := ⟨"cin", 0xFFFF0000, 8, .consoleIn⟩

theorem witness_ConsoleInputLoads :
    let s := console 0
    (LoadForm 3 7 1 (.lb 3 7 1) .byte (fun v => (v.setWidth 8).signExtend 32) ∧
      s.platform.regionAt (effAddr (s.reg 1) 7).toNat = some cin ∧ aligned .byte (effAddr (s.reg 1) 7) = true ∧
      cin.base.toNat + 4 ≤ (effAddr (s.reg 1) 7).toNat ∧ (effAddr (s.reg 1) 7).toNat < cin.base.toNat + 8) ∧
    (LoadForm 3 0 1 (.lw 3 0 1) .word (fun v => v) ∧ s.platform.regionAt (effAddr (s.reg 1) 0).toNat = some cin ∧
      aligned .word (effAddr (s.reg 1) 0) = true ∧ (effAddr (s.reg 1) 0).toNat < cin.base.toNat + 4) ∧
    cin.kind = .consoleIn ∧ s.consoleIn = [0x41, 0xE9] :=
  ⟨⟨.lb, by decide⟩, ⟨.lw, by decide⟩, by decide⟩

/-- The console with nothing waiting, in `marker` mode and in `block` mode. -/
def quiet (w : Nat) (mode : InputMode) : State :=
  { console w with consoleIn := [], platform := { Config.testPlatform with inputMode := mode, inputTimeout := true } }

theorem witness_EmptyConsoleInput : ∀ mode, (mode = .marker ∨ mode = .block) →
    aligned .word (effAddr ((quiet 0 mode).reg 1) 4) = true ∧
    (quiet 0 mode).platform.regionAt (effAddr ((quiet 0 mode).reg 1) 4).toNat = some cin ∧
    (effAddr ((quiet 0 mode).reg 1) 4).toNat = cin.base.toNat + 4 ∧ (quiet 0 mode).consoleIn = [] ∧
    (quiet 0 mode).platform.inputMode = mode := by
  rintro mode (rfl | rfl) <;> decide

/-- A held read and what the outside does next. -/
def heldRead (agenda : List (List OutsideEvent)) : State :=
  { quiet 0x8C230004 .block with hold := some .consoleInput, agenda := agenda }

theorem witness_HeldReadEnds : ∀ agenda, (agenda = [[.input 0x41]] ∨ agenda = [[.timeout]] ∨ agenda = []) →
    let s := heldRead agenda
    s.runState = .running ∧ s.hold = some .consoleInput ∧ s.consoleIn = [] ∧ s.fetch = some 0x8C230004 ∧
    decode 0x8C230004 = .operation (.lw 3 4 1) ∧ aligned .word (effAddr (s.reg 1) 4) = true ∧
    (effAddr (s.reg 1) 4).toNat = cin.base.toNat + 4 ∧ s.platform.regionAt (effAddr (s.reg 1) 4).toNat = some cin ∧
    s.platform.inputTimeout = true ∧ s.platform.inputMode = .block ∧ s.agenda = agenda := by
  rintro agenda (rfl | rfl | rfl) <;> decide

/-- A console-input region with a third word. -/
theorem witness_OtherDeviceWordsGiveFreeValues :
    let wide : Region := ⟨"cin", 0x90000000, 12, .consoleIn⟩
    let s := { preset [(1, 0x90000000)] with platform := { Config.testPlatform with regions := [wide] } }
    s.platform.regionAt (effAddr (s.reg 1) 8).toNat = some wide ∧ aligned .word (effAddr (s.reg 1) 8) = true ∧
    wide.base.toNat + 8 ≤ (effAddr (s.reg 1) 8).toNat := by decide

theorem witness_ConsoleOutputStores :
    (console 0).platform.kindAt (effAddr ((console 0).reg 1) 12).toNat = some .consoleOut ∧
    aligned .word (effAddr ((console 0).reg 1) 12) = true ∧
    (console 0).platform.kindAt (effAddr ((console 0).reg 1) 15).toNat = some .consoleOut ∧
    aligned .byte (effAddr ((console 0).reg 1) 15) = true := by decide

theorem witness_UnimplementedCp0IsReserved : CanTrap State.reset ∧ (9 : Reg) ≠ 8 ∧ (9 : Reg) ≠ 12 ∧ (9 : Reg) ≠ 13 ∧
    (9 : Reg) ≠ 14 := by unfold CanTrap; decide

/-- The reset state on a platform with no dispatcher. -/
def unhosted : State := { State.reset with platform := { Config.testPlatform with syscallHosted := false } }

theorem witness_BreakAndSyscallTrap : CanTrap unhosted ∧ unhosted.platform.syscallHosted = false := by
  unfold CanTrap; decide

/-- A print-character request and the host's answer. -/
def served (number : Word) (answers : List ServiceReply) : State :=
  { start 0x0000000C [(2, number)] with answers := answers }

theorem witness_HostedSyscallResumes : ∀ number : Word, (number = 10 ∨ number = 11) →
    let s := served number [⟨some 5, [(0x10010000, 1)], [0x41], 0, .resume⟩]
    s.mem.wf ∧ s.status.exl = false ∧ s.platform.syscallHosted = true ∧ s.service ≠ none := by
  rintro number (rfl | rfl) <;> decide

theorem witness_HostedSyscallEndings :
    ((served 11 [⟨none, [], [], 0, .fault⟩]).service = some .external) ∧
    ((served 10 [⟨none, [], [0x41], 0, .exit⟩]).service = some .exit) ∧
    ((served 10 []).service = some .exit ∧ (served 10 []).answers = []) ∧
    ((served 11 []).service = some .external ∧ (served 11 []).answers = []) ∧
    ((served 99 []).service = none ∧ (served 99 []).platform.handlerInstalled = true) ∧
    ({ served 99 [] with platform := unhandled.platform }.service = none ∧
      unhandled.platform.handlerInstalled = false) ∧
    (served 10 []).mem.wf ∧ (served 10 []).status.exl = false ∧ (served 10 []).platform.syscallHosted = true := by
  decide

theorem witness_HeldServiceEnds : ∀ agenda, (agenda = [[.reply ⟨some 5, [], [], 0, .resume⟩]] ∨ agenda = []) →
    let s := { served 11 [] with hold := some .serviceAnswer, agenda := agenda }
    s.mem.wf ∧ s.runState = .running ∧ s.answers = [] ∧ s.status.exl = false ∧ s.platform.syscallHosted = true ∧
    s.service = some .external ∧ s.fetch = some 0x0000000C ∧ decode 0x0000000C = .operation (.syscall 0) := by
  rintro agenda (rfl | rfl) <;> decide

theorem witness_DetectionDecidesTheInstruction :
    detect (.mfc0 1 9) State.reset = some .ri ∧ detect (.mfc0 1 12) State.reset = none ∧
    (detect (.syscall 0) { State.reset with status := ⟨false, true, 0⟩ } = some .sys) ∧
    (detect (.brk 0) unhandled = some .bp ∧ unhandled.status.exl = false ∧
      unhandled.platform.handlerInstalled = false) := by decide

theorem witness_TrapEntry :
    (State.reset.platform.excVector.toNat % 4 = 0 ∧
      State.reset.platform.kindAt State.reset.platform.excVector.toNat = some .rom) ∧
    unhandled.platform.kindAt unhandled.platform.excVector.toNat = none ∧ State.reset.status.exl = false := by decide

theorem witness_MaskedExceptionIsFatal :
    let s := { State.reset with status := ⟨false, true, 0⟩ }
    s.status.exl = true ∧ detect (.syscall 0) s = some .sys := by decide

theorem witness_PriorityOfEvents : arbitrate [.int, .ov, .adel 5] = some (.adel 5) ∧ arbitrate [.int, .ov] = some .ov ∧
    arbitrate [.int] = some .int := by decide

/-- A misaligned PC and an unmapped one, with exceptions enabled, with EXL = 1 and with no handler. -/
theorem witness_BadFetchTakesAddressError : ∀ (pc : Word) (exl : Bool) (vector : Word),
    (pc = 0x00400102 ∨ pc = 0x20000000) → (exl = false ∨ exl = true) → (vector = 0x80000180 ∨ vector = 0x90000180) →
    let s := { State.reset with
      pc := pc, status := ⟨false, exl, 0⟩, platform := { Config.testPlatform with excVector := vector }
      agenda := [[.lines 1]] }
    let b := s.atBoundary
    s.runState = .running ∧ b.runState = .running ∧ b.hold = none ∧ b.stopCheck = none ∧
    (b.pc.toNat % 4 ≠ 0 ∨ b.platform.isStorage b.pc.toNat = false) ∧ b.begin.status.exl = exl ∧
    (b.begin.platform.handlerInstalled = true ↔ vector = 0x80000180) := by
  rintro pc exl vector (rfl | rfl) (rfl | rfl) (rfl | rfl) <;> decide

theorem witness_ReservedWordTraps : ∀ (exl : Bool) (vector : Word),
    (exl = false ∨ exl = true) → (vector = 0x80000180 ∨ vector = 0x90000180) →
    let s := { start 0x88220000 [] with
      status := ⟨false, exl, 0⟩, platform := { Config.testPlatform with excVector := vector }, agenda := [[.lines 1]] }
    let b := s.atBoundary
    s.runState = .running ∧ b.runState = .running ∧ b.hold = none ∧ b.stopCheck = none ∧
    b.fetch = some 0x88220000 ∧ (∀ row ∈ opcodeTable, row.admits 0x88220000 = false) ∧ b.begin.status.exl = exl ∧
    (b.begin.platform.handlerInstalled = true ↔ vector = 0x80000180) := by
  rintro exl vector (rfl | rfl) (rfl | rfl) <;> decide

/-- With a deliverable interrupt and without one, with an exception of the instruction's own and without one. -/
theorem witness_StepRunsTheDecodedInstruction : ∀ st : Word, (st = 0x401 ∨ st = 0) →
    let s := interrupted 0x00221820 st
    let u := interrupted 0x24030001 st
    s.runState = .running ∧ s.atBoundary.runState = .running ∧ s.atBoundary.hold = none ∧
    s.atBoundary.stopCheck = none ∧ s.atBoundary.fetch = some 0x00221820 ∧
    decode 0x00221820 = .operation (.add 3 1 2) ∧ detect (.add 3 1 2) s.atBoundary.begin = some .ov ∧
    u.atBoundary.fetch = some 0x24030001 ∧ decode 0x24030001 = .operation (.addiu 3 0 1) ∧
    detect (.addiu 3 0 1) u.atBoundary.begin = none ∧
    (u.atBoundary.begin.intDeliverable = true ↔ st = 0x401) := by
  rintro st (rfl | rfl) <;> decide

/-- Deliverable, by a line that rises at this very boundary, and kept by each of IE, EXL, the pending target and IM
alone. -/
theorem witness_InterruptDelivery :
    let s := { interrupted 0x24030001 0x401 with hwIrq := 0, agenda := [[.lines 1]] }
    let b := s.atBoundary
    s.runState = .running ∧ b.runState = .running ∧ b.hold = none ∧ b.stopCheck = none ∧ b.fetch = some 0x24030001 ∧
    decode 0x24030001 = .operation (.addiu 3 0 1) ∧ detect (.addiu 3 0 1) b.begin = none ∧ b.status.ie = true ∧
    b.status.exl = false ∧ b.delay = none ∧ b.platform.handlerInstalled = true ∧
    (b.begin.cause.ip.getLsbD 2 = true ∧ b.status.im.getLsbD 2 = true) ∧
    (interrupted 0x24030001 0x400).status.ie = false ∧ (interrupted 0x24030001 0x403).status.exl = true ∧
    { s with delay := some 0 }.delay ≠ none ∧
    ∀ n, n < 8 → (interrupted 0x24030001 0x801).begin.cause.ip.getLsbD n = true →
      (interrupted 0x24030001 0x801).status.im.getLsbD n = false := by decide

/-- A breakpoint and a pause that the outside sets at this very boundary; a halted machine with an agenda left. -/
theorem witness_StopsBeforeEffects :
    let s := { State.reset with agenda := [[.setBreakpoint 0x00400000]] }
    let u := { State.reset with agenda := [[.pause]] }
    (s.runState = .running ∧ s.atBoundary.runState = .running ∧ s.atBoundary.hold = none ∧
      s.atBoundary.pauseRequest = false ∧ s.atBoundary.pc ∈ s.atBoundary.breakpoints ∧
      s.atBoundary.exempt ≠ some s.atBoundary.pc) ∧
    (u.atBoundary.runState = .running ∧ u.atBoundary.hold = none ∧ u.atBoundary.pauseRequest = true) ∧
    { s with runState := .halted }.runState = .halted := by decide

/-- An image whose data blob overwrites the second text word, and one that is refused. -/
theorem witness_ImageLoadIsReset :
    Image.accepted State.reset.platform ⟨0x00400000, [(0x00400000, 0x34010005), (0x00400004, 0x0000000C)], 0x00400004,
      [1, 2]⟩ ∧ ¬ badText.accepted State.reset.platform := by decide

theorem witness_StepKeepsTheInvariant : Invariant branchAndSlot ∧ step branchAndSlot = .next (next branchAndSlot) :=
  ⟨by unfold Invariant; decide, rfl⟩

/-- A store to RAM, on a state with the invariant and with ROM beside it. -/
theorem witness_OnlyRamChanges :
    let s := withData (start 0xA0220003 [(1, 0x10010000), (2, 0xAB)])
    Invariant s ∧ step s = .next (next s) ∧ s.platform.kindAt 0x80000000 ≠ some .ram :=
  ⟨by unfold Invariant; decide, rfl, by decide⟩

/-- A snapshot on the reset state's platform, and a run of an event, a step and its restore. -/
theorem witness_HostActionsKeepTheInvariant :
    Invariant { State.reset with hi := 5 } ∧ { State.reset with hi := 5 }.platform = State.reset.platform ∧
    (∃ t, Reaches State.reset t ∧ t.hi = 5) ∧ State.reset.hold = none := by
  have h : Invariant { State.reset with hi := 5 } := by
    obtain ⟨a, b, c, d, e, f, g⟩ := (by unfold Invariant; decide : Invariant State.reset)
    exact ⟨a, b, c, d, e, f, g⟩
  exact ⟨h, rfl, ⟨_, .restore (.step (.outside (.lines 1) .refl) rfl) h rfl, rfl⟩, rfl⟩

end Sys2Proof.Tests
end

section
/-! SUPPORT. The invariant of the machine (spec 10 R21, R36, R40): the reset state has it, and every step, every event
from outside, every image load and every restore keeps it. -/

namespace Sys2Proof.Machine

/-! What the invariant depends on. -/

/-- The invariant speaks of six fields only. -/
theorem Invariant.congr {s t : State} (h : Invariant s) (hm : t.mem = s.mem) (hg : t.regs = s.regs)
    (hp : t.platform = s.platform) (hr : t.runState = s.runState) (hs : t.stopReason = s.stopReason)
    (hh : t.hold = s.hold) : Invariant t := by
  unfold Invariant at h ⊢
  rwa [hm, hg, hp, hr, hs, hh]

/-- A step that is no longer held leaves the invariant in place. -/
theorem Invariant.unheld {s : State} (h : Invariant s) : Invariant { s with hold := none } := by
  obtain ⟨hwf, hst, hz, hp, ht, hs, -⟩ := h
  exact ⟨hwf, hst, hz, hp, ht, hs, fun hc => absurd rfl hc⟩

/-- A halt whose step is not held keeps the invariant: the stop reason comes with it (R36). -/
theorem Invariant.halted {s : State} (h : Invariant s) (hh : s.hold = none) (r : StopReason) :
    Invariant (s.halt r) := by
  obtain ⟨hwf, hst, hz, hp, -, -, -⟩ := h
  exact ⟨hwf, hst, hz, hp, by simp, by simp, fun hc => absurd hh hc⟩

/-- What an instruction can do (`Effect`) keeps the invariant of a running state whose step is not held. -/
theorem Invariant.of_effect {s t : State} (h : Invariant s) (hr : s.runState = .running) (hh : s.hold = none)
    (e : Effect s t) : Invariant t := by
  obtain ⟨hwf, hst, hz, hp, -, hs, -⟩ := h
  have hs : s.stopReason = none := by simpa [hr] using hs
  refine ⟨e.wf hwf, fun c hc => ?_, e.slotZero.trans hz, e.platform ▸ hp, ?_⟩
  · rw [e.platform]
    rcases e.listed hp c hc with hc | hc
    · exact hst c hc
    · exact State.isStorage_iff.2 (.inl hc)
  · rcases e.run with ⟨ht, hs'⟩ | ⟨ht, hs', -⟩ | ⟨ht, hs', hh'⟩
    · simp [ht, hs', hr, hs]
    · simp [ht, hs', hs]
    · simp [ht, hs', hh', hh]

/-! The outside world (R372). -/

/-- An event from outside keeps the invariant: only the timeout touches the run state, and it halts with a reason. -/
theorem Invariant.outside {s : State} (h : Invariant s) (e : OutsideEvent) : Invariant (s.outside e) := by
  cases e
  case timeout =>
    simp only [State.outside]
    split
    · exact h.unheld.halted rfl _
    · exact h
  all_goals exact h.congr rfl rfl rfl rfl rfl rfl

theorem Invariant.foldl_outside {s : State} (h : Invariant s) (es : List OutsideEvent) :
    Invariant (es.foldl State.outside s) := by
  induction es generalizing s with
  | nil => exact h
  | cons e rest ih => exact ih (h.outside e)

theorem Invariant.atBoundary {s : State} (h : Invariant s) : Invariant s.atBoundary := by
  unfold State.atBoundary
  split
  · exact h
  · refine Invariant.foldl_outside ?_ _
    exact h.congr rfl rfl rfl rfl rfl rfl

/-! The step (R300). -/

/-- A next state that the instruction at the PC gives differs only as `Effect` says. -/
theorem effect_of_runInstruction {s t : State} {b : Bool} (h : s.runInstruction b = .next t) : Effect s t := by
  obtain ⟨t', ht', e⟩ := runInstruction_effect s b
  rw [ht', Host.Outcome.next.injEq] at h
  exact h ▸ e

/-- How a step comes to its next state: the outside ended the run, a stop was reported, or an instruction ran, going on
from where it was held or from its beginning. -/
inductive StepCase (s t : State) : Prop where
  | ended (next : t = s.atBoundary)
  | stopped (r : Report) (next : t = s.atBoundary.stopped r)
  | resumed (running : s.atBoundary.runState = .running) (effect : Effect { s.atBoundary with hold := none } t)
  | ran (running : s.atBoundary.runState = .running) (free : s.atBoundary.hold = none)
      (effect : Effect s.atBoundary.begin t)

/-- Every step that answers a next state is one of the cases. -/
theorem step_cases {s t : State} (h : step s = .next t) : StepCase s t := by
  cases hr : s.runState with
  | halted => simp [step_halted hr] at h
  | trapped => simp [step_trapped hr] at h
  | running =>
    by_cases hb : s.atBoundary.runState = .running
    · by_cases hh : s.atBoundary.hold = none
      · cases hs : s.atBoundary.stopCheck with
        | some r =>
          rw [step_stopped hr hb hh hs, Host.Outcome.next.injEq] at h
          exact .stopped r h.symm
        | none => exact .ran hb hh (effect_of_runInstruction (step_runs hr hb hh hs ▸ h))
      · exact .resumed hb (effect_of_runInstruction (step_held hr hb hh ▸ h))
    · rw [step_ended hr hb, Host.Outcome.next.injEq] at h
      exact .ended h.symm

/-- Every step keeps the invariant. -/
theorem Invariant.step {s t : State} (h : Invariant s) (hs : Machine.step s = .next t) : Invariant t := by
  have hb := h.atBoundary
  cases step_cases hs with
  | ended next => exact next ▸ hb
  | stopped r next =>
    subst next
    cases r <;> exact hb.congr rfl rfl rfl rfl rfl rfl
  | resumed running effect => exact hb.unheld.of_effect running rfl effect
  | ran running free effect =>
    have hbegin : Invariant s.atBoundary.begin := hb.congr rfl rfl rfl rfl rfl rfl
    exact hbegin.of_effect running free effect

/-- Settles O58, by the cases of a step: the outside keeps the invariant, and so does whatever an instruction does. -/
theorem stepKeepsTheInvariant : Obligations.StepKeepsTheInvariant := by
  unfold Obligations.StepKeepsTheInvariant
  exact fun s t h hs => h.step hs

/-! Image load (R360, R361). -/

/-- A word can be fetched where it is aligned and stands in RAM or ROM (R70). -/
theorem fetchable_iff_aligned {p : Platform} {a : Word} :
    p.fetchable a = true ↔ aligned .word a = true ∧ p.isStorage a.toNat = true := by
  simp [Platform.fetchable, Memory.aligned_iff, Width.bytes]

/-- An aligned access that begins in RAM or ROM stays in it (R61, R66). -/
theorem isStorage_of_aligned {p : Platform} (hp : p.wellFormed) {w : Width} {a : Word} (ha : aligned w a = true)
    (hs : p.isStorage a.toNat = true) {j : Nat} (h1 : a.toNat ≤ j) (h2 : j < a.toNat + w.bytes) :
    p.isStorage j = true := by
  rw [State.isStorage_iff] at hs ⊢
  exact hs.imp (Platform.kindAt_of_aligned hp ha · h1 h2) (Platform.kindAt_of_aligned hp ha · h1 h2)

theorem Memory.wf_loadText {m : Memory} (hm : m.wf) {text : List (Word × Word)}
    (ht : ∀ c ∈ text, aligned .word c.1 = true) : (m.loadText text).wf := by
  induction text generalizing m with
  | nil => exact hm
  | cons c rest ih =>
    obtain ⟨hc, hr⟩ := List.forall_mem_cons.1 ht
    exact ih (wf_write hm .word c.2 (aligned_in_space hc)) hr

/-- The text lists only old addresses and those of its words. -/
theorem Memory.mem_loadText {m : Memory} {text : List (Word × Word)} {c : Host.Cell} (h : c ∈ m.loadText text) :
    c ∈ m ∨ ∃ d ∈ text, d.1.toNat ≤ c.1 ∧ c.1 < d.1.toNat + Width.word.bytes := by
  induction text generalizing m with
  | nil => exact .inl h
  | cons d rest ih =>
    rcases ih h with h | ⟨e, he, hc⟩
    · rcases mem_write h with h | hc
      · exact .inl h
      · exact .inr ⟨d, List.mem_cons_self .., hc⟩
    · exact .inr ⟨e, List.mem_cons_of_mem _ he, hc⟩

/-- The memory of an accepted image is canonical and lists only RAM and ROM addresses. -/
theorem Memory.ofImage_wf_storage {p : Platform} {img : Image} (h : img.accepted p) :
    (Memory.ofImage img).wf ∧ ∀ c ∈ Memory.ofImage img, p.isStorage c.1 = true := by
  obtain ⟨-, hp, ht, hd⟩ := h
  have ht : ∀ c ∈ img.text, aligned .word c.1 = true ∧ p.isStorage c.1.toNat = true := fun c hc =>
    fetchable_iff_aligned.1 (List.all_eq_true.1 ht c hc)
  refine ⟨wf_loadData (wf_loadText wf_reset fun c hc => (ht c hc).1) _ _, fun c hc => ?_⟩
  rcases mem_loadData hc with hc | ⟨i, hi, he⟩
  · rcases mem_loadText hc with hc | ⟨d, hd, h1, h2⟩
    · exact absurd hc List.not_mem_nil
    · exact isStorage_of_aligned hp (ht d hd).1 (ht d hd).2 h1 h2
  · rw [he]
    exact List.all_eq_true.1 hd i (List.mem_range.2 hi)

/-- An image load keeps the invariant: an accepted image gives a state with it, a rejected one changes nothing. -/
theorem Invariant.loadImage {s : State} (h : Invariant s) (img : Image) : Invariant (s.loadImage img) := by
  unfold State.loadImage
  split
  case isFalse => exact h
  case isTrue ha =>
    obtain ⟨hwf, hst⟩ := Memory.ofImage_wf_storage ha
    obtain ⟨-, hp, -⟩ := ha
    exact ⟨hwf, hst, rfl, hp, by simp, by simp, by simp⟩

/-! Restore (R331, D50). -/

/-- The restore of a snapshot gives the snapshot's own invariant, on the platform it was made for. -/
theorem Invariant.restore {s snap : State} (h : Invariant snap) (hp : snap.platform = s.platform) :
    Invariant (s.restore snap) := by
  have ⟨_, _, _, _, hrun, _⟩ := h
  rw [State.restore, if_neg hrun]
  exact h.unheld.congr rfl rfl hp.symm rfl rfl rfl

/-! Everything the machine and its host reach. -/

theorem Invariant.reaches {s t : State} (h : Invariant s) (hr : Reaches s t) : Invariant t := by
  induction hr with
  | refl => exact h
  | step _ hs ih => exact ih.step hs
  | load img _ ih => exact ih.loadImage img
  | outside e _ ih => exact ih.outside e
  | restore _ hsnap hp _ => exact hsnap.restore hp

/-- While no step is held, the outside leaves the MachineState alone (R372). -/
theorem keepsMachineState_atBoundary {s : State} (h : s.hold = none) : KeepsMachineState s s.atBoundary := by
  obtain ⟨_, _, _, _, _, _, hb⟩ := State.atBoundary_cases h
  rw [hb]
  exact ⟨rfl, rfl, fun _ => rfl, ⟨rfl, rfl⟩, ⟨rfl, rfl, rfl, rfl⟩, rfl, rfl, rfl, rfl⟩

/-- Settles O59: one lemma for each action of the host, and the induction over `Reaches`. -/
theorem hostActionsKeepTheInvariant : Obligations.HostActionsKeepTheInvariant := by
  unfold Obligations.HostActionsKeepTheInvariant
  exact ⟨fun s h => ⟨h.loadImage, h.outside, fun _ hsnap hp => hsnap.restore hp, fun _ hr => h.reaches hr⟩,
    fun s h => keepsMachineState_atBoundary h⟩

/-- Settles O57, by evaluation: the invariant of the one reset state is a finite fact about its five regions. -/
theorem resetHasTheInvariant : Obligations.ResetHasTheInvariant := by
  unfold Obligations.ResetHasTheInvariant Invariant
  decide

end Sys2Proof.Machine
end

section
/-! SUPPORT. HI and LO belong to the multiply-divide family (spec 10 R27): every other operation commutes with a write
of HI and LO. -/

namespace Sys2Proof.Machine

/-! The shared operations after a write of HI and LO. -/

theorem branch_setHiLo (s : State) (hi lo : Word) (c : Bool) (imm : BitVec 16) :
    (s.setHiLo hi lo).branch c imm = (s.branch c imm).setHiLo hi lo := by
  simp only [State.branch_eq]; rfl

theorem enter_setHiLo (s : State) (hi lo : Word) (ev : Event) :
    (s.setHiLo hi lo).enter ev = (s.enter ev).setHiLo hi lo := by
  cases h : s.platform.handlerInstalled
  · rw [enter_notInstalled h, enter_notInstalled (s := s.setHiLo hi lo) h]; rfl
  · rw [enter_installed h, enter_installed (s := s.setHiLo hi lo) h]; rfl

theorem serve_setHiLo (s : State) (hi lo : Word) (r : ServiceReply) :
    (s.setHiLo hi lo).serve r = (s.serve r).setHiLo hi lo := by
  simp only [State.serve_eq, State.applyReply_eq]
  cases r.verdict <;> rfl

theorem hostedSyscall_setHiLo (s : State) (hi lo : Word) :
    (s.setHiLo hi lo).hostedSyscall = s.hostedSyscall.setHiLo hi lo := by
  cases hv : s.service with
  | none =>
    rw [State.hostedSyscall_unrecognized hv, State.hostedSyscall_unrecognized (s := s.setHiLo hi lo) hv]
    exact enter_setHiLo { s with
      cause := { s.cause with excCode := 8 }, epc := s.pc, lastEvent := some ⟨.ri, s.pc⟩ } hi lo _
  | some k =>
    cases ha : s.answers with
    | cons r rest =>
      rw [State.hostedSyscall_answered hv ha, State.hostedSyscall_answered (s := s.setHiLo hi lo) hv ha]
      exact serve_setHiLo { s with
        cause := { s.cause with excCode := 8 }, epc := s.pc, answers := rest } hi lo r
    | nil =>
      cases k with
      | exit => rw [State.hostedSyscall_exit hv ha, State.hostedSyscall_exit (s := s.setHiLo hi lo) hv ha]; rfl
      | external => rw [State.hostedSyscall_waits hv ha, State.hostedSyscall_waits (s := s.setHiLo hi lo) hv ha]; rfl

theorem raise_setHiLo (s : State) (hi lo : Word) (k : ExcKind) :
    (s.setHiLo hi lo).raise k = (s.raise k).setHiLo hi lo := by
  by_cases h : k = .int ∨ s.status.exl = false
  · by_cases hs : k = .sys ∧ s.platform.syscallHosted = true
    · obtain ⟨rfl, hs⟩ := hs
      have h : s.status.exl = false := by simpa using h
      rw [raise_hosted h hs, raise_hosted (s := s.setHiLo hi lo) h hs]
      exact hostedSyscall_setHiLo { s with lastEvent := some ⟨.sys, s.pc⟩ } hi lo
    · have hs : k ≠ .sys ∨ s.platform.syscallHosted = false := by simpa [imp_iff_not_or] using hs
      rw [raise_enter h hs, raise_enter (s := s.setHiLo hi lo) h hs]
      exact enter_setHiLo { s with lastEvent := some ⟨k, s.pc⟩ } hi lo _
  · obtain ⟨hk, h⟩ := not_or.1 h
    have h : s.status.exl = true := by simpa using h
    rw [raise_masked h hk, raise_masked (s := s.setHiLo hi lo) h hk]; rfl

theorem raiseIf_setHiLo {s t t' : State} {hi lo : Word} (h : t' = t.setHiLo hi lo) (c : Bool) (k : ExcKind) :
    (s.setHiLo hi lo).raiseIf c k t' = (s.raiseIf c k t).setHiLo hi lo := by
  cases c
  · exact h
  · exact raise_setHiLo s hi lo k

theorem consoleRead_setHiLo (s : State) (hi lo : Word) (n : Nat) :
    (s.setHiLo hi lo).consoleRead n = (s.consoleRead n).map fun x => (x.1, x.2.setHiLo hi lo) := by
  match n with
  | 0 | _ + 2 => rfl
  | 1 =>
    simp only [State.consoleRead, State.setHiLo_consoleIn, State.setHiLo_platform]
    cases s.consoleIn with
    | cons b rest => rfl
    | nil => cases s.platform.inputMode <;> rfl

theorem memRead_setHiLo (s : State) (hi lo : Word) (w : Width) (a : Word) :
    (s.setHiLo hi lo).memRead w a = (s.memRead w a).map fun x => (x.1, x.2.setHiLo hi lo) := by
  simp only [State.memRead, State.setHiLo_platform]
  cases s.platform.regionAt a.toNat with
  | none => rfl
  | some r =>
    obtain ⟨_, _, _, kind⟩ := r
    cases kind
    case consoleIn => exact consoleRead_setHiLo ..
    all_goals rfl

theorem memWrite_setHiLo (s : State) (hi lo : Word) (w : Width) (a v : Word) :
    (s.setHiLo hi lo).memWrite w a v = (s.memWrite w a v).setHiLo hi lo := by
  simp only [State.memWrite, State.setHiLo_platform]
  split <;> rfl

theorem load_setHiLo (s : State) (hi lo : Word) (w : Width) (e : Extension) (rt : Reg) (a : Word) :
    (s.setHiLo hi lo).load w e rt a = (s.load w e rt a).setHiLo hi lo := by
  refine raiseIf_setHiLo ?_ _ _
  rw [memRead_setHiLo]
  cases s.memRead w a <;> rfl

theorem store_setHiLo (s : State) (hi lo : Word) (w : Width) (rt : Reg) (a : Word) :
    (s.setHiLo hi lo).store w rt a = (s.store w rt a).setHiLo hi lo := by
  refine raiseIf_setHiLo ?_ _ _
  rw [memWrite_setHiLo]; rfl

/-- An instruction outside the multiply-divide family commutes with every write of HI and LO. -/
theorem exec_setHiLo {i : Instr} (h : i.isMulDiv = false) (s : State) :
    ∃ t, exec i s = .next t ∧ ∀ hi lo, exec i (s.setHiLo hi lo) = .next (t.setHiLo hi lo) := by
  cases i
  case mult | multu | div | divu | mfhi | mflo | mthi | mtlo => simp [Instr.isMulDiv] at h
  case add | sub | addi =>
    exact ⟨_, rfl, fun hi lo => congrArg Host.Outcome.next (raiseIf_setHiLo (t := s.result _ _) rfl _ _)⟩
  case lb | lbu | lh | lhu | lw =>
    exact ⟨_, rfl, fun hi lo => congrArg Host.Outcome.next (load_setHiLo s hi lo _ _ _ _)⟩
  case sb | sh | sw => exact ⟨_, rfl, fun hi lo => congrArg Host.Outcome.next (store_setHiLo s hi lo _ _ _)⟩
  case beq | bne | blez | bgtz | bltz | bgez =>
    exact ⟨_, rfl, fun hi lo => congrArg Host.Outcome.next (branch_setHiLo s hi lo _ _)⟩
  case bltzal | bgezal =>
    exact ⟨_, rfl, fun hi lo => congrArg Host.Outcome.next
      (branch_setHiLo (s.setReg Config.linkReg (linkValue s.pc)) hi lo _ _)⟩
  case syscall | brk => exact ⟨_, rfl, fun hi lo => congrArg Host.Outcome.next (raise_setHiLo s hi lo _)⟩
  case mfc0 rt rd =>
    simp only [exec, execMfc0]
    cases cp0Reg rd with
    | none => exact ⟨_, rfl, fun hi lo => congrArg Host.Outcome.next (raise_setHiLo s hi lo _)⟩
    | some r => cases r <;> exact ⟨_, rfl, fun _ _ => rfl⟩
  case mtc0 rt rd =>
    simp only [exec, execMtc0]
    cases cp0Reg rd with
    | none => exact ⟨_, rfl, fun hi lo => congrArg Host.Outcome.next (raise_setHiLo s hi lo _)⟩
    | some r => cases r <;> exact ⟨_, rfl, fun _ _ => rfl⟩
  all_goals exact ⟨_, rfl, fun _ _ => rfl⟩

/-- Settles O19. That HI and LO are carried through is the same fact again: the instruction commutes with the write of
the HI and LO the state already has. -/
theorem hiLoBelongToTheFamily : Obligations.HiLoBelongToTheFamily := by
  unfold Obligations.HiLoBelongToTheFamily
  intro i s hi lo h
  obtain ⟨t, ht, hcomm⟩ := exec_setHiLo h s
  have same : t = t.setHiLo s.hi s.lo := Host.Outcome.next.inj (ht.symm.trans (hcomm s.hi s.lo))
  have hhi : t.hi = s.hi := (congrArg State.hi same).trans (State.setHiLo_hi ..)
  have hlo : t.lo = s.lo := (congrArg State.lo same).trans (State.setHiLo_lo ..)
  exact ⟨t, ht, hcomm hi lo, hhi, hlo⟩

end Sys2Proof.Machine
end

section
/-! SUPPORT. MFC0 and MTC0 (spec 10 R29 to R33, spec 46 R273 to R275), and a fetch where no instruction stands (spec 20
R70). -/

namespace Sys2Proof.Machine

/-! The words of Status and Cause in integers. -/

/-- Concatenation in integers. -/
theorem toNat_append_eq {m n : Nat} (x : BitVec m) (y : BitVec n) : (x ++ y).toNat = x.toNat * 2 ^ n + y.toNat := by
  rw [BitVec.toNat_append, ← Nat.shiftLeft_add_eq_or_of_lt y.isLt, Nat.shiftLeft_eq]

theorem toNat_extractLsb'_eq {n : Nat} (v : BitVec n) (a m : Nat) :
    (v.extractLsb' a m).toNat = v.toNat / 2 ^ a % 2 ^ m := by
  rw [BitVec.extractLsb'_toNat, Nat.shiftRight_eq_div_pow]

/-- Status as MFC0 reads it: IM in bits 15:8, EXL in bit 1, IE in bit 0 (R30). -/
theorem Status.toNat_toWord (st : Status) :
    st.toWord.toNat = st.im.toNat * 2 ^ 8 + st.exl.toNat * 2 + st.ie.toNat := by
  simp only [Status.toWord, toNat_append_eq, BitVec.toNat_ofBool, BitVec.toNat_ofNat]
  omega

/-- Cause as MFC0 reads it: IP in bits 15:8, ExcCode in bits 6:2 (R31). -/
theorem Cause.toNat_toWord (c : Cause) : c.toWord.toNat = c.ip.toNat * 2 ^ 8 + c.excCode.toNat * 2 ^ 2 := by
  simp only [Cause.toWord, toNat_append_eq, BitVec.toNat_ofNat]
  omega

/-- MTC0 of Cause writes bits 9:8 of the word to IP[1:0] and keeps IP[7:2] (R31, R275). -/
theorem Cause.toNat_write_ip (c : Cause) (v : Word) :
    (c.write v).ip.toNat = c.ip.toNat / 4 * 4 + v.toNat / 2 ^ 8 % 4 := by
  have := c.ip.isLt
  simp only [Cause.write, toNat_append_eq, toNat_extractLsb'_eq]
  omega

/-! The transfers. -/

theorem exec_mfc0 {rd : Reg} {r : Cp0Reg} (h : cp0Reg rd = some r) (rt : Reg) (s : State) :
    exec (.mfc0 rt rd) s = .next (s.result rt (s.readCp0 r)) := by
  simp [exec, execMfc0, h]

theorem exec_mtc0 {rd : Reg} {r : Cp0Reg} (h : cp0Reg rd = some r) (rt : Reg) (s : State) :
    exec (.mtc0 rt rd) s = .next (s.writeCp0 r (s.reg rt)).advance := by
  simp [exec, execMtc0, h]

/-- Settles O37, from the one spec of a register result and the integers of the two words. -/
theorem moveFromCp0 : Obligations.MoveFromCp0 := by
  unfold Obligations.MoveFromCp0
  intro s rt
  exact ⟨⟨_, exec_mfc0 (r := .badVAddr) rfl rt s, result_spec s rt _⟩,
    ⟨_, _, exec_mfc0 (r := .status) rfl rt s, result_spec s rt _, s.status.toNat_toWord⟩,
    ⟨_, _, exec_mfc0 (r := .cause) rfl rt s, result_spec s rt _, s.cause.toNat_toWord⟩,
    ⟨_, exec_mfc0 (r := .epc) rfl rt s, result_spec s rt _⟩⟩

/-- What MTC0 of an implemented register never changes: everything outside coprocessor 0. -/
theorem writeCp0_advance_frame (s : State) (r : Cp0Reg) (v : Word) :
    let t := (s.writeCp0 r v).advance
    Sequenced s t none ∧ KeepsRegs s t ∧ KeepsHiLo s t ∧ KeepsMemory s t ∧ KeepsConsole s t ∧ KeepsRun s t ∧
      KeepsOutside s t := by
  cases r <;>
    exact ⟨⟨s.nextPc_eq, rfl⟩, fun _ => rfl, ⟨rfl, rfl⟩, fun _ => rfl, ⟨rfl, rfl⟩, ⟨rfl, rfl, rfl⟩, rfl, rfl, rfl,
      rfl, rfl, rfl, rfl, rfl, rfl, rfl⟩

/-- Settles O38, from the frame that the four registers share and the fields each write gives. -/
theorem moveToCp0 : Obligations.MoveToCp0 := by
  unfold Obligations.MoveToCp0
  intro s rt
  exact ⟨⟨_, exec_mtc0 rfl rt s, writeCp0_advance_frame s .status _, rfl, rfl,
      toNat_extractLsb'_eq _ 8 8, rfl, rfl, rfl⟩,
    ⟨_, exec_mtc0 rfl rt s, writeCp0_advance_frame s .cause _, rfl, s.cause.toNat_write_ip _, rfl, rfl, rfl⟩,
    ⟨_, exec_mtc0 rfl rt s, writeCp0_advance_frame s .epc _, rfl, rfl, rfl, rfl⟩,
    ⟨_, exec_mtc0 rfl rt s, writeCp0_advance_frame s .badVAddr _, rfl, rfl, rfl, rfl⟩⟩

theorem cp0Reg_eq_none {rd : Reg} (h8 : rd ≠ 8) (h12 : rd ≠ 12) (h13 : rd ≠ 13) (h14 : rd ≠ 14) :
    cp0Reg rd = none := by
  simp [cp0Reg, h8, h12, h13, h14]

/-- Settles O39: no other register number is implemented, and the exception raised is taken. -/
theorem unimplementedCp0IsReserved : Obligations.UnimplementedCp0IsReserved := by
  unfold Obligations.UnimplementedCp0IsReserved
  intro s rt rd hc h8 h12 h13 h14
  obtain ⟨hexl, hi⟩ := hc
  have hn := cp0Reg_eq_none h8 h12 h13 h14
  have taken : TrapTaken s (s.raise .ri) .ri := raise_taken (.inr hexl) hi (.inl (by simp))
  exact ⟨⟨_, by simp [exec, execMfc0, hn], taken⟩, ⟨_, by simp [exec, execMtc0, hn], taken⟩⟩

/-! A fetch where no instruction stands (R70). -/

theorem fetch_eq_none {s : State} (h : s.pc.toNat % 4 ≠ 0 ∨ s.platform.isStorage s.pc.toNat = false) :
    s.fetch = none := by
  have : s.platform.fetchable s.pc = false := by
    rcases h with h | h <;> simp [Platform.fetchable, h]
  simp [State.fetch, this]

/-- Settles O50: the step runs from the sampled state, fetches nothing, and raises AdEL with its PC. -/
theorem badFetchTakesAddressError : Obligations.BadFetchTakesAddressError := by
  unfold Obligations.BadFetchTakesAddressError
  intro s b hr hb hh hs hbad
  have hf : b.begin.fetch = none := fetch_eq_none (s := b.begin) hbad
  exact ⟨_, (step_runs hr hb hh hs).trans (State.runInstruction_noFetch hf),
    raise_exceptionRaised (by simp) (.inl (by simp))⟩

end Sys2Proof.Machine
end

section
/-! SUPPORT. What no step changes (spec 20 R63, spec 60 R325), the canonical form of memory (spec 10 R40), and the
memory port in integers (spec 20 R62 to R65, R74). -/

namespace Sys2Proof.Machine

/-! What no step changes. -/

/-- No event from outside touches memory or the platform, whether a step is held or not (R372). -/
theorem State.outside_mem_platform (s : State) (e : OutsideEvent) :
    (s.outside e).mem = s.mem ∧ (s.outside e).platform = s.platform := by
  cases e
  case timeout => simp only [State.outside]; split <;> exact ⟨rfl, rfl⟩
  all_goals exact ⟨rfl, rfl⟩

theorem State.foldl_outside_mem_platform (s : State) (es : List OutsideEvent) :
    (es.foldl State.outside s).mem = s.mem ∧ (es.foldl State.outside s).platform = s.platform := by
  induction es generalizing s with
  | nil => exact ⟨rfl, rfl⟩
  | cons e rest ih =>
    obtain ⟨hm, hp⟩ := s.outside_mem_platform e
    obtain ⟨ihm, ihp⟩ := ih (s.outside e)
    exact ⟨ihm.trans hm, ihp.trans hp⟩

theorem State.atBoundary_mem_platform (s : State) :
    s.atBoundary.mem = s.mem ∧ s.atBoundary.platform = s.platform := by
  unfold State.atBoundary
  split
  · exact ⟨rfl, rfl⟩
  · exact State.foldl_outside_mem_platform { s with agenda := _ } _

theorem State.stopped_mem_platform (s : State) (r : Report) :
    (s.stopped r).mem = s.mem ∧ (s.stopped r).platform = s.platform := by
  cases r <;> exact ⟨rfl, rfl⟩

/-- Settles O60, by the cases of a step: the outside and a stop change no byte at all, and an instruction changes no
more than `Effect` says. -/
theorem onlyRamChanges : Obligations.OnlyRamChanges := by
  unfold Obligations.OnlyRamChanges
  intro s t hi h
  obtain ⟨hwf, -, -, hw, -⟩ := hi
  obtain ⟨hm, hp⟩ := s.atBoundary_mem_platform
  rw [← hm] at hwf ⊢
  rw [← hp] at hw ⊢
  cases step_cases h with
  | ended next => exact next ▸ ⟨rfl, fun _ _ => rfl⟩
  | stopped r next =>
    obtain ⟨hm', hp'⟩ := s.atBoundary.stopped_mem_platform r
    exact next ▸ ⟨hp', fun _ _ => by rw [hm']⟩
  | resumed running effect => exact ⟨effect.platform, effect.bytes hwf hw⟩
  | ran running free effect => exact ⟨effect.platform, effect.bytes hwf hw⟩

namespace Memory

/-! The canonical form. -/

/-- A canonical memory lists exactly the bytes that differ from an unlisted one (R40, R84). -/
theorem mem_iff_readByte {m : Memory} (hm : m.wf) (c : Host.Cell) :
    c ∈ m ↔ m.readByte c.1 = c.2 ∧ c.2 ≠ unlisted := by
  obtain ⟨a, b⟩ := c
  obtain ⟨hs, hl⟩ := hm
  induction m with
  | nil => simp [readByte, eq_comm]
  | cons d rest ih =>
    obtain ⟨k, x⟩ := d
    obtain ⟨hk, hr⟩ := List.pairwise_cons.1 hs
    obtain ⟨⟨-, hx⟩, hl⟩ := List.forall_mem_cons.1 hl
    rw [List.mem_cons, ih hr hl, readByte]
    by_cases h : k = a
    · subst h
      rw [if_pos rfl, readByte_of_lt hk]
      grind
    · simp [h, Ne.symm h]

theorem nodup_of_wf {m : Memory} (hm : m.wf) : m.Nodup :=
  hm.1.imp fun hlt => ne_of_apply_ne Prod.fst (Nat.ne_of_lt hlt)

/-! Reads and writes in integers. -/

theorem toNat_read_byte (m : Memory) (a : Nat) : (m.read a .byte).toNat = (m.readByte a).toNat := by
  simp only [read, BitVec.toNat_setWidth]; omega

theorem toNat_read_half (m : Memory) (a : Nat) :
    (m.read a .half).toNat = (m.readByte a).toNat * 2 ^ 8 + (m.readByte (a + 1)).toNat := by
  simp only [read, BitVec.toNat_setWidth, toNat_append_eq]; omega

theorem toNat_read_word (m : Memory) (a : Nat) :
    (m.read a .word).toNat = (m.readByte a).toNat * 2 ^ 24 + (m.readByte (a + 1)).toNat * 2 ^ 16 +
      (m.readByte (a + 2)).toNat * 2 ^ 8 + (m.readByte (a + 3)).toNat := by
  simp only [read, wordOfBytes, toNat_append_eq]; omega

/-- Byte `j` of a stored value, most significant first (R64). -/
theorem toNat_split_getElem (w : Width) (v : Word) {j : Nat} (h : j < (w.split v).length) :
    (w.split v)[j].toNat = v.toNat / 2 ^ (8 * (w.bytes - 1 - j)) % 2 ^ 8 := by
  rw [split_length] at h
  cases w <;> simp only [Width.bytes] at h <;> interval_cases j <;> exact toNat_extractLsb'_eq ..

theorem toNat_readByte_write {m : Memory} (hm : m.wf) {a : Nat} (w : Width) (v : Word) (h : a + w.bytes ≤ 2 ^ 32)
    (k : Nat) :
    ((m.write a w v).readByte k).toNat =
      if a ≤ k ∧ k - a < w.bytes then v.toNat / 2 ^ (8 * (w.bytes - 1 - (k - a))) % 2 ^ 8
      else (m.readByte k).toNat := by
  rw [readByte_write hm w v h]
  simp only [split_length]
  split
  · exact toNat_split_getElem ..
  · rfl

/-- A narrow read gives its part of the containing word (R65). -/
theorem toNat_read_within (m : Memory) (a : Nat) {w : Width} {j : Nat} (h : j + w.bytes ≤ 4) :
    (m.read (a + j) w).toNat = (m.read a .word).toNat / 2 ^ (32 - 8 * (j + w.bytes)) % 2 ^ (8 * w.bytes) := by
  have h0 := (m.readByte a).isLt
  have h1 := (m.readByte (a + 1)).isLt
  have h2 := (m.readByte (a + 2)).isLt
  have h3 := (m.readByte (a + 3)).isLt
  have hj : j < 4 := by cases w <;> simp only [Width.bytes] at h <;> omega
  cases w with
  | byte => interval_cases j <;> simp only [toNat_read_byte, toNat_read_word, Width.bytes, Nat.add_zero] <;> omega
  | half =>
    simp only [Width.bytes] at h ⊢
    interval_cases j <;> simp only [toNat_read_half, toNat_read_word, Nat.add_zero, Nat.add_assoc, Nat.reduceAdd] <;>
      omega
  | word =>
    obtain rfl : j = 0 := by simpa [Width.bytes] using h
    simp only [Width.bytes, Nat.add_zero]; omega

/-- A narrow write replaces only its own bytes of the containing word (R65). -/
theorem toNat_read_word_write_within {m : Memory} (hm : m.wf) {a : Nat} (ha : a + 4 ≤ 2 ^ 32) {w : Width} {j : Nat}
    (h : j + w.bytes ≤ 4) (x : Word) :
    ((m.write (a + j) w x).read a .word).toNat =
      (m.read a .word).toNat / 2 ^ (32 - 8 * j) * 2 ^ (32 - 8 * j) +
      x.toNat % 2 ^ (8 * w.bytes) * 2 ^ (32 - 8 * (j + w.bytes)) +
      (m.read a .word).toNat % 2 ^ (32 - 8 * (j + w.bytes)) := by
  have h0 := (m.readByte a).isLt
  have h1 := (m.readByte (a + 1)).isLt
  have h2 := (m.readByte (a + 2)).isLt
  have h3 := (m.readByte (a + 3)).isLt
  have hj : j < 4 := by cases w <;> simp only [Width.bytes] at h <;> omega
  simp only [toNat_read_word, toNat_readByte_write hm w x (show a + j + w.bytes ≤ 2 ^ 32 by omega)]
  cases w <;> simp only [Width.bytes] at h ⊢ <;> interval_cases j <;> simp <;> omega

/-- A read after a write of the same width at the same address (R74). -/
theorem toNat_read_write {m : Memory} (hm : m.wf) {a : Nat} {w : Width} (h : a + w.bytes ≤ 2 ^ 32) (v : Word) :
    ((m.write a w v).read a w).toNat = v.toNat % 2 ^ (8 * w.bytes) := by
  have hv := v.isLt
  cases w with
  | byte => simp [toNat_read_byte, toNat_readByte_write hm _ v h, Width.bytes]
  | half => simp [toNat_read_half, toNat_readByte_write hm _ v h, Width.bytes]; omega
  | word => simp [toNat_read_word, toNat_readByte_write hm _ v h, Width.bytes]; omega

end Memory

/-! The checks of the port, a fetch, and the statements about memory. -/

theorem State.loadFaults_eq_false_iff {s : State} {w : Width} {a : Word} :
    s.loadFaults w a = false ↔ aligned w a = true ∧ s.platform.readable a.toNat = true := by
  simp [State.loadFaults]

theorem State.storeFaults_eq_false_iff {s : State} {w : Width} {a : Word} :
    s.storeFaults w a = false ↔ aligned w a = true ∧ s.platform.writable a.toNat = true := by
  simp [State.storeFaults]

/-- ROM refuses every store (R63). -/
theorem State.storeFaults_of_rom {s : State} {w : Width} {a : Word} (h : s.platform.kindAt a.toNat = some .rom) :
    s.storeFaults w a = true := by
  simp [State.storeFaults, Platform.writable, h]

/-- A fetch reads the word at the PC (R65, R70). -/
theorem fetch_of_fetchable {s : State} (h : s.platform.fetchable s.pc = true) :
    s.fetch = some (s.mem.read s.pc.toNat .word) := if_pos h

/-- Settles O28: the two lists have the same members, each once, in the one order of the addresses. -/
theorem canonicalMemoriesAreEqual : Obligations.CanonicalMemoriesAreEqual := by
  unfold Obligations.CanonicalMemoriesAreEqual
  intro m n hm hn h
  have members : ∀ c, c ∈ m ↔ c ∈ n := fun c => by
    rw [Memory.mem_iff_readByte hm, Memory.mem_iff_readByte hn, h]
  have perm := (List.perm_ext_iff_of_nodup (Memory.nodup_of_wf hm) (Memory.nodup_of_wf hn)).2 members
  exact perm.eq_of_pairwise (fun _ _ _ _ hcd hdc => absurd hcd (Nat.lt_asymm hdc)) hm.1 hn.1

/-- Settles O26, from the port's rules for RAM and the read after a write of the same width. -/
theorem storeThenLoadRoundTrip : Obligations.StoreThenLoadRoundTrip := by
  unfold Obligations.StoreThenLoadRoundTrip
  intro s w a v hm ha
  refine ⟨fun hram => ?_, State.storeFaults_of_rom⟩
  have hs : s.platform.isStorage a.toNat = true := State.isStorage_iff.2 (.inl hram)
  refine ⟨State.storeFaults_eq_false_iff.2 ⟨ha, State.writable_iff.2 (.inl hram)⟩,
    State.loadFaults_eq_false_iff.2 ⟨ha, State.readable_iff.2 (.inl hs)⟩, _, ?_,
    Memory.toNat_read_write hm (Memory.aligned_in_space ha) v⟩
  rw [State.memWrite_ram hram]
  exact State.memRead_storage (s := { s with mem := s.mem.write a.toNat w v }) hs

/-- Settles O27: the stored word reads back as itself, and narrow accesses are to its parts. -/
theorem mixedWidthAccesses : Obligations.MixedWidthAccesses := by
  unfold Obligations.MixedWidthAccesses
  refine ⟨fun s h => ⟨_, fetch_of_fetchable h, s.mem.toNat_read_word _⟩, fun m a v x hm ha => ?_⟩
  intro n
  have hv := v.isLt
  have space := Memory.aligned_in_space ha
  have hn : n.wf := Memory.wf_write hm .word v space
  have word : (n.read a.toNat .word).toNat = v.toNat :=
    (Memory.toNat_read_write hm space v).trans (Nat.mod_eq_of_lt hv)
  have narrow : ∀ (w : Width) (j : Nat), j + w.bytes ≤ 4 → (n.read (a.toNat + j) w).toNat =
      v.toNat / 2 ^ (32 - 8 * (j + w.bytes)) % 2 ^ (8 * w.bytes) := fun w j h => word ▸ n.toNat_read_within a.toNat h
  have store : ∀ (w : Width) (j : Nat), j + w.bytes ≤ 4 → ((n.write (a.toNat + j) w x).read a.toNat .word).toNat =
      v.toNat / 2 ^ (32 - 8 * j) * 2 ^ (32 - 8 * j) + x.toNat % 2 ^ (8 * w.bytes) * 2 ^ (32 - 8 * (j + w.bytes)) +
        v.toNat % 2 ^ (32 - 8 * (j + w.bytes)) := fun w j h =>
    word ▸ Memory.toNat_read_word_write_within hn space h x
  refine ⟨(narrow .byte 0 (by decide)).trans ?_, narrow .byte 1 (by decide), narrow .byte 2 (by decide),
    (narrow .byte 3 (by decide)).trans ?_, (narrow .half 0 (by decide)).trans ?_,
    (narrow .half 2 (by decide)).trans ?_, fun j hj => ?_, fun j hj => ?_⟩
  case refine_5 =>
    have := store .byte j hj
    rwa [show 32 - 8 * (j + Width.byte.bytes) = 24 - 8 * j by simp only [Width.bytes]; omega] at this
  case refine_6 =>
    have := store .half j (by simp only [Width.bytes]; omega)
    rwa [show 32 - 8 * (j + Width.half.bytes) = 16 - 8 * j by simp only [Width.bytes]; omega] at this
  all_goals simp only [Width.bytes]; omega

end Sys2Proof.Machine
end

section
/-! SUPPORT. The decoder, the encoder and the opcode table are one encoding (spec 30 R105 to R107, R118): a word decodes
to an instruction exactly when its used bits are the instruction's encoding, and exactly when the instruction's row
admits it. -/

namespace Sys2Proof

/-! The decoder's maps (R106). -/

theorem decode_special {w : Word} (ho : opcodeOf w = 0x00#6) : decode w = decodeSpecial w := by simp [decode, ho]

theorem decode_regimm {w : Word} (ho : opcodeOf w = 0x01#6) : decode w = decodeRegimm w := by simp [decode, ho]

theorem decode_cop0 {w : Word} (ho : opcodeOf w = 0x10#6) : decode w = decodeCop0 w := by simp [decode, ho]

/-- With bit 25 set neither MFC0 nor MTC0 is selected, and `funct` decides (R117). -/
theorem decodeCop0_eret {w : Word} (hm : (rsBits w).msb = true) (hf : functOf w = 0x18#6) :
    decodeCop0 w = .operation .eret := by
  unfold decodeCop0
  split
  next h0 => simp [h0] at hm
  next h4 => rw [h4] at hm; exact absurd hm (by decide)
  next => simp [hm, hf]

/-- Settles O2: the selector fields of the encoded word lead each map to the instruction's own arm, and the arm reads
every operand back from the field the format put it in. -/
theorem decodeEncodeAgree : Obligations.DecodeEncodeAgree := by
  unfold Obligations.DecodeEncodeAgree
  intro i
  cases i
  case eret => exact (decode_cop0 (by decide)).trans (decodeCop0_eret (by decide) (by decide))
  case mfc0 | mtc0 => rw [decode_cop0 (by simp [encode])]; simp [encode, decodeCop0, regBits]
  case bltz | bgez | bltzal | bgezal =>
    rw [decode_regimm (by simp [encode])]; simp [encode, decodeRegimm, regBits]
  all_goals simp [encode, decode, decodeSpecial]

/-! The word of a decoded instruction. -/

section
variable {w : Word} {i : Instr}

/-- The used bits make up the format's word of its fields; in this map each mask of `usedBits` is of one shape. -/
theorem encode_of_decodeSpecial (ho : opcodeOf w = 0x00#6) (h : decodeSpecial w = .operation i) :
    encode i = w &&& usedBits i := by
  unfold decodeSpecial at h
  split at h <;> cases h
  all_goals
    next hf =>
      simp only [encode, usedBits, ← rWord_rs_rt_rd_eq_and, ← rWord_rt_rd_shamt_eq_and, ← rWord_rs_rt_eq_and,
        ← rWord_rd_eq_and, ← rWord_rs_eq_and, ← rWord_rs_rd_eq_and, ← codeWord_eq_and ho, ho, hf]
      rfl

/-- REGIMM's selector is the `rt` field (R116). -/
theorem encode_of_decodeRegimm (ho : opcodeOf w = 0x01#6) (h : decodeRegimm w = .operation i) :
    encode i = w &&& usedBits i := by
  unfold decodeRegimm at h
  split at h <;> cases h
  all_goals
    next hr =>
      simp only [encode, usedBits, ← iWord_rs_rt_eq_and, rtOf, ho, hr]
      rfl

/-- The selector of MFC0 and MTC0 is the `rs` field; of ERET's word only the row's mask is used (R117). -/
theorem encode_of_decodeCop0 (ho : opcodeOf w = 0x10#6) (h : decodeCop0 w = .operation i) :
    encode i = w &&& usedBits i := by
  unfold decodeCop0 at h
  split at h
  case h_3 =>
    split at h
    next hm =>
      split at h <;> cases h
      next hf => exact ((and_mask_eret w).2 ⟨ho, hm, hf⟩).symm
    next => cases h
  all_goals
    next hr =>
      cases h
      simp only [encode, usedBits, ← rWord_cp0_eq_and, rsOf, ho, hr]
      rfl

/-- A decoded instruction encodes to the word's used bits (R107). -/
theorem encode_of_decode (h : decode w = .operation i) : encode i = w &&& usedBits i := by
  unfold decode at h
  split at h
  next ho => exact encode_of_decodeSpecial ho h
  next ho => exact encode_of_decodeRegimm ho h
  next ho => exact encode_of_decodeCop0 ho h
  case h_4 | h_5 =>
    next ho =>
      cases h
      simp only [encode, usedBits, ← jWord_index_eq_and, ho]
      rfl
  all_goals cases h
  all_goals
    next ho =>
      simp only [encode, usedBits, ← iWord_rs_rt_eq_and, ← iWord_rt_eq_and, ← iWord_rs_eq_and, ho]
      rfl

end

/-! What it says of a word's fields that a row admits it, for each shape of mask. -/

section
variable {n : String} {b w : Word}

theorem opcodeOf_of_admits (h : OpcodeRow.admits ⟨n, b, 0xFC000000⟩ w = true) : opcodeOf w = opcodeOf b := by
  obtain rfl : w &&& 0xFC000000 = b := beq_iff_eq.1 h
  refine (and_mask_opcode w _).1 ?_
  rw [← (and_mask_opcode _ _).2 rfl, BitVec.and_assoc, BitVec.and_self]

theorem opcodeOf_functOf_of_admits (h : OpcodeRow.admits ⟨n, b, 0xFC00003F⟩ w = true) :
    opcodeOf w = opcodeOf b ∧ functOf w = functOf b := by
  obtain rfl : w &&& 0xFC00003F = b := beq_iff_eq.1 h
  refine (and_mask_opcode_funct w _ _).1 ?_
  rw [← (and_mask_opcode_funct _ _ _).2 ⟨rfl, rfl⟩, BitVec.and_assoc, BitVec.and_self]

theorem opcodeOf_rtBits_of_admits (h : OpcodeRow.admits ⟨n, b, 0xFC1F0000⟩ w = true) :
    opcodeOf w = opcodeOf b ∧ rtBits w = rtBits b := by
  obtain rfl : w &&& 0xFC1F0000 = b := beq_iff_eq.1 h
  refine (and_mask_opcode_rt w _ _).1 ?_
  rw [← (and_mask_opcode_rt _ _ _).2 ⟨rfl, rfl⟩, BitVec.and_assoc, BitVec.and_self]

theorem opcodeOf_rsBits_of_admits (h : OpcodeRow.admits ⟨n, b, 0xFFE00000⟩ w = true) :
    opcodeOf w = opcodeOf b ∧ rsBits w = rsBits b := by
  obtain rfl : w &&& 0xFFE00000 = b := beq_iff_eq.1 h
  refine (and_mask_opcode_rs w _ _).1 ?_
  rw [← (and_mask_opcode_rs _ _ _).2 ⟨rfl, rfl⟩, BitVec.and_assoc, BitVec.and_self]

end

/-! The table's rows and the decoder. -/

/-- A word that an instruction's row admits decodes to an instruction of that row. -/
theorem decode_of_admits {w : Word} {i : Instr} (h : (rowOf i).admits w = true) :
    ∃ j, decode w = .operation j ∧ rowOf j = rowOf i ∧ usedBits j = usedBits i := by
  cases i
  case bltz | bgez | bltzal | bgezal =>
    obtain ⟨ho, hr⟩ := opcodeOf_rtBits_of_admits h
    rw [decode_regimm ho, decodeRegimm, hr]
    exact ⟨_, rfl, rfl, rfl⟩
  case mfc0 | mtc0 =>
    obtain ⟨ho, hr⟩ := opcodeOf_rsBits_of_admits h
    rw [decode_cop0 ho, decodeCop0, hr]
    exact ⟨_, rfl, rfl, rfl⟩
  case eret =>
    obtain ⟨ho, hm, hf⟩ := (and_mask_eret w).1 (beq_iff_eq.1 h)
    exact ⟨_, (decode_cop0 ho).trans (decodeCop0_eret hm hf), rfl, rfl⟩
  case addi | addiu | slti | sltiu | andi | ori | xori | lui | beq | bne | blez | bgtz | j | jal | lb | lbu | lh |
      lhu | lw | sb | sh | sw =>
    rw [decode, opcodeOf_of_admits h]
    exact ⟨_, rfl, rfl, rfl⟩
  all_goals
    obtain ⟨ho, hf⟩ := opcodeOf_functOf_of_admits h
    rw [decode_special ho, decodeSpecial, hf]
    exact ⟨_, rfl, rfl, rfl⟩

/-- The encoder and the table are one encoding: the per-instruction facts of `Laws.EncodedRow`, in the order of the
constructors. -/
theorem admits_encode (i : Instr) : (rowOf i).admits (encode i) = true :=
  open Laws.EncodedRow in
  Instr.rec (motive := Statement) add addu sub subu addi addiu slt sltu slti sltiu and or xor nor andi ori xori lui sll
    srl sra sllv srlv srav mult multu div divu mfhi mflo mthi mtlo beq bne blez bgtz bltz bgez bltzal bgezal j jal jr
    jalr lb lbu lh lhu lw sb sh sw syscall brk mfc0 mtc0 eret i

/-- The used bits hold the row's mask (R107). -/
theorem usedBits_and_mask (i : Instr) : usedBits i &&& (rowOf i).mask = (rowOf i).mask := by
  cases i <;>
    · rw [usedBits, rowOf]
      decide

/-- A word whose used bits are an instruction's encoding is admitted by its row. -/
theorem admits_of_encode_eq {w : Word} {i : Instr} (h : encode i = w &&& usedBits i) :
    (rowOf i).admits w = true := by
  have row := beq_iff_eq.1 (admits_encode i)
  rw [h, BitVec.and_assoc, usedBits_and_mask] at row
  exact beq_iff_eq.2 row

/-- A word decodes to an instruction exactly when its used bits are the instruction's encoding (R107). -/
theorem decode_eq_operation_iff {w : Word} {i : Instr} :
    decode w = .operation i ↔ encode i = w &&& usedBits i := by
  refine ⟨encode_of_decode, fun h => ?_⟩
  obtain ⟨j, hj, -, used⟩ := decode_of_admits (admits_of_encode_eq h)
  have same : encode j = encode i := by rw [encode_of_decode hj, used, h]
  calc decode w = .operation j := hj
    _ = decode (encode j) := (decodeEncodeAgree j).symm
    _ = .operation i := same ▸ decodeEncodeAgree i

theorem rowOf_mem (i : Instr) : rowOf i ∈ opcodeTable := by
  cases i <;>
    · rw [rowOf]
      decide

/-- The row of what a word decodes to. -/
def Descriptor.row : Descriptor → Option OpcodeRow
  | .operation i => some (rowOf i)
  | .reservedInstruction => none

theorem row_decode_bits : ∀ row ∈ opcodeTable, (decode row.bits).row = some row := by decide

theorem exists_rowOf_eq {row : OpcodeRow} (h : row ∈ opcodeTable) : ∃ i, rowOf i = row := by
  have hr := row_decode_bits row h
  cases hd : decode row.bits with
  | operation i => exact ⟨i, Option.some.inj (by rwa [hd] at hr)⟩
  | reservedInstruction => simp [hd, Descriptor.row] at hr

/-- A row of the table admits exactly the words that decode to its instruction (R105). -/
theorem admits_iff_decode {row : OpcodeRow} (hrow : row ∈ opcodeTable) (w : Word) :
    row.admits w = true ↔ ∃ i, decode w = .operation i ∧ rowOf i = row := by
  constructor
  · intro h
    obtain ⟨i, rfl⟩ := exists_rowOf_eq hrow
    obtain ⟨j, hj, row, -⟩ := decode_of_admits h
    exact ⟨j, hj, row⟩
  · rintro ⟨i, hi, rfl⟩
    exact admits_of_encode_eq (encode_of_decode hi)

/-- Settles O3, from the used bits of a decoded word. -/
theorem decodedWordMatchesItsRow : Obligations.DecodedWordMatchesItsRow := by
  unfold Obligations.DecodedWordMatchesItsRow
  intro w i h
  have used := encode_of_decode h
  exact ⟨rowOf_mem i, admits_of_encode_eq used, used⟩

/-- Settles O4: a row that admits the word gives the instruction it decodes to, and the other way round. -/
theorem reservedWordsMatchNoRow : Obligations.ReservedWordsMatchNoRow := by
  unfold Obligations.ReservedWordsMatchNoRow
  intro w
  constructor
  · intro h row hrow
    refine Bool.eq_false_iff.2 fun ha => ?_
    obtain ⟨i, hi, -⟩ := (admits_iff_decode hrow w).1 ha
    simp [h] at hi
  · intro h
    cases hd : decode w with
    | reservedInstruction => rfl
    | operation i => simpa [h _ (rowOf_mem i)] using (admits_iff_decode (rowOf_mem i) w).2 ⟨i, hd, rfl⟩

/-- Settles O5: the two rows are the row of the one instruction the word decodes to. -/
theorem tableRowsDoNotOverlap : Obligations.TableRowsDoNotOverlap := by
  unfold Obligations.TableRowsDoNotOverlap
  intro w row hrow row' hrow' h h'
  obtain ⟨i, hi, rfl⟩ := (admits_iff_decode hrow w).1 h
  obtain ⟨j, hj, rfl⟩ := (admits_iff_decode hrow' w).1 h'
  obtain rfl : i = j := Descriptor.operation.inj (hi.symm.trans hj)
  rfl

/-- Settles O6: the row decides by its mask, the used bits decide the instruction, and no code field reaches `exec`. -/
theorem unusedFieldsAreIgnored : Obligations.UnusedFieldsAreIgnored := by
  unfold Obligations.UnusedFieldsAreIgnored
  refine ⟨fun w row hrow => admits_iff_decode hrow w, fun w w' i h used => ?_, fun _ _ _ => ⟨rfl, rfl⟩⟩
  exact decode_eq_operation_iff.2 ((encode_of_decode h).trans used.symm)

/-- Settles O1, by running the decoder on the thirteen words. -/
theorem handWrittenWordsDecode : Obligations.HandWrittenWordsDecode := by
  unfold Obligations.HandWrittenWordsDecode
  decide

end Sys2Proof
end

section
/-! SUPPORT. Immediates, effective addresses and targets in integers (spec 30 R108 to R112, spec 45 R250). -/

namespace Sys2Proof.Machine

/-- The base plus the signed offset, modulo 2^32 (R250). -/
theorem effAddr_eq_ofInt (base : Word) (imm : BitVec 16) :
    effAddr base imm = BitVec.ofInt 32 ((base.toNat : Int) + imm.toInt) := by
  rw [BitVec.ofInt_add, BitVec.ofInt_natCast, BitVec.ofNat_toNat, BitVec.setWidth_eq]
  rfl

/-- The delay slot plus four times the signed offset, modulo 2^32 (R111). -/
theorem branchTarget_eq_ofInt (pc : Word) (imm : BitVec 16) :
    branchTarget pc imm = BitVec.ofInt 32 ((pc.toNat : Int) + 4 + 4 * imm.toInt) := by
  have offset : sext16 imm <<< 2 = BitVec.ofInt 32 (4 * imm.toInt) := by
    rw [BitVec.ofInt_mul, BitVec.mul_comm, BitVec.shiftLeft_eq_mul_twoPow]
    rfl
  rw [branchTarget, offset, BitVec.ofInt_add, BitVec.ofInt_add, BitVec.ofInt_natCast, BitVec.ofNat_toNat,
    BitVec.setWidth_eq]
  rfl

/-- The block of the delay slot, then the index times four (R112). -/
theorem toNat_jumpTarget (pc : Word) (index : BitVec 26) :
    (jumpTarget pc index).toNat = (pc + 4).toNat / 2 ^ 28 * 2 ^ 28 + index.toNat * 4 := by
  have := (pc + 4).isLt
  simp only [jumpTarget, toNat_append_eq, toNat_extractLsb'_eq, BitVec.toNat_ofNat]
  omega

/-- Settles O7, from the address and target forms in integers and the three extensions of an immediate. -/
theorem addressesAndTargetsAreExact : Obligations.AddressesAndTargetsAreExact := by
  unfold Obligations.AddressesAndTargetsAreExact
  intro base pc imm index
  refine ⟨effAddr_eq_ofInt base imm, branchTarget_eq_ofInt pc imm, toNat_jumpTarget pc index,
    BitVec.toInt_signExtend_of_le (by decide), BitVec.toNat_setWidth_of_le (by decide), ?_⟩
  exact (toNat_append_eq imm 0#16).trans (by simp)

end Sys2Proof.Machine
end

section
/-! SUPPORT. Arithmetic and comparison (spec 40 R140 to R151): the overflow conditions, the extended immediate and the
comparisons in integers, and what a checked result comes to. -/

namespace Sys2Proof.Machine

/-! The sign-extended immediate in integers (R108). -/

theorem toInt_sext16 (imm : BitVec 16) : (sext16 imm).toInt = imm.toInt := BitVec.toInt_signExtend_of_le (by decide)

theorem toNat_sext16 (imm : BitVec 16) : ((sext16 imm).toNat : Int) = imm.toInt % 2 ^ 32 := by
  have range : 0 ≤ imm.toInt % (2 ^ 32 : Nat) := Int.emod_nonneg _ (by decide)
  exact (congrArg Nat.cast (BitVec.toNat_ofInt _)).trans (Int.toNat_of_nonneg range)

/-! Signed overflow (R140). -/

/-- `c` is the overflow condition of the word result `w` of an operation whose exact result is `x`: `w` is `x` modulo
2^32, and `c` holds when `x` is outside the signed range. -/
def ChecksOverflow (c : Bool) (w : Word) (x : Int) : Prop :=
  w = BitVec.ofInt 32 x ∧ (c = false ↔ -2 ^ 31 ≤ x ∧ x < 2 ^ 31)

/-- Equal signs and a sum of the other sign say that the exact sum is out of range. -/
theorem checksOverflow_add (a b : Word) : ChecksOverflow (addOverflows a b) (a + b) (a.toInt + b.toInt) := by
  have signs : addOverflows a b = a.saddOverflow b := (BitVec.saddOverflow_eq a b).symm
  refine ⟨BitVec.eq_of_toInt_eq (by rw [BitVec.toInt_add, BitVec.toInt_ofInt]), ?_⟩
  simp [signs, BitVec.saddOverflow, and_comm]

/-- Different signs and a difference of the other sign say that the exact difference is out of range. -/
theorem checksOverflow_sub (a b : Word) : ChecksOverflow (subOverflows a b) (a - b) (a.toInt - b.toInt) := by
  have signs : subOverflows a b = a.ssubOverflow b := by
    rw [BitVec.ssubOverflow_eq, subOverflows]
    cases a.msb <;> cases b.msb <;> simp
  refine ⟨BitVec.eq_of_toInt_eq (by rw [BitVec.toInt_sub, BitVec.toInt_ofInt]), ?_⟩
  simp [signs, BitVec.ssubOverflow, and_comm]

theorem checksOverflow_addImmediate (a : Word) (imm : BitVec 16) :
    ChecksOverflow (addOverflows a (sext16 imm)) (a + sext16 imm) (a.toInt + imm.toInt) :=
  toInt_sext16 imm ▸ checksOverflow_add a (sext16 imm)

/-- A word that denotes the exact result is the result, and its range rules the overflow out. -/
theorem ChecksOverflow.exact {c : Bool} {w : Word} {x : Int} (h : ChecksOverflow c w x) (s : State) (rd : Reg)
    {v : Word} (hv : v.toInt = x) : RegisterResult s (s.raiseIf c .ov (s.result rd w)) rd v := by
  obtain ⟨hw, hc⟩ := h
  have hwv : w = v := by rw [hw, ← hv, BitVec.ofInt_toInt]
  have hn : c = false := hc.2 (hv ▸ ⟨v.le_toInt, v.toInt_lt⟩)
  subst hwv hn
  exact result_spec s rd w

/-- With no word for the exact result there is overflow: a result in range is denoted by its own word. -/
theorem ChecksOverflow.traps {c : Bool} {w : Word} {x : Int} (h : ChecksOverflow c w x) {s : State} (rd : Reg)
    (hs : CanTrap s) (hx : ∀ v : Word, v.toInt ≠ x) : TrapTaken s (s.raiseIf c .ov (s.result rd w)) .ov := by
  obtain ⟨-, hc⟩ := h
  obtain ⟨hexl, hi⟩ := hs
  cases c with
  | true => exact raise_taken (k := .ov) (.inr hexl) hi (.inl (by simp))
  | false =>
    obtain ⟨lower, upper⟩ := hc.1 rfl
    exact absurd (BitVec.toInt_ofInt_eq_self (by decide) lower upper) (hx _)

/-- Settles O8, from the overflow condition of each form. -/
theorem addSubAreExactOrTrap : Obligations.AddSubAreExactOrTrap := by
  unfold Obligations.AddSubAreExactOrTrap
  intro s rd rs rt imm
  have add := checksOverflow_add (s.reg rs) (s.reg rt)
  have sub := checksOverflow_sub (s.reg rs) (s.reg rt)
  have addi := checksOverflow_addImmediate (s.reg rs) imm
  exact ⟨fun _ hv => ⟨_, rfl, add.exact s rd hv⟩, fun _ hv => ⟨_, rfl, sub.exact s rd hv⟩,
    fun _ hv => ⟨_, rfl, addi.exact s rd hv⟩, fun hs hx => ⟨_, rfl, add.traps rd hs hx⟩,
    fun hs hx => ⟨_, rfl, sub.traps rd hs hx⟩, fun hs hx => ⟨_, rfl, addi.traps rd hs hx⟩⟩

/-! Results modulo 2^32 (R142, R144, R146). -/

theorem toNat_sub_add_mod (a b : Word) : ((a - b).toNat + b.toNat) % 2 ^ 32 = a.toNat := by
  rw [← BitVec.toNat_add, BitVec.sub_add_cancel]

theorem toNat_add_sext16 (a : Word) (imm : BitVec 16) :
    ((a + sext16 imm).toNat : Int) = (a.toNat + imm.toInt) % 2 ^ 32 := by
  rw [← Int.add_emod_emod, ← toNat_sext16, BitVec.toNat_add]
  push_cast
  rfl

/-- Settles O9: no form checks for overflow, and the words are the sum and the difference modulo 2^32. -/
theorem unsignedAddSubWrap : Obligations.UnsignedAddSubWrap := by
  unfold Obligations.UnsignedAddSubWrap
  intro s rd rs rt imm
  exact ⟨⟨_, _, rfl, result_spec s rd _, BitVec.toNat_add ..⟩, ⟨_, _, rfl, result_spec s rd _, toNat_sub_add_mod _ _⟩,
    ⟨_, _, rfl, result_spec s rd _, toNat_add_sext16 _ imm⟩⟩

/-! Comparisons (R148 to R151). -/

theorem boolWord_lessSigned (a b : Word) : boolWord (lessSigned a b) = if a.toInt < b.toInt then 1 else 0 := by
  simp [boolWord, lessSigned]

theorem boolWord_lessUnsigned (a b : Word) : boolWord (lessUnsigned a b) = if a.toNat < b.toNat then 1 else 0 := by
  simp [boolWord, lessUnsigned]

theorem boolWord_lessSigned_sext16 (a : Word) (imm : BitVec 16) :
    boolWord (lessSigned a (sext16 imm)) = if a.toInt < imm.toInt then 1 else 0 := by
  rw [boolWord_lessSigned, toInt_sext16]

theorem boolWord_lessUnsigned_sext16 (a : Word) (imm : BitVec 16) :
    boolWord (lessUnsigned a (sext16 imm)) = if (a.toNat : Int) < imm.toInt % 2 ^ 32 then 1 else 0 := by
  simp only [boolWord_lessUnsigned, ← toNat_sext16, Int.ofNat_lt]

/-- Settles O10: each form commits its comparison as a word. -/
theorem setOnLessThan : Obligations.SetOnLessThan := by
  unfold Obligations.SetOnLessThan
  intro s rd rs rt imm
  exact ⟨⟨_, rfl, boolWord_lessSigned _ _ ▸ result_spec s rd _⟩,
    ⟨_, rfl, boolWord_lessUnsigned _ _ ▸ result_spec s rd _⟩,
    ⟨_, rfl, boolWord_lessSigned_sext16 _ imm ▸ result_spec s rd _⟩,
    ⟨_, rfl, boolWord_lessUnsigned_sext16 _ imm ▸ result_spec s rd _⟩⟩

end Sys2Proof.Machine
end

section
/-! SUPPORT. Logical operations (spec 41 R160 to R168): the bits of NOR and of the zero-extended immediate, and LUI's
word in integers. -/

namespace Sys2Proof.Machine

/-- A NOR bit (R164). -/
theorem getLsbD_nor (a b : Word) {n : Nat} (h : n < 32) :
    (~~~(a ||| b)).getLsbD n = !(a.getLsbD n || b.getLsbD n) := by
  rw [BitVec.getLsbD_not, decide_eq_true h, Bool.true_and, BitVec.getLsbD_or]

/-- Settles O11: the words are the bitwise operations, and NOR complements the bits of OR. -/
theorem logicalRegisterForms : Obligations.LogicalRegisterForms := by
  unfold Obligations.LogicalRegisterForms
  intro s rd rs rt
  exact ⟨⟨_, _, rfl, result_spec s rd _, fun _ _ => BitVec.getLsbD_and⟩,
    ⟨_, _, rfl, result_spec s rd _, fun _ _ => BitVec.getLsbD_or⟩,
    ⟨_, _, rfl, result_spec s rd _, fun _ _ => BitVec.getLsbD_xor⟩,
    ⟨_, _, rfl, result_spec s rd _, fun _ h => getLsbD_nor _ _ h⟩⟩

/-! The immediates (R109, R110). -/

/-- The low bits of a zero-extended immediate are the immediate's. -/
theorem getLsbD_zext16_low (imm : BitVec 16) {n : Nat} (h : n < 16) : (zext16 imm).getLsbD n = imm.getLsbD n := by
  have inside : n < 32 := by omega
  rw [zext16, BitVec.getLsbD_setWidth, decide_eq_true inside, Bool.true_and]

/-- The high bits of a zero-extended immediate are zero. -/
theorem getLsbD_zext16_high (imm : BitVec 16) {n : Nat} (h : 16 ≤ n) : (zext16 imm).getLsbD n = false := by
  rw [zext16, BitVec.getLsbD_setWidth, BitVec.getLsbD_of_ge imm n h, Bool.and_false]

theorem toNat_upper16 (imm : BitVec 16) : (upper16 imm).toNat = imm.toNat * 65536 :=
  (toNat_append_eq imm 0#16).trans (by simp)

/-- Settles O12: the low bits combine with the immediate's, the high bits with zeros, and LUI's word is its immediate
above a zero halfword. -/
theorem logicalImmediateForms : Obligations.LogicalImmediateForms := by
  unfold Obligations.LogicalImmediateForms
  intro s rt rs imm
  refine ⟨⟨_, _, rfl, result_spec s rt _, fun n h => ?_, fun n h _ => ?_⟩,
    ⟨_, _, rfl, result_spec s rt _, fun n h => ?_, fun n h _ => ?_⟩,
    ⟨_, _, rfl, result_spec s rt _, fun n h => ?_, fun n h _ => ?_⟩,
    ⟨_, _, rfl, result_spec s rt _, toNat_upper16 imm⟩⟩
  · rw [BitVec.getLsbD_and, getLsbD_zext16_low imm h]
  · rw [BitVec.getLsbD_and, getLsbD_zext16_high imm h, Bool.and_false]
  · rw [BitVec.getLsbD_or, getLsbD_zext16_low imm h]
  · rw [BitVec.getLsbD_or, getLsbD_zext16_high imm h, Bool.or_false]
  · rw [BitVec.getLsbD_xor, getLsbD_zext16_low imm h]
  · rw [BitVec.getLsbD_xor, getLsbD_zext16_high imm h, Bool.xor_false]

end Sys2Proof.Machine
end

section
/-! SUPPORT. Shifts (spec 42 R180 to R186): the shifted words in integers, for any amount, and the amount a register
gives. -/

namespace Sys2Proof.Machine

/-- A left shift multiplies, modulo 2^32 (R181). -/
theorem toNat_shiftLeft_eq_mul (a : Word) (n : Nat) : (a <<< n).toNat = a.toNat * 2 ^ n % 2 ^ 32 := by
  rw [BitVec.toNat_shiftLeft, Nat.shiftLeft_eq]

/-- A logical right shift is floor division of the unsigned value (R182). -/
theorem toNat_ushiftRight_eq_div (a : Word) (n : Nat) : (a >>> n).toNat = a.toNat / 2 ^ n := by
  rw [BitVec.toNat_ushiftRight, Nat.shiftRight_eq_div_pow]

/-- An arithmetic right shift is floor division of the signed value (R183). -/
theorem toInt_sshiftRight_eq_fdiv (a : Word) (n : Nat) : (a.sshiftRight n).toInt = a.toInt.fdiv (2 ^ n) := by
  have divisor : (0 : Int) ≤ 2 ^ n := by positivity
  rw [BitVec.toInt_sshiftRight, Int.shiftRight_eq_div_pow, Int.fdiv_eq_ediv_of_nonneg _ divisor]
  push_cast
  rfl

/-- The amount is the register modulo 32 (R113). -/
theorem low5_eq_mod (v : Word) : low5 v = v.toNat % 32 :=
  (toNat_extractLsb'_eq v 0 5).trans (by simp)

/-- Settles O13: each form commits the shifted word. -/
theorem shiftsByConstant : Obligations.ShiftsByConstant := by
  unfold Obligations.ShiftsByConstant
  intro s rd rt shamt
  exact ⟨⟨_, _, rfl, result_spec s rd _, toNat_shiftLeft_eq_mul _ _⟩,
    ⟨_, _, rfl, result_spec s rd _, toNat_ushiftRight_eq_div _ _⟩,
    ⟨_, _, rfl, result_spec s rd _, toInt_sshiftRight_eq_fdiv _ _⟩⟩

/-- Settles O14: each form commits the word shifted by the register modulo 32. -/
theorem shiftsByRegister : Obligations.ShiftsByRegister := by
  unfold Obligations.ShiftsByRegister
  intro s rd rt rs
  rw [← low5_eq_mod]
  exact ⟨⟨_, _, rfl, result_spec s rd _, toNat_shiftLeft_eq_mul _ _⟩,
    ⟨_, _, rfl, result_spec s rd _, toNat_ushiftRight_eq_div _ _⟩,
    ⟨_, _, rfl, result_spec s rd _, toInt_sshiftRight_eq_fdiv _ _⟩⟩

end Sys2Proof.Machine
end

section
/-! SUPPORT. Multiply, divide, HI and LO (spec 43 R200 to R208): the two words of the product, the quotient and the
remainder in integers, and what a division by zero keeps. -/

namespace Sys2Proof.Machine

/-! The product (R200 to R202). -/

theorem setProduct_spec (s : State) (p : Int) : HiLoResult s (s.setProduct p).advance
    ((BitVec.ofInt 64 p).extractLsb' 32 32) ((BitVec.ofInt 64 p).extractLsb' 0 32) :=
  setHiLo_spec s _ _

theorem halves_append (p : BitVec 64) : p.extractLsb' 32 32 ++ p.extractLsb' 0 32 = p :=
  BitVec.extractLsb'_append_extractLsb'

/-- The two halves of a doubleword denote its signed value, the high one signed. -/
theorem toInt_halves (p : BitVec 64) :
    (p.extractLsb' 32 32).toInt * 2 ^ 32 + (p.extractLsb' 0 32).toNat = p.toInt := by
  rw [Int.mul_comm]
  exact BitVec.toInt_append.symm.trans (congrArg BitVec.toInt (halves_append p))

/-- The two halves of a doubleword denote its unsigned value. -/
theorem toNat_halves (p : BitVec 64) :
    (p.extractLsb' 32 32).toNat * 2 ^ 32 + (p.extractLsb' 0 32).toNat = p.toNat :=
  (toNat_append_eq _ _).symm.trans (congrArg BitVec.toNat (halves_append p))

/-- A signed product of words fits in 64 bits: its magnitude is at most 2^62. -/
theorem toInt_ofInt_mul (a b : Word) : (BitVec.ofInt 64 (a.toInt * b.toInt)).toInt = a.toInt * b.toInt := by
  have lower : -2 ^ 62 ≤ a.toInt * b.toInt := BitVec.le_toInt_mul_toInt
  have upper : a.toInt * b.toInt ≤ 2 ^ 62 := BitVec.toInt_mul_toInt_le
  exact BitVec.toInt_ofInt_eq_self (by decide) (by omega) (by omega)

/-- An unsigned product of words fits in 64 bits. -/
theorem toNat_ofInt_mul (a b : Word) :
    (BitVec.ofInt 64 ((a.toNat * b.toNat : Nat) : Int)).toNat = a.toNat * b.toNat := by
  have bound : a.toNat * b.toNat < 2 ^ 64 := BitVec.toNat_mul_toNat_lt
  rw [BitVec.ofInt_natCast, BitVec.toNat_ofNat, Nat.mod_eq_of_lt bound]

/-- Settles O15: the product fits in 64 bits, and HI and LO are its halves. -/
theorem productIsExact : Obligations.ProductIsExact := by
  unfold Obligations.ProductIsExact
  intro s rs rt
  exact ⟨⟨_, _, _, rfl, setProduct_spec s _, (toInt_halves _).trans (toInt_ofInt_mul _ _)⟩,
    ⟨_, _, _, rfl, setProduct_spec s _, (toNat_halves _).trans (toNat_ofInt_mul _ _)⟩⟩

/-! Division by a non-zero divisor (R203, R204). -/

/-- DIV is signed word division, the wrapping quotient -2^31 / -1 included. -/
theorem divideSigned_of_ne_zero (s : State) (a : Word) {b : Word} (hb : b ≠ 0) :
    s.divideSigned a b = s.setHiLo (a.srem b) (a.sdiv b) := by
  rw [State.divideSigned, if_neg hb]
  split
  case isTrue h =>
    obtain ⟨rfl, rfl⟩ := h
    rfl
  case isFalse =>
    have remainder : BitVec.ofInt 32 (a.toInt.tmod b.toInt) = a.srem b := by
      rw [← BitVec.toInt_srem, BitVec.ofInt_toInt]
    have quotient : BitVec.ofInt 32 (a.toInt.tdiv b.toInt) = a.sdiv b :=
      BitVec.eq_of_toInt_eq (by rw [BitVec.toInt_ofInt, BitVec.toInt_sdiv])
    rw [remainder, quotient]

theorem divideSigned_spec (s : State) (a : Word) {b : Word} (hb : b ≠ 0) :
    HiLoResult s (s.divideSigned a b).advance (a.srem b) (a.sdiv b) :=
  divideSigned_of_ne_zero s a hb ▸ setHiLo_spec s _ _

theorem divideUnsigned_spec (s : State) (a : Word) {b : Word} (hb : b ≠ 0) :
    HiLoResult s (s.divideUnsigned a b).advance (a % b) (a / b) := by
  rw [State.divideUnsigned, if_neg hb, ← BitVec.umod_def, ← BitVec.udiv_def]
  exact setHiLo_spec s _ _

/-- But for -2^31 / -1 the quotient is a word, so the division is exact. -/
theorem toInt_eq_sdiv_mul_add_srem {a b : Word} (h : ¬(a = 0x80000000 ∧ b = 0xFFFFFFFF)) :
    a.toInt = (a.sdiv b).toInt * b.toInt + (a.srem b).toInt := by
  rw [BitVec.toInt_sdiv_of_ne_or_ne a b (not_and_or.1 h), BitVec.toInt_srem, Int.tdiv_mul_add_tmod]

theorem natAbs_srem_lt (a : Word) {b : Word} (hb : b ≠ 0) : (a.srem b).toInt.natAbs < b.toInt.natAbs := by
  have positive : 0 < b.toInt.natAbs := Int.natAbs_pos.2 fun h => hb (BitVec.eq_of_toInt_eq h)
  rw [BitVec.toInt_srem, Int.natAbs_tmod]
  exact Nat.mod_lt _ positive

/-- The remainder is zero, or it has the dividend's sign. -/
theorem srem_eq_zero_or_sign (a b : Word) : (a.srem b).toInt = 0 ∨ ((a.srem b).toInt < 0 ↔ a.toInt < 0) := by
  rw [BitVec.toInt_srem]
  by_cases hd : b.toInt ∣ a.toInt
  · exact .inl (Int.tmod_eq_zero_of_dvd hd)
  · have same : (a.toInt.tmod b.toInt).sign = a.toInt.sign := by rw [Int.sign_tmod, if_neg hd]
    exact .inr (by rw [← Int.sign_neg_iff, same, Int.sign_neg_iff])

theorem toNat_eq_udiv_mul_add_umod (a b : Word) : a.toNat = (a / b).toNat * b.toNat + (a % b).toNat :=
  (Nat.div_add_mod' a.toNat b.toNat).symm

theorem toNat_umod_lt (a : Word) {b : Word} (hb : b ≠ 0) : (a % b).toNat < b.toNat :=
  Nat.mod_lt _ (Nat.pos_of_ne_zero fun h => hb (BitVec.eq_of_toNat_eq h))

/-- Settles O16: DIV commits the signed quotient and remainder, DIVU the unsigned ones. -/
theorem divisionIsExact : Obligations.DivisionIsExact := by
  unfold Obligations.DivisionIsExact
  intro s rs rt hb
  refine ⟨fun h => ⟨_, _, _, rfl, divideSigned_spec s _ hb, toInt_eq_sdiv_mul_add_srem h, natAbs_srem_lt _ hb,
    srem_eq_zero_or_sign _ _⟩, fun hrs hrt => ⟨_, rfl, ?_⟩,
    ⟨_, _, _, rfl, divideUnsigned_spec s _ hb, toNat_eq_udiv_mul_add_umod _ _, toNat_umod_lt _ hb⟩⟩
  rw [hrs, hrt]
  exact divideSigned_spec s 0x80000000 (b := 0xFFFFFFFF) (by decide)

/-! Division by zero (R203, R204, U1). -/

theorem divideSigned_zero (s : State) (a : Word) : s.divideSigned a 0 = s.divideByZero := if_pos rfl

theorem divideUnsigned_zero (s : State) (a : Word) : s.divideUnsigned a 0 = s.divideByZero := if_pos rfl

/-- A division by zero can write HI, LO and the count of free values and nothing else, and under the policy
`unchanged` it writes what stood there. -/
theorem divideByZero_cases (s : State) :
    ∃ hi lo n, s.divideByZero = { s.setHiLo hi lo with freeCount := n } ∧
      (s.platform.div0Policy = .unchanged → hi = s.hi ∧ lo = s.lo ∧ n = s.freeCount) := by
  cases hp : s.platform.div0Policy with
  | unchanged => exact ⟨s.hi, s.lo, s.freeCount, by rw [State.divideByZero, hp]; rfl, fun _ => ⟨rfl, rfl, rfl⟩⟩
  | arbitrary => exact ⟨_, _, _, by rw [State.divideByZero, hp], nofun⟩

/-- Either division by zero commits what `divideByZero` leaves. -/
theorem exec_divide_zero {i : Instr} {rs rt : Reg} (hi : i = .div rs rt ∨ i = .divu rs rt) {s : State}
    (hb : s.reg rt = 0) : exec i s = .next s.divideByZero.advance := by
  rcases hi with rfl | rfl
  · exact congrArg (fun t : State => Host.Outcome.next t.advance) (hb ▸ divideSigned_zero s (s.reg rs))
  · exact congrArg (fun t : State => Host.Outcome.next t.advance) (hb ▸ divideUnsigned_zero s (s.reg rs))

/-- Settles O17: both divisions by zero commit, with at most HI, LO and the count of free values written. -/
theorem divisionByZeroDoesNotTrap : Obligations.DivisionByZeroDoesNotTrap := by
  unfold Obligations.DivisionByZeroDoesNotTrap
  intro s rs rt hb i hi
  obtain ⟨h, l, n, written, kept⟩ := divideByZero_cases s
  refine ⟨_, exec_divide_zero hi hb, ?_⟩
  rw [written]
  refine ⟨⟨s.nextPc_eq, rfl⟩, fun _ => rfl, ⟨rfl, rfl, rfl, rfl⟩, fun _ => rfl, ⟨rfl, rfl⟩, ⟨rfl, rfl, rfl⟩,
    fun hp => ?_⟩
  obtain ⟨keepsHi, keepsLo, keepsCount⟩ := kept hp
  exact ⟨⟨keepsHi, keepsLo⟩, rfl, rfl, rfl, rfl, rfl, rfl, rfl, rfl, rfl, keepsCount⟩

/-! Moves (R205 to R208). -/

/-- Settles O18: each move commits one register result or one HI/LO result. -/
theorem hiLoMoves : Obligations.HiLoMoves := by
  unfold Obligations.HiLoMoves
  intro s r
  exact ⟨⟨_, rfl, result_spec s r s.hi⟩, ⟨_, rfl, result_spec s r s.lo⟩, ⟨_, rfl, setHiLo_spec s (s.reg r) s.lo⟩,
    ⟨_, rfl, setHiLo_spec s s.hi (s.reg r)⟩⟩

end Sys2Proof.Machine
end

section
/-! SUPPORT. The sequencer, branches and jumps (spec 44 R220 to R237): what every branch and jump commits, what every
other instruction leaves of the sequencer, and the two steps of a branch and its delay slot. -/

namespace Sys2Proof

/-- The branches and jumps of spec 44. -/
def Instr.isBranchOrJump : Instr → Bool
  | .beq .. | .bne .. | .blez .. | .bgtz .. | .bltz .. | .bgez .. | .bltzal .. | .bgezal .. => true
  | .j .. | .jal .. | .jr .. | .jalr .. => true
  | _ => false

/-- The register that a branch or jump links, if it is one that links (R224). -/
def Instr.linkRegister : Instr → Option Reg
  | .bltzal .. | .bgezal .. | .jal .. => some 31
  | .jalr rd _ => some rd
  | _ => none

namespace Machine

/-! The conditions in integers (R224). -/

theorem isNegative_iff (a : Word) : isNegative a = true ↔ a.toInt < 0 := by simp [isNegative_eq]

theorem not_isNegative_iff (a : Word) : (!isNegative a) = true ↔ 0 ≤ a.toInt := by simp [isNegative_eq]

theorem isNonPositive_iff (a : Word) : isNonPositive a = true ↔ a.toInt ≤ 0 := by simp [isNonPositive_eq]

theorem not_isNonPositive_iff (a : Word) : (!isNonPositive a) = true ↔ 0 < a.toInt := by simp [isNonPositive_eq]

/-- A conditional branch whose test decides `p` leaves its target pending exactly when `p` holds (R220). -/
theorem branch_spec_iff (s : State) {c : Bool} {p : Prop} [Decidable p] (h : c = true ↔ p) (imm : BitVec 16) :
    JumpResult s (s.branch c imm) (if p then some (branchTarget s.pc imm) else none) :=
  if_congr h rfl rfl ▸ branch_spec s c imm

/-! What a branch or a jump commits (R220, R221, R224). -/

/-- The result of a branch or jump: its own target pending, its link written if it links, and nothing else changed. -/
def BranchResult (i : Instr) (s t : State) : Prop :=
  match i.linkRegister with
  | none => JumpResult s t (pendingTarget i s)
  | some rd => LinkResult s t rd (pendingTarget i s)

/-- Every branch and jump commits in every state (R225 to R236). -/
theorem exec_branchOrJump {i : Instr} (h : i.isBranchOrJump = true) (s : State) :
    ∃ t, exec i s = .next t ∧ BranchResult i s t := by
  cases i
  case beq rs rt imm => exact ⟨_, rfl, branch_spec_iff s beq_iff_eq imm⟩
  case bne rs rt imm => exact ⟨_, rfl, branch_spec_iff s bne_iff_ne imm⟩
  case blez rs imm => exact ⟨_, rfl, branch_spec_iff s (isNonPositive_iff _) imm⟩
  case bgtz rs imm => exact ⟨_, rfl, branch_spec_iff s (not_isNonPositive_iff _) imm⟩
  case bltz rs imm => exact ⟨_, rfl, branch_spec_iff s (isNegative_iff _) imm⟩
  case bgez rs imm => exact ⟨_, rfl, branch_spec_iff s (not_isNegative_iff _) imm⟩
  case bltzal rs imm => exact ⟨_, rfl, link_spec (branch_spec_iff _ (isNegative_iff _) imm)⟩
  case bgezal rs imm => exact ⟨_, rfl, link_spec (branch_spec_iff _ (not_isNegative_iff _) imm)⟩
  case j | jr => exact ⟨_, rfl, jumpTo_spec s _⟩
  case jal | jalr => exact ⟨_, rfl, link_spec (jumpTo_spec _ _)⟩
  all_goals exact absurd h Bool.false_ne_true

/-- What a branch or jump leaves pending, and what it leaves alone, whether it links or not. -/
theorem BranchResult.frame {i : Instr} {s t : State} (h : BranchResult i s t) :
    Sequenced s t (pendingTarget i s) ∧ KeepsRun s t ∧ KeepsOutside s t := by
  unfold BranchResult at h
  split at h
  · obtain ⟨hq, -, -, -, -, -, hr, ho⟩ := h
    exact ⟨hq, hr, ho⟩
  · obtain ⟨-, hq, -, -, -, -, hr, ho⟩ := h
    exact ⟨hq, hr, ho⟩

/-- Settles O20: each is a branch of its own condition, and links nothing. -/
theorem conditionalBranches : Obligations.ConditionalBranches := by
  unfold Obligations.ConditionalBranches
  intro s rs rt imm
  exact ⟨exec_branchOrJump (i := .beq rs rt imm) rfl s, exec_branchOrJump (i := .bne rs rt imm) rfl s,
    exec_branchOrJump (i := .blez rs imm) rfl s, exec_branchOrJump (i := .bgtz rs imm) rfl s,
    exec_branchOrJump (i := .bltz rs imm) rfl s, exec_branchOrJump (i := .bgez rs imm) rfl s⟩

/-- Settles O21: each links register 31, and branches by the register as it was. -/
theorem linkingBranches : Obligations.LinkingBranches := by
  unfold Obligations.LinkingBranches
  intro s rs imm
  exact ⟨exec_branchOrJump (i := .bltzal rs imm) rfl s, exec_branchOrJump (i := .bgezal rs imm) rfl s⟩

/-- Settles O22: the four results, with the index target in integers. -/
theorem jumps : Obligations.Jumps := by
  unfold Obligations.Jumps
  intro s rd rs index
  obtain ⟨t, ht, hj⟩ := exec_branchOrJump (i := .j index) rfl s
  obtain ⟨u, hu, hjal⟩ := exec_branchOrJump (i := .jal index) rfl s
  exact ⟨⟨t, _, ht, hj, toNat_jumpTarget s.pc index⟩, ⟨u, _, hu, hjal, toNat_jumpTarget s.pc index⟩,
    exec_branchOrJump (i := .jr rs) rfl s, exec_branchOrJump (i := .jalr rd rs) rfl s⟩

/-- Settles O24, from the two targets in integers. -/
theorem computedTargetsAreAligned : Obligations.ComputedTargetsAreAligned := by
  unfold Obligations.ComputedTargetsAreAligned
  intro pc imm index h
  constructor
  · rw [branchTarget_eq_ofInt, BitVec.toNat_ofInt]
    omega
  · rw [toNat_jumpTarget]
    omega

/-! What an instruction that commits does to the sequencer (R221). -/

/-- The two ends of an instruction that raises nothing: it is held for console input (R329), or it commits and leaves
`pending` as the pending target (R221). -/
def CommitsOrHolds (s t : State) (pending : Option Word) : Prop :=
  t.hold = some .consoleInput ∨ Sequenced s t pending

/-- Effects that leave the PC and the pending target alone, then the advance. -/
theorem commitsOrHolds_advance {s t : State} (hpc : t.pc = s.pc) (hd : t.delay = s.delay) :
    CommitsOrHolds s t.advance none :=
  .inr ⟨by rw [State.advance_pc, State.nextPc_eq, hpc, hd], rfl⟩

/-- Where no overflow is detected the result is committed (R304). -/
theorem commitsOrHolds_checked {s : State} {c : Bool} (h : detectOverflow c = none) (rd : Reg) (v : Word) :
    CommitsOrHolds s (s.raiseIf c .ov (s.result rd v)) none := by
  cases c with
  | false => exact commitsOrHolds_advance rfl rfl
  | true => cases h

/-- A load whose address passes its check is committed, or held for console input (R250, R329). -/
theorem commitsOrHolds_load {s : State} {w : Width} {rs : Reg} {imm : BitVec 16} (h : s.detectLoad w rs imm = none)
    (e : Extension) (rt : Reg) : CommitsOrHolds s (s.load w e rt (effAddr (s.reg rs) imm)) none := by
  have passes : ¬ s.loadFaults w (effAddr (s.reg rs) imm) = true := fun hf => by simp [State.detectLoad, hf] at h
  rw [State.load, State.raiseIf, if_neg passes]
  cases hm : s.memRead w (effAddr (s.reg rs) imm) with
  | none => exact .inl rfl
  | some read =>
    obtain ⟨v, t⟩ := read
    have hpc : t.pc = s.pc := by rw [State.memRead_state hm]
    have hdelay : t.delay = s.delay := by rw [State.memRead_state hm]
    exact commitsOrHolds_advance hpc hdelay

/-- A store whose address passes its check is committed, to memory or to a device (R250). -/
theorem commitsOrHolds_store {s : State} {w : Width} {rs : Reg} {imm : BitVec 16} (h : s.detectStore w rs imm = none)
    (rt : Reg) : CommitsOrHolds s (s.store w rt (effAddr (s.reg rs) imm)) none := by
  have passes : ¬ s.storeFaults w (effAddr (s.reg rs) imm) = true := fun hf => by simp [State.detectStore, hf] at h
  rw [State.store, State.raiseIf, if_neg passes, State.memWrite]
  split <;> exact commitsOrHolds_advance rfl rfl

/-- A division is committed, by zero too (R203). -/
theorem commitsOrHolds_divide {i : Instr} {rs rt : Reg} (hi : i = .div rs rt ∨ i = .divu rs rt) (s : State) :
    ∃ t, exec i s = .next t ∧ CommitsOrHolds s t none := by
  by_cases hb : s.reg rt = 0
  · obtain ⟨t, ht, hq, -⟩ := divisionByZeroDoesNotTrap s rs rt hb i hi
    exact ⟨t, ht, .inr hq⟩
  · rcases hi with rfl | rfl
    · obtain ⟨-, -, hq, -⟩ := divideSigned_spec s (s.reg rs) hb
      exact ⟨_, rfl, .inr hq⟩
    · obtain ⟨-, -, hq, -⟩ := divideUnsigned_spec s (s.reg rs) hb
      exact ⟨_, rfl, .inr hq⟩

/-- The coprocessor-0 register that a transfer raises nothing for is implemented (R307). -/
theorem exists_cp0Reg_of_detectCp0 {rd : Reg} (h : detectCp0 rd = none) : ∃ r, cp0Reg rd = some r := by
  cases hr : cp0Reg rd with
  | some r => exact ⟨r, rfl⟩
  | none => simp [detectCp0, hr] at h

/-- Every instruction but ERET that raises nothing commits or is held, and leaves pending what `pendingTarget` says:
a branch or a jump its own target, any other instruction none (R220, R221). -/
theorem exec_commitsOrHolds {i : Instr} {s : State} (hd : detect i s = none) (hi : i ≠ .eret) :
    ∃ t, exec i s = .next t ∧ CommitsOrHolds s t (pendingTarget i s) := by
  cases hb : i.isBranchOrJump with
  | true =>
    obtain ⟨t, ht, hr⟩ := exec_branchOrJump hb s
    obtain ⟨hq, -, -⟩ := hr.frame
    exact ⟨t, ht, .inr hq⟩
  | false =>
    cases i
    case add | sub | addi => exact ⟨_, rfl, commitsOrHolds_checked hd _ _⟩
    case lb | lbu | lh | lhu | lw => exact ⟨_, rfl, commitsOrHolds_load hd _ _⟩
    case sb | sh | sw => exact ⟨_, rfl, commitsOrHolds_store hd _⟩
    case div => exact commitsOrHolds_divide (.inl rfl) s
    case divu => exact commitsOrHolds_divide (.inr rfl) s
    case mfc0 rt rd =>
      obtain ⟨r, hr⟩ := exists_cp0Reg_of_detectCp0 hd
      exact ⟨_, exec_mfc0 hr rt s, commitsOrHolds_advance rfl rfl⟩
    case mtc0 rt rd =>
      obtain ⟨r, hr⟩ := exists_cp0Reg_of_detectCp0 hd
      obtain ⟨hq, -⟩ := writeCp0_advance_frame s r (s.reg rt)
      exact ⟨_, exec_mtc0 hr rt s, .inr hq⟩
    case syscall | brk => cases hd
    case eret => exact absurd rfl hi
    case beq | bne | blez | bgtz | bltz | bgez | bltzal | bgezal | j | jal | jr | jalr => cases hb
    all_goals exact ⟨_, rfl, commitsOrHolds_advance rfl rfl⟩

/-- Settles O23: what is not held commits, and leaves pending what `pendingTarget` says. -/
theorem commitAdvancesThePc : Obligations.CommitAdvancesThePc := by
  unfold Obligations.CommitAdvancesThePc
  intro i s t hd hi _ h ht
  obtain ⟨t', h', hg⟩ := exec_commitsOrHolds hd hi
  obtain rfl : t' = t := by simpa [h'] using h
  exact hg.resolve_left (by simp [ht])

/-! A branch, then its delay slot (R222). -/

theorem State.interrupt_eq_none {s : State} (h : s.intDeliverable = false) : s.interrupt = none := by
  simp [interrupt, h]

/-- No interrupt is delivered in a delay slot (R321). -/
theorem State.intDeliverable_of_delay {s : State} {target : Word} (h : s.delay = some target) :
    s.intDeliverable = false := by
  simp [intDeliverable, h]

/-- A step with no interrupt to deliver is the execution of the instruction at the PC. -/
theorem step_executes {s : State} {w : Word} {i : Instr} (hr : s.runState = .running)
    (hb : s.atBoundary.runState = .running) (hh : s.atBoundary.hold = none) (hs : s.atBoundary.stopCheck = none)
    (hf : s.atBoundary.fetch = some w) (hd : decode w = .operation i)
    (hn : s.atBoundary.begin.intDeliverable = false) : step s = exec i s.atBoundary.begin :=
  (step_runs hr hb hh hs).trans
    (State.runInstruction_operation hf hd (.inr (.inr (State.interrupt_eq_none hn))))

/-- The sampling of the lines touches nothing a target depends on. -/
theorem pendingTarget_begin (i : Instr) (s : State) : pendingTarget i s.begin = pendingTarget i s := rfl

/-- Only a branch or a jump leaves a target pending (R220). -/
theorem isBranchOrJump_of_pendingTarget {i : Instr} {s : State} {target : Word}
    (h : pendingTarget i s = some target) : i.isBranchOrJump = true := by
  cases i
  case beq | bne | blez | bgtz | bltz | bgez | bltzal | bgezal | j | jal | jr | jalr => rfl
  all_goals cases h

/-- Settles O25: the first step commits the branch, the outside leaves its pending target alone, no interrupt is
delivered while it is pending, and the slot's instruction commits to it. -/
theorem delaySlotRunsBeforeTheTarget : Obligations.DelaySlotRunsBeforeTheTarget := by
  unfold Obligations.DelaySlotRunsBeforeTheTarget
  intro s i w target b hs hb hh hc hf hd hn hp
  obtain ⟨t, ht, hr⟩ := exec_branchOrJump (isBranchOrJump_of_pendingTarget hp) b.begin
  obtain ⟨⟨hpc, hdelay⟩, ⟨hrun, -⟩, ⟨-, hhold, -⟩⟩ := hr.frame
  rw [pendingTarget_begin, hp] at hdelay
  have free : t.hold = none := hhold.trans hh
  obtain ⟨keepsPc, keepsDelay, -, -, -, -, keepsRun, -⟩ := keepsMachineState_atBoundary free
  have free' : t.atBoundary.hold = none := by
    obtain ⟨_, _, _, _, _, _, h⟩ := State.atBoundary_cases free
    rw [h]; exact free
  refine ⟨t, (step_executes hs hb hh hc hf hd hn).trans ht, hpc, hdelay, free, keepsPc, ?_⟩
  intro d v hc' hf' hd' he hnone
  have pending : t.atBoundary.begin.delay = some target := keepsDelay.trans hdelay
  obtain ⟨u, hu, hg⟩ := exec_commitsOrHolds hnone he
  have running : t.runState = .running := hrun.trans hb
  have slot := step_executes running (keepsRun.trans running) free' hc' hf' hd'
    (State.intDeliverable_of_delay pending)
  refine ⟨u, slot.trans hu, hu, fun hu' => ?_⟩
  obtain ⟨atTarget, -⟩ := hg.resolve_left (by simp [hu'])
  rw [atTarget, pending, Option.getD_some]

end Machine

end Sys2Proof
end

section
/-! SUPPORT. Loads and stores (spec 45 R250 to R259): the values loaded from RAM and ROM, the bytes stored to RAM, and
the address errors. -/

namespace Sys2Proof.Machine

/-! Alignment (R66). -/

theorem aligned_byte (a : Word) : aligned .byte a = true := Memory.aligned_iff.2 (Nat.mod_one _)

theorem aligned_eq_false_iff {w : Width} {a : Word} : aligned w a = false ↔ a.toNat % w.bytes ≠ 0 := by
  simp [aligned]

/-! Loads from RAM and ROM (R250 to R255). -/

/-- A load form whose check passes in RAM or ROM commits its extension of the bytes there, with whatever is true of
that value. -/
theorem exec_loadForm_storage {rt rs : Reg} {imm : BitVec 16} {i : Instr} {w : Width} {f : Word → Word}
    (h : LoadForm rt imm rs i w f) {s : State} (ha : aligned w (effAddr (s.reg rs) imm) = true)
    (hs : s.platform.isStorage (effAddr (s.reg rs) imm).toNat = true) {p : Word → Prop}
    (hp : p (f (s.mem.read (effAddr (s.reg rs) imm).toNat w))) :
    ∃ t v, exec i s = .next t ∧ RegisterResult s t rt v ∧ p v := by
  obtain ⟨e, hf, hexec⟩ := State.exec_loadForm h
  rw [← hf] at hp
  exact ⟨_, _, hexec s, State.load_storage ha hs ▸ result_spec s rt _, hp⟩

/-- A byte that was read is the low byte of the word the port gives (R62). -/
theorem Memory.setWidth_read_byte (m : Memory) (a : Nat) : (m.read a .byte).setWidth 8 = m.readByte a :=
  BitVec.setWidth_setWidth_of_le _ (by decide) |>.trans (BitVec.setWidth_eq _)

/-- A halfword that was read is the low half of the word the port gives (R62, R64). -/
theorem Memory.setWidth_read_half (m : Memory) (a : Nat) :
    (m.read a .half).setWidth 16 = m.readByte a ++ m.readByte (a + 1) :=
  BitVec.setWidth_setWidth_of_le _ (by decide) |>.trans (BitVec.setWidth_eq _)

/-- Settles O29: each form commits the bytes its port reads, extended as the form says. -/
theorem loadsFromStorage : Obligations.LoadsFromStorage := by
  unfold Obligations.LoadsFromStorage
  intro s rt rs imm a b hs
  have half : (s.mem.readByte a.toNat ++ s.mem.readByte (a.toNat + 1)).toNat = b 0 * 256 + b 1 := toNat_append_eq _ _
  refine ⟨exec_loadForm_storage .lb (aligned_byte a) hs ?_,
    exec_loadForm_storage .lbu (aligned_byte a) hs ?_,
    fun h2 => ⟨exec_loadForm_storage .lh (Memory.aligned_iff.2 h2) hs ?_,
      exec_loadForm_storage .lhu (Memory.aligned_iff.2 h2) hs ?_⟩,
    fun h4 => exec_loadForm_storage .lw (Memory.aligned_iff.2 h4) hs (s.mem.toNat_read_word a.toNat)⟩
  · rw [Memory.setWidth_read_byte, BitVec.toInt_signExtend_of_le (by decide)]
  · rw [Memory.setWidth_read_byte, BitVec.toNat_setWidth_of_le (by decide)]
    rfl
  · rw [Memory.setWidth_read_half, BitVec.toInt_signExtend_of_le (by decide), BitVec.toInt_eq_toNat_bmod, half]
  · rw [Memory.setWidth_read_half, BitVec.toNat_setWidth_of_le (by decide), half]

/-! Stores to RAM (R63, R250, R256 to R258). -/

/-- A store form is a store of its width. -/
theorem exec_storeForm {rt rs : Reg} {imm : BitVec 16} {i : Instr} {w : Width} (h : StoreForm rt imm rs i w)
    (s : State) : exec i s = .next (s.store w rt (effAddr (s.reg rs) imm)) := by
  cases h <;> rfl

/-- An aligned store to RAM puts the bytes of the register at its address and changes nothing else. -/
theorem store_ram_spec {s : State} (hm : s.mem.wf) {w : Width} {a : Word} (ha : aligned w a = true)
    (h : s.platform.kindAt a.toNat = some .ram) (rt : Reg) :
    StoreResult s (s.store w rt a) a.toNat (w.split (s.reg rt)) := by
  have read := Memory.readByte_write hm w (s.reg rt) (Memory.aligned_in_space ha)
  rw [State.store_ram ha h]
  refine ⟨fun j hj => ?_, fun k hk => ?_, ⟨s.nextPc_eq, rfl⟩, fun _ => rfl, ⟨rfl, rfl⟩, ⟨rfl, rfl, rfl, rfl⟩,
    ⟨rfl, rfl⟩, ⟨rfl, rfl, rfl⟩, rfl, rfl, rfl, rfl, rfl, rfl, rfl, rfl, rfl, rfl⟩
  · rw [read, dif_pos (by omega)]
    simp
  · rw [read, dif_neg (by omega)]

/-- Settles O30: each form is a store of its width, whose bytes are the low bytes of the register. -/
theorem storesToRam : Obligations.StoresToRam := by
  unfold Obligations.StoresToRam
  intro s rt rs imm hm a v hk
  exact ⟨⟨_, exec_storeForm .sb s, store_ram_spec hm (aligned_byte a) hk rt⟩,
    fun h2 => ⟨_, exec_storeForm .sh s, store_ram_spec hm (Memory.aligned_iff.2 h2) hk rt⟩,
    fun h4 => ⟨_, exec_storeForm .sw s, store_ram_spec hm (Memory.aligned_iff.2 h4) hk rt⟩⟩

/-! Address errors (R67, R68, R259, R302, R303). -/

/-- A load form whose check fails takes AdEL with the effective address. -/
theorem exec_loadForm_traps {rt rs : Reg} {imm : BitVec 16} {i : Instr} {w : Width} {f : Word → Word}
    (h : LoadForm rt imm rs i w f) {s : State} (hc : CanTrap s)
    (hf : (effAddr (s.reg rs) imm).toNat % w.bytes ≠ 0 ∨
      s.platform.readable (effAddr (s.reg rs) imm).toNat = false) :
    ∃ t, exec i s = .next t ∧ TrapTaken s t (.adel (effAddr (s.reg rs) imm)) := by
  obtain ⟨enabled, installed⟩ := hc
  obtain ⟨e, -, hexec⟩ := State.exec_loadForm h
  refine ⟨_, hexec s, ?_⟩
  rw [State.load_faults (hf.imp_left aligned_eq_false_iff.2)]
  exact raise_taken (.inr enabled) installed (.inl nofun)

/-- A store form whose check fails takes AdES with the effective address. -/
theorem exec_storeForm_traps {rt rs : Reg} {imm : BitVec 16} {i : Instr} {w : Width} (h : StoreForm rt imm rs i w)
    {s : State} (hc : CanTrap s)
    (hf : (effAddr (s.reg rs) imm).toNat % w.bytes ≠ 0 ∨
      s.platform.writable (effAddr (s.reg rs) imm).toNat = false) :
    ∃ t, exec i s = .next t ∧ TrapTaken s t (.ades (effAddr (s.reg rs) imm)) := by
  obtain ⟨enabled, installed⟩ := hc
  refine ⟨_, exec_storeForm h s, ?_⟩
  rw [State.store_faults (hf.imp_left aligned_eq_false_iff.2)]
  exact raise_taken (.inr enabled) installed (.inl nofun)

/-- No region and the console-output region fail the check of a read (R62). -/
theorem readable_eq_false {p : Platform} {a : Nat} (h : p.kindAt a = none ∨ p.kindAt a = some .consoleOut) :
    p.readable a = false := by
  rcases h with h | h <;> simp [Platform.readable, Platform.isStorage, h]

/-- No region, ROM and the console-input region fail the check of a write (R63). -/
theorem writable_eq_false {p : Platform} {a : Nat}
    (h : p.kindAt a = none ∨ p.kindAt a = some .rom ∨ p.kindAt a = some .consoleIn) : p.writable a = false := by
  rcases h with h | h | h <;> simp [Platform.writable, h]

/-- Settles O31: each form's check fails, by the alignment of its width or by the region. -/
theorem badAccessesTakeAddressErrors : Obligations.BadAccessesTakeAddressErrors := by
  unfold Obligations.BadAccessesTakeAddressErrors
  intro s rt rs imm hc a noLoad noStore
  have odd : a.toNat % 2 = 1 → a.toNat % 2 ≠ 0 := fun h => by omega
  refine ⟨?_, ?_, fun h => exec_loadForm_traps .lw hc (h.imp_right readable_eq_false),
    fun h => exec_storeForm_traps .sb hc (.inr (writable_eq_false h)),
    fun h => exec_storeForm_traps .sh hc (h.imp odd writable_eq_false),
    fun h => exec_storeForm_traps .sw hc (h.imp_right writable_eq_false)⟩
  · rintro h i (rfl | rfl)
    · exact exec_loadForm_traps .lb hc (.inr (readable_eq_false h))
    · exact exec_loadForm_traps .lbu hc (.inr (readable_eq_false h))
  · rintro h i (rfl | rfl)
    · exact exec_loadForm_traps .lh hc (h.imp odd readable_eq_false)
    · exact exec_loadForm_traps .lhu hc (h.imp odd readable_eq_false)

end Sys2Proof.Machine
end

section
/-! SUPPORT. BREAK, SYSCALL with no dispatcher and the words of no instruction, which each raise one exception, and
ERET (spec 46 R271, R272, R276, R277). -/

namespace Sys2Proof.Machine

/-- With exceptions enabled and a handler installed, an exception that no service takes is taken (R311, R312). -/
theorem CanTrap.raise {s : State} (h : CanTrap s) {k : ExcKind}
    (hs : k ≠ .sys ∨ s.platform.syscallHosted = false) : TrapTaken s (s.raise k) k := by
  obtain ⟨enabled, installed⟩ := h
  exact raise_taken (.inr enabled) installed hs

/-- Settles O41: either instruction raises its exception without a look at its code field, and the exception is
taken. -/
theorem breakAndSyscallTrap : Obligations.BreakAndSyscallTrap := by
  unfold Obligations.BreakAndSyscallTrap
  intro s code hc
  exact ⟨⟨s.raise .bp, rfl, hc.raise (.inl nofun)⟩,
    fun unhosted => ⟨s.raise .sys, rfl, hc.raise (.inr unhosted)⟩⟩

/-- Settles O51: a word that no row admits decodes to the reserved instruction, whose exception the step raises without
a look at the interrupt. -/
theorem reservedWordTraps : Obligations.ReservedWordTraps := by
  unfold Obligations.ReservedWordTraps
  intro s w b hr hb hh hs hf hw
  have reserved : decode w = .reservedInstruction := (reservedWordsMatchNoRow w).2 hw
  have fetched : b.begin.fetch = some w := hf
  exact ⟨b.begin.raise .ri, (step_runs hr hb hh hs).trans (State.runInstruction_reserved fetched reserved),
    raise_exceptionRaised nofun (.inl nofun)⟩

/-- Settles O40: the next state is the return from exception, which writes the PC, EXL and the pending target. -/
theorem exceptionReturn : Obligations.ExceptionReturn := by
  unfold Obligations.ExceptionReturn
  intro s
  exact ⟨s.exceptionReturn, rfl, rfl, rfl, rfl, rfl, rfl, rfl, rfl, rfl, s.exceptionReturn_reg, ⟨rfl, rfl⟩,
    fun _ => rfl, ⟨rfl, rfl⟩, ⟨rfl, rfl, rfl⟩, rfl, rfl, rfl, rfl, rfl, rfl, rfl, rfl, rfl, rfl⟩

end Sys2Proof.Machine
end

section
/-! SUPPORT. Exceptions (spec 60 R300 to R315): their codes and their priority, detection before commit, trap entry,
and the fatal stop. -/

namespace Sys2Proof.Machine

/-! Codes and priority (R301, R310). -/

/-- Settles O45, kind by kind. -/
theorem exceptionCodes : Obligations.ExceptionCodes := by
  unfold Obligations.ExceptionCodes
  intro k a
  refine ⟨?_, ?_, ?_, ?_, ?_, ?_, ?_, ?_⟩
  case refine_8 => cases k <;> simp [ExcKind.code]
  all_goals rintro rfl; rfl

theorem arbitrate_ne_none {ks : List ExcKind} (h : ks ≠ []) : ∃ k, arbitrate ks = some k := by
  cases ks with
  | nil => exact absurd rfl h
  | cons k rest =>
    simp only [arbitrate]
    split
    · exact ⟨_, rfl⟩
    · split <;> exact ⟨_, rfl⟩

/-- The event taken is one of the candidates, and none of them outranks it (R310). -/
theorem arbitrate_mem_le {ks : List ExcKind} {k : ExcKind} (h : arbitrate ks = some k) :
    k ∈ ks ∧ ∀ x ∈ ks, k.rank ≤ x.rank := by
  induction ks generalizing k with
  | nil => cases h
  | cons j rest ih =>
    simp only [arbitrate] at h
    split at h
    case h_1 hr =>
      obtain rfl : j = k := Option.some.inj h
      have : rest = [] := by
        by_contra hne
        obtain ⟨x, hx⟩ := arbitrate_ne_none hne
        simp [hx] at hr
      simp [this]
    case h_2 l hr =>
      obtain ⟨hmem, hle⟩ := ih hr
      split at h
      case isTrue hj =>
        obtain rfl : j = k := Option.some.inj h
        exact ⟨List.mem_cons_self .., List.forall_mem_cons.2 ⟨le_rfl, fun x hx => hj.trans (hle x hx)⟩⟩
      case isFalse hj =>
        obtain rfl : l = k := Option.some.inj h
        exact ⟨List.mem_cons_of_mem _ hmem, List.forall_mem_cons.2 ⟨by omega, hle⟩⟩

/-! The ranks in words (R310). -/

theorem ExcKind.rank_le_zero_iff {k : ExcKind} : k.rank ≤ 0 ↔ ∃ a, k = .adel a ∨ k = .ades a := by
  cases k <;> simp [rank]

theorem ExcKind.rank_le_one_iff {k : ExcKind} : k.rank ≤ 1 ↔ k = .ov ∨ ∃ a, k = .adel a ∨ k = .ades a := by
  cases k <;> simp [rank]

theorem ExcKind.three_le_rank_iff {k : ExcKind} : 3 ≤ k.rank ↔ k = .int := by
  cases k <;> simp [rank]

/-- Settles O49: the event taken has the least rank of the candidates, and the ranks say which kinds that can be. -/
theorem priorityOfEvents : Obligations.PriorityOfEvents := by
  unfold Obligations.PriorityOfEvents
  intro ks
  refine ⟨arbitrate_ne_none, fun k h => ?_⟩
  obtain ⟨hmem, hle⟩ := arbitrate_mem_le h
  refine ⟨hmem, ?_, fun hov => ExcKind.rank_le_one_iff.1 (hle _ hov), ?_⟩
  · rintro ⟨a, ha | ha⟩
    · exact ExcKind.rank_le_zero_iff.1 (hle _ ha)
    · exact ExcKind.rank_le_zero_iff.1 (hle _ ha)
  · rintro rfl x hx
    exact ExcKind.three_le_rank_iff.1 (hle x hx)

/-! Detection before commit (R309). -/

/-- The exception that is detected from the condition `c` is the one `raiseIf` raises. -/
theorem raiseIf_detected {s t : State} {c : Bool} {k j : ExcKind} (h : (if c then some j else none) = some k) :
    s.raiseIf c j t = s.raise k := by
  cases c with
  | false => cases h
  | true => cases h; rfl

/-- A transfer of coprocessor 0 that raises something names no implemented register, and raises `ri` (R307). -/
theorem detectCp0_eq_some {rd : Reg} {k : ExcKind} (h : detectCp0 rd = some k) : cp0Reg rd = none ∧ k = .ri := by
  cases hr : cp0Reg rd with
  | some r => simp [detectCp0, hr] at h
  | none => simpa [detectCp0, hr, eq_comm] using h

/-- An instruction whose exception is detected raises it and does nothing else (R309). -/
theorem exec_detected {i : Instr} {s : State} {k : ExcKind} (h : detect i s = some k) :
    exec i s = .next (s.raise k) := by
  cases i
  case add | sub | addi => exact congrArg Host.Outcome.next (raiseIf_detected h)
  case lb | lbu | lh | lhu | lw => exact congrArg Host.Outcome.next (raiseIf_detected h)
  case sb | sh | sw => exact congrArg Host.Outcome.next (raiseIf_detected h)
  case syscall | brk => cases h; rfl
  case mfc0 rt rd =>
    obtain ⟨hr, rfl⟩ := detectCp0_eq_some h
    simp [exec, execMfc0, hr]
  case mtc0 rt rd =>
    obtain ⟨hr, rfl⟩ := detectCp0_eq_some h
    simp [exec, execMtc0, hr]
  all_goals cases h

/-- What every instruction but MTC0 and ERET leaves alone when it raises nothing: the run state, the latches and
coprocessor 0. -/
def Uneventful (s t : State) : Prop := KeepsRun s t ∧ KeepsCp0 s t

theorem BranchResult.uneventful {i : Instr} {s t : State} (h : BranchResult i s t) : Uneventful s t := by
  unfold BranchResult at h
  split at h
  · obtain ⟨-, -, -, hc, -, -, hr, -⟩ := h
    exact ⟨hr, hc⟩
  · obtain ⟨-, -, -, hc, -, -, hr, -⟩ := h
    exact ⟨hr, hc⟩

theorem RegisterResult.uneventful {s t : State} {rd : Reg} {v : Word} (h : RegisterResult s t rd v) :
    Uneventful s t := by
  obtain ⟨-, -, -, hc, -, -, hr, -⟩ := h
  exact ⟨hr, hc⟩

theorem HiLoResult.uneventful {s t : State} {hi lo : Word} (h : HiLoResult s t hi lo) : Uneventful s t := by
  obtain ⟨-, -, -, -, hc, -, -, hr, -⟩ := h
  exact ⟨hr, hc⟩

/-- Where the condition does not hold, `raiseIf` is the commit. -/
theorem raiseIf_undetected {s t : State} {c : Bool} {j : ExcKind} (h : (if c then some j else none) = none) :
    s.raiseIf c j t = t := by
  cases c with
  | false => rfl
  | true => cases h

theorem uneventful_load {s : State} {w : Width} {rs : Reg} {imm : BitVec 16} (h : s.detectLoad w rs imm = none)
    (e : Extension) (rt : Reg) : Uneventful s (s.load w e rt (effAddr (s.reg rs) imm)) := by
  rw [State.load, raiseIf_undetected h]
  cases hm : s.memRead w (effAddr (s.reg rs) imm) with
  | none => exact ⟨⟨rfl, rfl, rfl⟩, rfl, rfl, rfl, rfl⟩
  | some read =>
    obtain ⟨v, t⟩ := read
    have kept : Uneventful s t := by
      rw [State.memRead_state hm]
      exact ⟨⟨rfl, rfl, rfl⟩, rfl, rfl, rfl, rfl⟩
    exact kept

theorem uneventful_store {s : State} {w : Width} {rs : Reg} {imm : BitVec 16} (h : s.detectStore w rs imm = none)
    (rt : Reg) : Uneventful s (s.store w rt (effAddr (s.reg rs) imm)) := by
  rw [State.store, raiseIf_undetected h, State.memWrite]
  split <;> exact ⟨⟨rfl, rfl, rfl⟩, rfl, rfl, rfl, rfl⟩

theorem uneventful_divide {i : Instr} {rs rt : Reg} (hi : i = .div rs rt ∨ i = .divu rs rt) (s : State) :
    ∃ t, exec i s = .next t ∧ Uneventful s t := by
  by_cases hb : s.reg rt = 0
  · obtain ⟨t, ht, -, -, hc, -, -, hr, -⟩ := divisionByZeroDoesNotTrap s rs rt hb i hi
    exact ⟨t, ht, hr, hc⟩
  · rcases hi with rfl | rfl
    · exact ⟨_, rfl, (divideSigned_spec s (s.reg rs) hb).uneventful⟩
    · exact ⟨_, rfl, (divideUnsigned_spec s (s.reg rs) hb).uneventful⟩

/-- Every instruction but MTC0 and ERET that raises nothing is uneventful (R309). -/
theorem exec_uneventful {i : Instr} {s : State} (h : detect i s = none) (hm : ∀ rt rd, i ≠ .mtc0 rt rd)
    (he : i ≠ .eret) : ∃ t, exec i s = .next t ∧ Uneventful s t := by
  cases hb : i.isBranchOrJump with
  | true =>
    obtain ⟨t, ht, hr⟩ := exec_branchOrJump hb s
    exact ⟨t, ht, hr.uneventful⟩
  | false =>
    cases i
    case add | sub | addi => exact ⟨_, rfl, (raiseIf_undetected h) ▸ (result_spec s _ _).uneventful⟩
    case lb | lbu | lh | lhu | lw => exact ⟨_, rfl, uneventful_load h _ _⟩
    case sb | sh | sw => exact ⟨_, rfl, uneventful_store h _⟩
    case mult | multu | mthi | mtlo => exact ⟨_, rfl, (setHiLo_spec s _ _).uneventful⟩
    case div => exact uneventful_divide (.inl rfl) s
    case divu => exact uneventful_divide (.inr rfl) s
    case mfc0 rt rd =>
      obtain ⟨r, hr⟩ := exists_cp0Reg_of_detectCp0 h
      exact ⟨_, exec_mfc0 hr rt s, (result_spec s rt _).uneventful⟩
    case mtc0 rt rd => exact absurd rfl (hm rt rd)
    case eret => exact absurd rfl he
    case syscall | brk => cases h
    case beq | bne | blez | bgtz | bltz | bgez | bltzal | bgezal | j | jal | jr | jalr => cases hb
    all_goals exact ⟨_, rfl, (result_spec s _ _).uneventful⟩

/-- An instruction that raises nothing leaves the run state and the latches alone, and coprocessor 0 too unless it is
MTC0 or ERET (R309). -/
theorem exec_undetected {i : Instr} {s : State} (h : detect i s = none) :
    ∃ t, exec i s = .next t ∧ KeepsRun s t ∧ ((∀ rt rd, i ≠ .mtc0 rt rd) → i ≠ .eret → KeepsCp0 s t) := by
  cases i
  case mtc0 rt rd =>
    obtain ⟨r, hr⟩ := exists_cp0Reg_of_detectCp0 h
    obtain ⟨-, -, -, -, -, hrun, -⟩ := writeCp0_advance_frame s r (s.reg rt)
    exact ⟨_, exec_mtc0 hr rt s, hrun, fun hm => absurd rfl (hm rt rd)⟩
  case eret => exact ⟨_, rfl, ⟨rfl, rfl, rfl⟩, fun _ he => absurd rfl he⟩
  all_goals
    obtain ⟨t, ht, hrun, hcp0⟩ := exec_uneventful h nofun nofun
    exact ⟨t, ht, hrun, fun _ _ => hcp0⟩

theorem ne_int_of_detect {i : Instr} {s : State} {k : ExcKind} (h : detect i s = some k) : k ≠ .int := by
  rintro rfl
  exact detect_ne_int i s h

/-- Settles O46: the two answers of detection. -/
theorem detectionDecidesTheInstruction : Obligations.DetectionDecidesTheInstruction := by
  unfold Obligations.DetectionDecidesTheInstruction
  refine fun i s => ⟨fun k h => ⟨exec_detected h, raise_exceptionRaised (ne_int_of_detect h)⟩, fun h => ?_⟩
  obtain ⟨t, ht, ⟨hrun, hevent, hstop⟩, hcp0⟩ := exec_undetected h
  exact ⟨t, ht, hevent, hstop, hrun, hcp0⟩

/-- Settles O48: the exception detected is raised, and with EXL = 1 that is the fatal stop. -/
theorem maskedExceptionIsFatal : Obligations.MaskedExceptionIsFatal := by
  unfold Obligations.MaskedExceptionIsFatal
  intro i s k masked h
  obtain ⟨fatal, -⟩ := raise_exceptionRaised (s := s) (ne_int_of_detect h) (.inr (.inr masked))
  exact ⟨_, exec_detected h, fatal masked⟩

/-! Trap entry (R312, R313). -/

/-- A handler is installed where the vector is word-aligned in RAM or ROM (R313). -/
theorem handlerInstalled_iff_kindAt {p : Platform} : p.handlerInstalled = true ↔ p.excVector.toNat % 4 = 0 ∧
    (p.kindAt p.excVector.toNat = some .ram ∨ p.kindAt p.excVector.toNat = some .rom) := by
  rw [State.handlerInstalled_iff, State.isStorage_iff]

/-- The address an address error records, and BadVAddr as it was for every other kind (R302, R303, R312). -/
theorem ExcKind.getD_badAddr (k : ExcKind) (v : Word) :
    (∀ a, k = .adel a ∨ k = .ades a → k.badAddr.getD v = a) ∧
    ((∀ a, k ≠ .adel a ∧ k ≠ .ades a) → k.badAddr.getD v = v) := by
  cases k <;> simp [badAddr]

/-- Trap entry, but for where it goes: the PC, the run state and the stop reason (R312, R313). -/
theorem enter_cases (s : State) (ev : Event) : ∃ pc run stop, s.enter ev = { s with
    cause := { s.cause with excCode := ev.kind.code }
    epc := s.pc
    badVAddr := ev.kind.badAddr.getD s.badVAddr
    status := { s.status with exl := true }
    delay := none
    pc := pc
    runState := run
    stopReason := stop } := by
  cases hi : s.platform.handlerInstalled with
  | true => exact ⟨_, _, _, enter_installed hi ev⟩
  | false => exact ⟨_, _, _, enter_notInstalled hi ev⟩

/-- What trap entry records, whether or not a handler is installed (R312, R313). -/
theorem enter_recorded (s : State) (k : ExcKind) :
    TrapRecorded s ({ s with lastEvent := some ⟨k, s.pc⟩ }.enter ⟨k, s.pc⟩) k := by
  obtain ⟨hbad, hkept⟩ := k.getD_badAddr s.badVAddr
  obtain ⟨_, _, _, entered⟩ := enter_cases { s with lastEvent := some ⟨k, s.pc⟩ } ⟨k, s.pc⟩
  rw [entered]
  exact ⟨rfl, rfl, rfl, hbad, hkept, rfl, rfl, rfl, rfl, rfl, fun _ => rfl, ⟨rfl, rfl⟩, fun _ => rfl, ⟨rfl, rfl⟩,
    rfl, rfl, rfl, rfl, rfl, rfl, rfl, rfl, rfl, rfl⟩

/-- An exception that is neither masked nor taken by a service is recorded (R311, R312). -/
theorem raise_recorded {s : State} {k : ExcKind} (h : k = .int ∨ s.status.exl = false)
    (hs : k ≠ .sys ∨ s.platform.syscallHosted = false) : TrapRecorded s (s.raise k) k :=
  raise_enter h hs ▸ enter_recorded s k

/-- Settles O47: what entry records, where it sends control by the handler, and that an exception raised is entry. -/
theorem trapEntry : Obligations.TrapEntry := by
  unfold Obligations.TrapEntry
  intro s k t
  simp only [← handlerInstalled_iff_kindAt]
  refine ⟨enter_recorded s k, fun hi => ?_, fun hi => ?_, raise_enter⟩
  · have entered := enter_installed (s := { s with lastEvent := some ⟨k, s.pc⟩ }) hi ⟨k, s.pc⟩
    simp only [t, entered, and_self]
  · have entered := enter_notInstalled (s := { s with lastEvent := some ⟨k, s.pc⟩ }) (by simpa using hi) ⟨k, s.pc⟩
    simp only [t, entered, and_self]

end Sys2Proof.Machine
end

section
/-! SUPPORT. A step around its instruction (spec 60 R300, R319 to R322, R331): the stops before it, the sampling of the
lines, the delivery of an interrupt, and the going on of a held step. -/

namespace Sys2Proof.Machine

/-! The stops before a step (R331). -/

/-- A stop changes only what the host sees of stops, and reports itself. -/
theorem stopped_reported (s : State) (r : Report) : StopReported s (s.stopped r) r := by
  cases r <;>
    exact ⟨rfl, ⟨rfl, rfl, fun _ => rfl, ⟨rfl, rfl⟩, ⟨rfl, rfl, rfl, rfl⟩, rfl, rfl, rfl, rfl⟩, ⟨rfl, rfl⟩, rfl, rfl,
      rfl, rfl, rfl, rfl, rfl⟩

/-- A requested pause is the stop, breakpoint or not (R331). -/
theorem stopCheck_paused {s : State} (h : s.pauseRequest = true) : s.stopCheck = some .paused := by
  simp [State.stopCheck, h]

theorem stopCheck_breakpoint {s : State} (hp : s.pauseRequest = false) (hb : s.pc ∈ s.breakpoints)
    (he : s.exempt ≠ some s.pc) : s.stopCheck = some (.breakpointHit s.pc) := by
  simp [State.stopCheck, hp, hb, he]

/-- With no pause requested, nothing stops a step at its exempt address (R331). -/
theorem stopCheck_exempt {s : State} (hp : s.pauseRequest = false) (he : s.exempt = some s.pc) :
    s.stopCheck = none := by
  simp [State.stopCheck, hp, he]

/-- Settles O55: a halted machine faults, and either stop leaves the state as it was but for the report. -/
theorem stopsBeforeEffects : Obligations.StopsBeforeEffects := by
  unfold Obligations.StopsBeforeEffects
  refine fun s => ⟨step_halted, fun hr hb hh => ⟨fun hp => ?_, fun hp hpc he => ?_⟩⟩
  · exact ⟨_, step_stopped hr hb hh (stopCheck_paused hp), stopped_reported _ _, rfl, rfl⟩
  · exact ⟨_, step_stopped hr hb hh (stopCheck_breakpoint hp hpc he), stopped_reported _ _,
      stopCheck_exempt hp rfl⟩

/-! The lines (R320). -/

/-- Settles O54, from IP as the levels of the lines over IP[1:0]. -/
theorem linesAreSampled : Obligations.LinesAreSampled := by
  unfold Obligations.LinesAreSampled
  refine fun s => ⟨?_, rfl⟩
  simp only [State.begin_cause, Cause.sample, toNat_append_eq, toNat_extractLsb'_eq]
  omega

/-! The instruction or the interrupt (R308, R321). -/

/-- Settles O52: the step runs from the sampled state, where the instruction's own exception comes before the
interrupt, and the interrupt before the instruction. -/
theorem stepRunsTheDecodedInstruction : Obligations.StepRunsTheDecodedInstruction := by
  unfold Obligations.StepRunsTheDecodedInstruction
  intro s w i hr hb hh hs hf hd
  rw [step_runs hr hb hh hs]
  exact ⟨fun hn => State.runInstruction_operation hf hd (hn.imp_right fun hi => .inr (State.interrupt_eq_none hi)),
    fun hn hi => State.runInstruction_interrupt hf hd hn hi⟩

/-- Two words have a bit in common exactly when their conjunction is not zero. -/
theorem and_ne_zero_iff {m : Nat} (x y : BitVec m) :
    x &&& y ≠ 0#m ↔ ∃ n, n < m ∧ x.getLsbD n = true ∧ y.getLsbD n = true := by
  rw [Ne, BitVec.eq_of_getLsbD_eq_iff]
  simp

/-- `int_deliverable()` condition by condition (R321). -/
theorem intDeliverable_iff (s : State) : s.intDeliverable = true ↔
    s.status.ie = true ∧ s.status.exl = false ∧ s.delay = none ∧
      ∃ n, n < 8 ∧ s.cause.ip.getLsbD n = true ∧ s.status.im.getLsbD n = true := by
  rw [← and_ne_zero_iff]
  simp only [State.intDeliverable, Bool.and_eq_true, Bool.not_eq_true', bne_iff_ne, Option.isNone_iff_eq_none]
  tauto

/-- Settles O53: the four conditions decide the delivery, and the interrupt is taken or halts by the handler. -/
theorem interruptDelivery : Obligations.InterruptDelivery := by
  unfold Obligations.InterruptDelivery
  intro s w i b hr hb hh hs hf hd hn
  obtain ⟨runs, interrupted⟩ := stepRunsTheDecodedInstruction s w i hr hb hh hs hf hd
  refine ⟨fun hie hexl hdelay hbit => ?_, fun masked => runs (.inr (Bool.eq_false_iff.2 fun hi => ?_))⟩
  · exact ⟨_, interrupted hn ((intDeliverable_iff b.begin).2 ⟨hie, hexl, hdelay, hbit⟩),
      raise_recorded (.inl rfl) (.inl nofun),
      fun installed => raise_taken (s := b.begin) (.inl rfl) installed (.inl nofun),
      fun missing => raise_noHandler (s := b.begin) (.inl rfl) missing (.inl nofun)⟩
  · obtain ⟨hie, hexl, hdelay, n, hn8, hip, him⟩ := (intDeliverable_iff b.begin).1 hi
    rcases masked with h | h | h | h
    · exact absurd (hie.symm.trans h) nofun
    · exact absurd (hexl.symm.trans h) nofun
    · exact h hdelay
    · exact absurd (him.symm.trans (h n hn8 hip)) nofun

/-! A held step (R300, R329; log 6). -/

/-- The boundary at which the outside does one thing. -/
theorem State.atBoundary_of_single {s : State} {e : OutsideEvent} {rest : List (List OutsideEvent)}
    (h : s.agenda = [e] :: rest) : s.atBoundary = { s with agenda := rest }.outside e := by
  simp [atBoundary, h]

/-- A held step goes on with its instruction, without a look at stops or interrupts. -/
theorem step_resumes {s b : State} (hr : s.runState = .running) (hab : s.atBoundary = b)
    (hb : b.runState = .running) {x : Hold} (hh : b.hold = some x) {w : Word} (hf : b.fetch = some w) {i : Instr}
    (hd : decode w = .operation i) : step s = exec i { b with hold := none } := by
  subst hab
  exact (step_held hr hb (by simp [hh])).trans (State.runInstruction_operation hf hd (.inr (.inl rfl)))

end Sys2Proof.Machine
end

section
/-! SUPPORT. The console devices (spec 20 R73, spec 45 R260, spec 60 R328, R329): the loads of the console-input words,
the console-output stores, and the end of a held read. -/

namespace Sys2Proof.Machine

/-! Which register a console-input address names (R328). -/

theorem wordIndex_status {r : Region} {a : Nat} (h : a < r.base.toNat + 4) : r.wordIndex a = 0 := by
  unfold Region.wordIndex
  omega

theorem wordIndex_data {r : Region} {a : Nat} (h1 : r.base.toNat + 4 ≤ a) (h2 : a < r.base.toNat + 8) :
    r.wordIndex a = 1 := by
  unfold Region.wordIndex
  omega

theorem wordIndex_other {r : Region} {a : Nat} (h : r.base.toNat + 8 ≤ a) : ∃ n, r.wordIndex a = n + 2 :=
  ⟨r.wordIndex a - 2, by unfold Region.wordIndex; omega⟩

/-! The read actions of the device (R328, R329). -/

theorem consoleRead_status (s : State) : s.consoleRead 0 = some (if s.consoleIn = [] then 0 else 1, s) := by
  cases h : s.consoleIn <;> simp [State.consoleRead, boolWord, h]

theorem consoleRead_data {s : State} {b : Byte} {rest : List Byte} (h : s.consoleIn = b :: rest) :
    s.consoleRead 1 = some (b.setWidth 32, { s with consoleIn := rest }) := by
  simp [State.consoleRead, h]

theorem consoleRead_marker {s : State} (h : s.consoleIn = []) (hm : s.platform.inputMode = .marker) :
    s.consoleRead 1 = some (0xFFFFFFFF, s) := by
  simp [State.consoleRead, h, hm]

theorem consoleRead_block {s : State} (h : s.consoleIn = []) (hm : s.platform.inputMode = .block) :
    s.consoleRead 1 = none := by
  simp [State.consoleRead, h, hm]

theorem consoleRead_other (s : State) (n : Nat) :
    s.consoleRead (n + 2) = some (Config.deviceWord s.freeCount, { s with freeCount := s.freeCount + 1 }) := rfl

/-! The loads (R260, R328, R329). -/

/-- A load form that passes its check at a console-input address commits its extension of the word the device gives,
over what the device did; where the device gives none the step is held. -/
theorem exec_loadForm_console {rt rs : Reg} {imm : BitVec 16} {i : Instr} {w : Width} {f : Word → Word}
    (h : LoadForm rt imm rs i w f) {s : State} {r : Region}
    (hr : s.platform.regionAt (effAddr (s.reg rs) imm).toNat = some r) (hk : r.kind = .consoleIn)
    (ha : aligned w (effAddr (s.reg rs) imm) = true) :
    (∀ v u, s.consoleRead (r.wordIndex (effAddr (s.reg rs) imm).toNat) = some (v, u) →
      exec i s = .next (u.result rt (f v))) ∧
    (s.consoleRead (r.wordIndex (effAddr (s.reg rs) imm).toNat) = none →
      exec i s = .next (s.holdFor .consoleInput)) := by
  obtain ⟨e, hf, hexec⟩ := State.exec_loadForm h
  obtain ⟨held, reads⟩ := State.load_console (e := e) (rt := rt) ha hr hk
  exact ⟨fun v u hv => by rw [hexec, reads v u hv, hf], fun hn => by rw [hexec, held hn]⟩

/-- Settles O32: the address names the data or the status register, whose read action gives the word. -/
theorem consoleInputLoads : Obligations.ConsoleInputLoads := by
  unfold Obligations.ConsoleInputLoads
  intro s rt rs imm r b rest i w f a hi hr hk ha
  obtain ⟨commits, -⟩ := exec_loadForm_console hi hr hk ha
  refine ⟨fun h1 h2 hin => ?_, fun h1 => ?_⟩
  · rw [wordIndex_data h1 h2] at commits
    obtain ⟨hw, hq, hl, hc, hm, ⟨hcin, hcout⟩, hrun, hout⟩ :=
      result_spec { s with consoleIn := rest } rt (f (b.setWidth 32))
    exact ⟨_, commits _ _ (consoleRead_data hin), hw, hcin, hcout, hq, hl, hc, hm, hrun, hout⟩
  · rw [wordIndex_status h1] at commits
    exact ⟨_, commits _ _ (consoleRead_status s), result_spec s rt _⟩

/-- Settles O33: the two modes of the empty data register. -/
theorem emptyConsoleInput : Obligations.EmptyConsoleInput := by
  unfold Obligations.EmptyConsoleInput
  intro s rt rs imm r i w f a hi hr hk ha h1 h2 hin
  have actions := exec_loadForm_console hi hr hk ha
  rw [wordIndex_data h1 h2] at actions
  obtain ⟨commits, held⟩ := actions
  exact ⟨fun hm => ⟨_, commits _ _ (consoleRead_marker hin hm), result_spec s rt _⟩,
    fun hm => held (consoleRead_block hin hm)⟩

/-- Settles O35: the device counts one free value more, and the load commits it. -/
theorem otherDeviceWordsGiveFreeValues : Obligations.OtherDeviceWordsGiveFreeValues := by
  unfold Obligations.OtherDeviceWordsGiveFreeValues
  intro s rt rs imm r i w f a hi hr hk ha h1
  obtain ⟨commits, -⟩ := exec_loadForm_console hi hr hk ha
  obtain ⟨n, hn⟩ := wordIndex_other h1
  rw [hn] at commits
  obtain ⟨hw, hq, hl, hc, hm, hcon, hrun, -⟩ :=
    result_spec { s with freeCount := s.freeCount + 1 } rt (f (Config.deviceWord s.freeCount))
  exact ⟨_, _, commits _ _ (consoleRead_other s n), hw, hcon, hq, hl, hc, hm, hrun,
    ⟨rfl, rfl, rfl, rfl, rfl, rfl, rfl, rfl⟩, rfl⟩

/-! The end of a held read (R329). -/

/-- A console read that is held while its timeout expires halts the machine (R329). -/
theorem outside_timeout {s : State} (hh : s.hold = some .consoleInput) (hin : s.consoleIn = [])
    (ht : s.platform.inputTimeout = true) :
    s.outside .timeout = { s with hold := none, runState := .halted, stopReason := some .inputTimeout } := by
  simp [State.outside, hh, hin, ht, State.halt]

/-- Settles O34: with a byte the held load is the load of a waiting byte, with nothing it is the load of the empty
register again, and the timeout ends the run before it. -/
theorem heldReadEnds : Obligations.HeldReadEnds := by
  unfold Obligations.HeldReadEnds
  intro s rt rs imm r i w f word b rest a hrun hh hin hf hd hi hr hk ha h1 h2
  refine ⟨fun hag => ?_, fun hag ht => ?_, fun hag hm => ?_⟩
  · have boundary : s.atBoundary = { s with agenda := rest, consoleIn := [b] } := by
      rw [State.atBoundary_of_single hag, State.outside, hin]; rfl
    obtain ⟨data, -⟩ := consoleInputLoads { s with agenda := rest, consoleIn := [b], hold := none }
      rt rs imm r b [] i w f hi hr hk ha
    obtain ⟨t, ht, hw, hcin, -, hq, hl, hc, hmem, hkr, -, hhold, -⟩ := data h1 h2 rfl
    exact ⟨t, (step_resumes hrun boundary hrun hh hf hd).trans ht, hhold, hw, hcin, hq, hl, hmem, hc, hkr⟩
  · have boundary := (State.atBoundary_of_single hag).trans
      (outside_timeout (s := { s with agenda := rest }) hh hin ht)
    rw [step_ended hrun (by simp [boundary]), boundary]
  · obtain ⟨-, held⟩ := emptyConsoleInput { s with hold := none } rt rs imm r i w f hi hr hk ha h1 h2 hin
    have again : { s with hold := some .consoleInput } = s := by rw [← hh]
    exact (step_resumes hrun (State.atBoundary_of_nil hag) hrun hh hf hd).trans
      ((held hm).trans (congrArg Host.Outcome.next again))

/-! The console output (R260, R328). -/

/-- Settles O36: each form is a store of its width, which emits the low byte. -/
theorem consoleOutputStores : Obligations.ConsoleOutputStores := by
  unfold Obligations.ConsoleOutputStores
  intro s rt rs imm i w a hi hk ha
  refine ⟨_, exec_storeForm hi s, ?_⟩
  rw [State.store_console ha hk]
  exact ⟨rfl, rfl, fun _ => rfl, ⟨s.nextPc_eq, rfl⟩, fun _ => rfl, ⟨rfl, rfl⟩, ⟨rfl, rfl, rfl, rfl⟩, ⟨rfl, rfl, rfl⟩,
    rfl, rfl, rfl, rfl, rfl, rfl, rfl, rfl, rfl, rfl⟩

end Sys2Proof.Machine
end

section
/-! SUPPORT. The syscall service port (spec 60 R323 to R325, R334): what SYSCALL does with a dispatcher, answered and
unanswered, and the end of a held service. -/

namespace Sys2Proof.Machine

/-! The host's answer (R325). -/

theorem applyReply_reg_two (s : State) (r : ServiceReply) : (s.applyReply r).reg 2 = r.result.getD (s.reg 2) := by
  rw [State.applyReply_eq]
  cases r.result <;> simp [State.reg]

theorem applyReply_reg_of_ne (s : State) (r : ServiceReply) {q : Reg} (h : q ≠ 2) :
    (s.applyReply r).reg q = s.reg q := by
  cases hr : r.result with
  | none => exact State.reg_congr (by simp [State.applyReply_eq, hr]) q
  | some v =>
    refine (State.reg_congr ?_ q).trans (State.setReg_reg_of_ne s v h)
    simp [State.applyReply_eq, hr]

/-- The host's answer, taken from the queue with code 8 and the PC recorded, is served and ends as its verdict says
(R323, R325). -/
theorem serve_spec {s : State} (hm : s.mem.wf) (r : ServiceReply) (rest : List ServiceReply) :
    let u := { s with
      lastEvent := some ⟨.sys, s.pc⟩, cause := { s.cause with excCode := 8 }, epc := s.pc, answers := rest }
    Served s (u.serve r) r rest ∧ ServiceEnds s (u.serve r) r.verdict := by
  intro u
  have r2 := applyReply_reg_two u r
  have others := fun q : Reg => applyReply_reg_of_ne u r (q := q)
  have bytes := Memory.readByte_hostWrites_eq (p := s.platform) hm r.ramWrites
  rw [State.serve_eq]
  rw [State.applyReply_eq] at *
  cases r.verdict <;>
    refine ⟨⟨rfl, rfl, rfl, rfl, rfl, rfl, rfl, r2, others, ⟨rfl, rfl⟩, bytes, rfl, rfl,
      ⟨rfl, rfl, rfl, rfl, rfl, rfl, rfl, rfl⟩, rfl⟩, ?_⟩
  case resume => exact ⟨⟨s.nextPc_eq, rfl⟩, rfl, rfl⟩
  case exit | fault => exact ⟨rfl, rfl, rfl, rfl⟩

/-! SYSCALL with a dispatcher (R323). -/

/-- Trap entry records over a code and a PC that were recorded before it (R312). -/
theorem enter_over_recorded (s : State) (ev : Event) (code : BitVec 5) (epc : Word) :
    State.enter { s with cause := { s.cause with excCode := code }, epc := epc } ev = s.enter ev := rfl

section
variable {s : State} (enabled : s.status.exl = false) (hosted : s.platform.syscallHosted = true)
include enabled hosted

/-- SYSCALL with exceptions enabled is the service. -/
theorem exec_syscall_hosted (code : BitVec 20) :
    exec (.syscall code) s = .next { s with lastEvent := some ⟨.sys, s.pc⟩ }.hostedSyscall :=
  congrArg Host.Outcome.next (raise_hosted enabled hosted)

/-- With an answer at hand the service is served and ends. -/
theorem exec_syscall_answered (code : BitVec 20) (hm : s.mem.wf) {k : ServiceKind} (hk : s.service = some k)
    {r : ServiceReply} {rest : List ServiceReply} (ha : s.answers = r :: rest) :
    ∃ t, exec (.syscall code) s = .next t ∧ Served s t r rest ∧ ServiceEnds s t r.verdict := by
  refine ⟨_, exec_syscall_hosted enabled hosted code, ?_⟩
  rw [State.hostedSyscall_answered (s := { s with lastEvent := some ⟨.sys, s.pc⟩ }) hk ha]
  exact serve_spec hm r rest

/-- With no answer the exit service ends as if the host had answered Exit and done nothing (log 9). -/
theorem exec_syscall_exit (code : BitVec 20) (hk : s.service = some .exit) (ha : s.answers = []) :
    ∃ t, exec (.syscall code) s = .next t ∧ Served s t ⟨none, [], [], 0, .exit⟩ [] ∧ ServiceEnds s t .exit := by
  refine ⟨_, exec_syscall_hosted enabled hosted code, ?_⟩
  rw [State.hostedSyscall_exit (s := { s with lastEvent := some ⟨.sys, s.pc⟩ }) hk ha]
  exact ⟨⟨rfl, rfl, rfl, rfl, rfl, rfl, ha, rfl, fun _ _ => rfl, ⟨rfl, rfl⟩, fun _ => (ite_self _).symm,
    (List.append_nil _).symm, rfl, ⟨rfl, rfl, rfl, rfl, rfl, rfl, rfl, rfl⟩, rfl⟩, rfl, rfl, rfl, rfl⟩

/-- With no answer any other service holds the step, with nothing of the program's state changed (log 6, log 7). -/
theorem exec_syscall_waits (code : BitVec 20) (hk : s.service = some .external) (ha : s.answers = []) :
    ∃ t, exec (.syscall code) s = .next t ∧ t.hold = some .serviceAnswer ∧ t.pc = s.pc ∧ t.delay = s.delay ∧
      t.runState = s.runState ∧ t.status = s.status ∧ KeepsRegs s t ∧ KeepsHiLo s t ∧ KeepsMemory s t ∧
      KeepsConsole s t := by
  refine ⟨_, exec_syscall_hosted enabled hosted code, ?_⟩
  rw [State.hostedSyscall_waits (s := { s with lastEvent := some ⟨.sys, s.pc⟩ }) hk ha]
  exact ⟨rfl, rfl, rfl, rfl, rfl, fun _ => rfl, ⟨rfl, rfl⟩, fun _ => rfl, ⟨rfl, rfl⟩⟩

/-- A number outside the table takes Reserved Instruction: what SYSCALL recorded first is recorded over (log 8). -/
theorem exec_syscall_unrecognized (code : BitVec 20) (hk : s.service = none) :
    exec (.syscall code) s = .next (s.raise .ri) := by
  rw [exec_syscall_hosted enabled hosted code,
    State.hostedSyscall_unrecognized (s := { s with lastEvent := some ⟨.sys, s.pc⟩ }) hk,
    raise_enter (k := .ri) (.inr enabled) (.inl nofun)]
  exact congrArg Host.Outcome.next (enter_over_recorded { s with lastEvent := some ⟨.ri, s.pc⟩ } _ 8 s.pc)

end

/-- Settles O42: the answer is served, and Resume goes on. -/
theorem hostedSyscallResumes : Obligations.HostedSyscallResumes := by
  unfold Obligations.HostedSyscallResumes
  intro s code k r rest hm enabled hosted hk ha hv
  obtain ⟨t, ht, served, ends⟩ := exec_syscall_answered enabled hosted code hm hk ha
  rw [hv] at ends
  exact ⟨t, ht, served, ends⟩

/-- Settles O43: one lemma for each ending, and an unrecognised number is an exception raised. -/
theorem hostedSyscallEndings : Obligations.HostedSyscallEndings := by
  unfold Obligations.HostedSyscallEndings
  intro s code hm enabled hosted
  refine ⟨fun k r rest hk ha _ => exec_syscall_answered enabled hosted code hm hk ha,
    exec_syscall_exit enabled hosted code, fun hk ha => ?_,
    fun hk hi => ⟨_, exec_syscall_unrecognized enabled hosted code hk, raise_taken (.inr enabled) hi (.inl nofun)⟩,
    fun hk hi => ⟨_, exec_syscall_unrecognized enabled hosted code hk, raise_noHandler (.inr enabled) hi (.inl nofun)⟩⟩
  obtain ⟨t, ht, hhold, hpc, hdelay, hrun, -, frame⟩ := exec_syscall_waits enabled hosted code hk ha
  exact ⟨t, ht, hhold, hpc, hdelay, hrun, frame⟩

/-- Settles O44: the held step is SYSCALL again, with the answer at hand or without. -/
theorem heldServiceEnds : Obligations.HeldServiceEnds := by
  unfold Obligations.HeldServiceEnds
  intro s w code r rest hm hrun hh ha enabled hosted hk hf hd
  refine ⟨fun hag => ?_, fun hag => ?_⟩
  · have boundary : s.atBoundary = { s with agenda := rest, answers := [r] } := by
      rw [State.atBoundary_of_single hag, State.outside, ha]; rfl
    obtain ⟨t, ht, served, ends⟩ := exec_syscall_answered
      (s := { s with agenda := rest, answers := [r], hold := none }) enabled hosted code hm hk rfl
    exact ⟨t, (step_resumes hrun boundary hrun hh hf hd).trans ht, served, ends⟩
  · obtain ⟨t, ht, hhold, hpc, hdelay, hr, frame⟩ := exec_syscall_waits
      (s := { s with hold := none }) enabled hosted code hk ha
    exact ⟨t, (step_resumes hrun (State.atBoundary_of_nil hag) hrun hh hf hd).trans ht, hhold, hpc, hdelay,
      hr.trans hrun, frame⟩

end Sys2Proof.Machine
end

section
/-! SUPPORT. Image load, the block's reset (spec 70 R360, R361): the bytes of the text, the data over them, and the
registers of a loaded state. -/

namespace Sys2Proof.Machine

/-! The bytes of an image (R360 (2)). -/

/-- A stored word changes its four bytes, most significant first (R64). -/
theorem Memory.readByte_write_word {m : Memory} (hm : m.wf) {a : Nat} (h : a + Width.word.bytes ≤ 2 ^ 32) (v : Word)
    (k : Nat) :
    (m.write a .word v).readByte k =
      if a ≤ k ∧ k < a + 4 then v.extractLsb' (8 * (3 - (k - a))) 8 else m.readByte k := by
  apply BitVec.eq_of_toNat_eq
  rw [toNat_readByte_write hm .word v h, apply_ite BitVec.toNat, toNat_extractLsb'_eq]
  exact if_congr (and_congr_right fun hk => Nat.sub_lt_iff_lt_add' hk) rfl rfl

/-- What every address reads as after the text: the last word that covers it counts. -/
theorem Memory.readByte_loadText {m : Memory} (hm : m.wf) {text : List (Word × Word)}
    (ht : ∀ c ∈ text, aligned .word c.1 = true) (k : Nat) :
    (m.loadText text).readByte k =
      ((text.reverse.find? (fun c => decide (c.1.toNat ≤ k) && decide (k < c.1.toNat + 4))).map
        (fun c => c.2.extractLsb' (8 * (3 - (k - c.1.toNat))) 8)).getD (m.readByte k) := by
  induction text generalizing m with
  | nil => rfl
  | cons d rest ih =>
    obtain ⟨hd, hr⟩ := List.forall_mem_cons.1 ht
    have space := aligned_in_space hd
    rw [loadText, ih (wf_write hm .word d.2 space) hr, List.reverse_cons, List.find?_append,
      readByte_write_word hm space]
    cases rest.reverse.find? (fun c => decide (c.1.toNat ≤ k) && decide (k < c.1.toNat + 4)) with
    | some c => rfl
    | none =>
      by_cases hk : d.1.toNat ≤ k ∧ k < d.1.toNat + 4 <;> simp [hk]

/-- The memory of an image whose text is aligned holds the image's bytes (R360 (2)). -/
theorem Memory.readByte_ofImage {img : Image} (ht : ∀ c ∈ img.text, aligned .word c.1 = true) (a : Nat) :
    (Memory.ofImage img).readByte a = imageByte img a := by
  have data := readByte_loadData (wf_loadText wf_reset ht) img.dataBase 0 img.data a
  rw [BitVec.add_zero, readByte_loadText wf_reset ht] at data
  refine data.trans ?_
  unfold imageByte Image.dataAddr
  cases img.data.zipIdx.reverse.find? (fun c => (img.dataBase + BitVec.ofNat 32 c.2).toNat == a) with
  | some c => rfl
  | none =>
    cases img.text.reverse.find? (fun c => decide (c.1.toNat ≤ a) && decide (a < c.1.toNat + 4)) <;> rfl

/-- The text words of an accepted image are aligned (R361 (c)). -/
theorem text_aligned_of_accepted {p : Platform} {img : Image} (h : img.accepted p) :
    ∀ c ∈ img.text, aligned .word c.1 = true := by
  obtain ⟨-, -, ht, -⟩ := h
  exact fun c hc => (fetchable_iff_aligned.1 (List.all_eq_true.1 ht c hc)).1

/-! The loaded state (R360 (1)). -/

theorem State.reset_reg (r : Reg) : State.reset.reg r = 0 := by decide +revert

theorem State.reset_status_toWord : State.reset.status.toWord = 0 := by decide

/-- Sampling over a cleared Cause leaves IP[7:2] alone: the levels of the lines (R320). -/
theorem sample_reset_ip (lines : BitVec 6) : (State.reset.cause.sample lines).ip.toNat = lines.toNat * 4 :=
  toNat_append_eq lines 0#2

/-- Settles O56: a rejected image is the other branch of the load, and an accepted one has its text aligned, so its
memory holds its bytes. -/
theorem imageLoadIsReset : Obligations.ImageLoadIsReset := by
  unfold Obligations.ImageLoadIsReset
  refine fun s img => ⟨fun rejected => if_neg rejected, fun accepted => ?_⟩
  rw [State.loadImage, if_pos accepted]
  exact ⟨fun r => (State.reg_congr rfl r).trans (State.reset_reg r), rfl, rfl, rfl, State.reset_status_toWord, rfl,
    sample_reset_ip s.hwIrq, rfl, rfl, rfl, rfl, rfl, rfl,
    Memory.readByte_ofImage (text_aligned_of_accepted accepted), ⟨rfl, rfl⟩, rfl, rfl⟩

end Sys2Proof.Machine
end
